-- ==== Sys2Proof/Word.lean ====
section
/-! DEFINITION. The word types of the model: a byte of the link, a 16-bit field, and the three kinds of index. -/

namespace Sys2Proof

/-- A byte as the lanes and the glyph store carry it (00_scope.md, Conventions). -/
abbrev Byte := BitVec 8

/-- A 16-bit field as a packet or a lane item carries it. -/
abbrev Word := BitVec 16

/-- A layer number, 0 to 15 (R2). -/
abbrev LayerId := Fin 16

/-- A source id, 0 to 7 (R138). -/
abbrev SourceId := Fin 8

/-- A glyph entry's index, 0 to 255 (R26). -/
abbrev GlyphId := Fin 256

/-- A control packet or a return-lane packet, whole: header, payload and CRC as the lane carries them (R138). -/
abbrev Packet := List Byte

end Sys2Proof
end

