-- ==== Sys2Proof/Syntax.lean ====
section
/-! DEFINITION. The commands of the part: one constructor for each row of spec/opcode_table.json. -/

namespace Sys2Proof

/-- The kind of a line, as an LS item carries it (R93). -/
inductive LineKind where
  | active
  | blank
  deriving DecidableEq, Repr

/-- A command: one whole, indivisible step of the part (95_what_each_step_holds.md). The rows that the agent executes
carry no operand: the request stands at the head of the inbound request queue, or is in execution (R144, R145, log 3). -/
inductive Instr where
  /-- RESET_N is asserted (R23). -/
  | pinReset
  /-- A frame start item arrives: frame number, W, H as carried (R93, R96). -/
  | fs (frame width height : Word)
  /-- A line start item arrives: line kind and index as carried (R93, R101). -/
  | ls (kind : LineKind) (index : Nat)
  /-- A data byte arrives on the forward lane (R102). -/
  | dataByte (byte : Byte)
  /-- A frame end item arrives: active line count, blank line count, abort flag (R104). -/
  | fe (active blank : Word) (abort : Bool)
  /-- An idle fill item arrives (R93). -/
  | idl
  /-- The lane interface reports forward-lane signal loss (R107). -/
  | signalLoss
  /-- The frame watchdog expires (R106). -/
  | watchdogExpiry
  /-- One layer's lease reaches 0 in the countdown for the FS with this frame number (R85). -/
  | leaseExpiry (layer : LayerId) (frame : Word)
  /-- The agent takes and executes an ASSIGN (R136). -/
  | assign
  /-- The agent takes and executes an IDENTIFY (R172). -/
  | identify
  /-- The agent takes and executes a CONFIG_WRITE (R170). -/
  | configWrite
  /-- The agent takes and executes a STATUS_READ (R173). -/
  | statusRead
  /-- The agent takes and executes a RESET of scope TABLES (R157). -/
  | resetTables
  /-- The agent takes and executes a RESET of scope NODE (R157). -/
  | resetNode
  /-- The agent takes and executes a CLAIM (R80). -/
  | claim
  /-- The agent takes and executes a RELEASE (R82). -/
  | release
  /-- The agent takes and executes a LAYER_WRITE (R9). -/
  | layerWrite
  /-- The agent takes and executes a LAYER_READ (R12). -/
  | layerRead
  /-- The agent takes and executes a COMMIT (R14, R15). -/
  | commit
  /-- The agent takes and executes a GLYPH_DEFINE (R32). -/
  | glyphDefine
  /-- The agent takes a GLYPH_LOAD and checks it (R35). -/
  | glyphLoad
  /-- The last data byte of a GLYPH_LOAD has been written (R38). -/
  | glyphLoadComplete
  /-- The agent takes and executes a GLYPH_DELETE (R39). -/
  | glyphDelete
  /-- The agent takes and executes a GLYPH_QUERY (R41). -/
  | glyphQuery
  /-- The agent takes a request of an unknown kind (R148). -/
  | unknownKind
  /-- The notice builder builds one notice (R155, R156). -/
  | noticeBuild
  /-- The transmitter finishes sending an FS (R114). -/
  | fsSent
  /-- The transmitter finishes sending a line (R115). -/
  | lineSent
  /-- The transmitter finishes sending an FE, received or aborted (R118). -/
  | feSent
  /-- The transmitter sends an IDL of its own (R119). -/
  | idlSent
  /-- The end of a packet arrives on the return lane in (R161). -/
  | returnPacketEnd
  /-- Signal loss is reported on the return lane in (R161). -/
  | returnSignalLoss
  /-- The last byte of the packet in sending leaves the return lane out (R165). -/
  | laneFree
  /-- The start of a packet is reported on the return lane in (R161). -/
  | returnPacketStart
  /-- A byte of the packet in reception arrives on the return lane in (R161). -/
  | returnPacketByte (byte : Byte)
  deriving DecidableEq, Repr

end Sys2Proof
end

