-- ==== Sys2Proof/Config.lean ====
section
/-! DEFINITION. What the part fixes (its capacities and its identity) and the free values: what the spec leaves open. -/

namespace Sys2Proof.Config

/-- Bytes of the glyph store (R30). -/
def storeBytes : Nat := 131072

/-- Bytes of one block (R30). -/
def blockSize : Nat := 256

/-- Blocks of the store (R30). -/
def storeBlocks : Nat := 512

/-- Entries of the glyph directory (R26). -/
def glyphEntries : Nat := 256

/-- Places of the inbound request queue (R143). -/
def inboundDepth : Nat := 4

/-- Places of the reply queue (R146). -/
def replyDepth : Nat := 8

/-- Places of the relay FIFO (R160). -/
def relayDepth : Nat := 4

/-- The value at which every counter stays (R177). -/
def counterMax : Nat := 4294967295

/-- Identity values of the IDENTIFY reply (R172). -/
def vendorCode : Nat := 0x5A
/-- The part code of the IDENTIFY reply (R172). -/
def partCode : Nat := 0x0412
/-- The silicon revision of the IDENTIFY reply (R172). -/
def siliconRevision : Nat := 3

/-- FREE VALUE (R48, log 8): the byte that a store address holds when no GLYPH_LOAD has written it since the last pin
reset. First argument: the store epoch (how many pin resets). Second: the address. -/
opaque undefinedStoreByte : Nat → Nat → Byte

/-- FREE VALUE (R46, log 10): whether the compositor's read of a byte that a GLYPH_LOAD writes during the line comes after
the write and gives the new value. First argument: the draw. Second: the address. -/
opaque readSeesWrite : Nat → Nat → Bool

/-- FREE VALUE (R38, log 9): how many further data bytes a GLYPH_LOAD in execution has written when the compositor next
looks at the store. Argument: the draw. -/
opaque loadAdvance : Nat → Nat

/-- How far the agent comes with its request in one command (R144, R145, R152): it has taken it; the request's own action is
done too; its reply, if there is one, is placed too. Other events may fall between the three (log 28). -/
inductive Extent where
  | taken
  | acted
  | replied
  deriving DecidableEq, Repr, Inhabited

/-- A place among the reads of the line plan that an LS takes (R53): after them all; between the ACTIVE bank's and the
directory's; between the directory's and the settings'; or between the settings' and the geometry's. -/
inductive ReadPoint where
  | afterReads
  | beforeDirectory
  | beforeSettings
  | beforeGeometry
  deriving DecidableEq, Repr, Inhabited

/-- FREE VALUE (R45, R53, R76, log 11): at which of the four places the agent's next steps with a RESET or a CONFIG_WRITE
fall. Argument: the draw. -/
opaque readPoint : Nat → ReadPoint

/-- FREE VALUE (R145, log 11): how far the agent comes with that request there. Argument: the draw. -/
opaque readExtent : Nat → Extent

end Sys2Proof.Config
end

