-- ==== Sys2Proof/Machine/State.lean ====
section
/-! DEFINITION. Everything the spec gives the part to hold, block by block, as plain data; how a step can stop; and the
state after pin reset. -/

namespace Sys2Proof.Machine

/-! ## Receiver (R95) -/

/-- The receiver's lock state (R95). -/
inductive LockState where
  | hunt
  | frame
  | raw
  | gap
  deriving DecidableEq, Repr

/-- The kinds of stream fault (R95, R105). -/
inductive FaultKind where
  | lineIndex
  | lineLength
  | frameLength
  | nestedStart
  | geometry
  | aborted
  | unexpectedEnd
  deriving DecidableEq, Repr

/-- The cause of a lock loss (R108). -/
inductive LossCause where
  | signal
  | watchdog
  deriving DecidableEq, Repr

/-- The fields of the FS that opened a frame (R95, R50). -/
structure Geometry where
  frame : Word
  width : Nat
  height : Nat
  deriving DecidableEq, Repr

/-- The line whose LS was taken last and whose end has not yet been found (R95). -/
structure OpenLine where
  kind : LineKind
  index : Nat
  count : Nat
  deriving DecidableEq, Repr

/-- The receiver's state (R95). The watchdog is `none` while stopped, else its loaded timeout in ms (R106). -/
structure Receiver where
  lock : LockState
  geometry : Option Geometry
  lastFrame : Option Word
  openLine : Option OpenLine
  expectedActive : Nat
  expectedBlank : Nat
  activeSeen : Nat
  blankSeen : Nat
  faulted : Bool
  lastFault : Option FaultKind
  watchdog : Option Nat
  deriving DecidableEq, Repr

/-! ## Sorter (R125, R135) -/

/-- The sorter's scan state (R125). -/
inductive ScanState where
  | seeking
  | inPacket
  | ended
  | abandoned
  deriving DecidableEq, Repr

/-- What the sorter decides for a good packet (R130). -/
inductive Decision where
  | consume
  | forward
  | both
  deriving DecidableEq, Repr

/-- The counts one blank line has earned so far (R125). -/
structure LineCounts where
  consumed : Nat
  forwarded : Nat
  badCrc : Nat
  malformed : Nat
  deriving DecidableEq, Repr

/-- The sorter's record of the open blank line (R125). A first sync byte whose second has not yet come stands in
`packet` while the scan state is still SEEKING (R126, log 22). -/
structure LineRecord where
  bound : Nat
  scanPos : Nat
  scan : ScanState
  packet : List Byte
  decisions : List (Packet × Decision)
  counts : LineCounts
  deriving DecidableEq, Repr

/-- The sorter's state (R125, R135). -/
structure Sorter where
  address : Byte
  line : Option LineRecord
  deriving DecidableEq, Repr

/-! ## Layer table (R2, R3, R13, R78, R88) -/

/-- The kind of a layer record (R3). -/
inductive LayerKind where
  | fill
  | glyph
  deriving DecidableEq, Repr

/-- A 24-bit RGB 8:8:8 value (00_scope.md, Conventions). -/
structure Colour where
  r : Byte
  g : Byte
  b : Byte
  deriving DecidableEq, Repr

/-- The clip part of a layer record (R3, R4). -/
structure Clip where
  x0 : Nat
  y0 : Nat
  x1 : Nat
  y1 : Nat
  deriving DecidableEq, Repr

/-- A layer record (R3): every field is stored whatever the kind. -/
structure LayerRecord where
  visible : Bool
  kind : LayerKind
  x : Int
  y : Int
  width : Nat
  height : Nat
  glyph : GlyphId
  scaleH : Nat
  scaleV : Nat
  colour : Colour
  opacity : Byte
  key : Option Word
  clip : Option Clip
  deriving DecidableEq, Repr

/-- The default column of R3. -/
def LayerRecord.default : LayerRecord :=
  { visible := false, kind := .fill, x := 0, y := 0, width := 1, height := 1, glyph := 0, scaleH := 1, scaleV := 1,
    colour := ⟨0, 0, 0⟩, opacity := 255, key := none, clip := none }

/-- The ownership fields of one layer (R78). -/
structure Ownership where
  owner : Option SourceId
  length : Nat
  remaining : Nat
  deriving DecidableEq, Repr

/-- An unowned layer has lease length 0 and remaining lease 0 (R78). -/
def Ownership.unowned : Ownership := ⟨none, 0, 0⟩

/-- An armed commit (R13). -/
structure CommitEntry where
  source : SourceId
  tag : Word
  mask : Word
  deriving DecidableEq, Repr

/-- The first-expiry record when present (R88). -/
structure FirstExpiry where
  source : SourceId
  layer : LayerId
  frame : Word
  deriving DecidableEq, Repr

/-- The layer table (R2). -/
structure LayerTable where
  pendingBank : Vector LayerRecord 16
  activeBank : Vector LayerRecord 16
  ownership : Vector Ownership 16
  commits : List CommitEntry
  firstExpiry : Option FirstExpiry
  deriving DecidableEq, Repr

/-- The layer table after pin reset (R23). -/
def LayerTable.reset : LayerTable :=
  { pendingBank := Vector.replicate 16 LayerRecord.default, activeBank := Vector.replicate 16 LayerRecord.default,
    ownership := Vector.replicate 16 Ownership.unowned, commits := [], firstExpiry := none }

/-! ## Glyph directory and glyph store (R26, R30) -/

/-- A glyph's format (R28). -/
inductive Format where
  | mono
  | gray4
  | rgb16
  deriving DecidableEq, Repr

/-- The state of a non-FREE entry (R26). -/
inductive LoadState where
  | loading
  | ready
  deriving DecidableEq, Repr

/-- A LOADING or READY entry of the directory (R26). -/
structure Glyph where
  state : LoadState
  owner : SourceId
  format : Format
  width : Nat
  height : Nat
  stride : Nat
  size : Nat
  firstBlock : Nat
  blockCount : Nat
  loaded : Nat
  refs : Nat
  deriving DecidableEq, Repr

/-- The directory and the store. An entry is `none` while FREE, when each of its fields has the FREE value of R26
(log 24). A block is `none` while free (R30). `bytes` lists the store bytes that have a defined value; `epoch` counts pin
resets, for the bytes that have none (R48, log 8). -/
structure GlyphStore where
  entries : Vector (Option Glyph) 256
  blockMap : Vector (Option GlyphId) 512
  bytes : List Host.Cell
  epoch : Nat
  deriving DecidableEq, Repr

/-- The directory and the store after pin reset (R48). -/
def GlyphStore.reset : GlyphStore :=
  { entries := Vector.replicate 256 none, blockMap := Vector.replicate 512 none, bytes := [], epoch := 0 }

/-! ## The settings of Node Status (R169) -/

/-- The expiry action setting (R86). -/
inductive ExpiryAction where
  | hide
  | keep
  deriving DecidableEq, Repr

/-- The settings record (R169). -/
structure Settings where
  lineBudget : Nat
  frameTimeout : Nat
  expiryAction : ExpiryAction
  listener : Option SourceId
  forcePass : Bool
  deriving DecidableEq, Repr

/-- The default column of R169. -/
def Settings.default : Settings := ⟨2048, 50, .hide, none, false⟩

/-! ## Compositor (R50) -/

/-- The fields of a plan entry of kind GLYPH (R63): `first` and `last` are the glyph columns a and b of R60. -/
structure PlanGlyph where
  format : Format
  stride : Nat
  firstBlock : Nat
  row : Nat
  first : Nat
  last : Nat
  scaleH : Nat
  key : Option Word
  deriving DecidableEq, Repr

/-- One entry of a line plan (R63); `glyph` is `none` for kind FILL. -/
structure PlanEntry where
  layer : LayerId
  left : Nat
  right : Nat
  x : Int
  colour : Colour
  opacity : Byte
  glyph : Option PlanGlyph
  deriving DecidableEq, Repr

/-- A store byte that the planned line reads (R64), with the value read for the line as far as the writes of a load have
come (R46, log 10). -/
structure FetchedByte where
  addr : Nat
  value : Byte
  deriving DecidableEq, Repr

/-- The line plan (R63) with the glyph bytes of its line (R64). -/
structure Plan where
  line : Nat
  entries : List PlanEntry
  bytes : List FetchedByte
  deriving DecidableEq, Repr

/-- The arriving slot when it holds a line: its received bytes and, for a planned line, the composited values of the
pixels received so far, as the plan's bytes give them (R50, R72, log 10). -/
structure Arriving where
  index : Nat
  received : List Byte
  composited : List Byte
  deriving DecidableEq, Repr

/-- The compositor's state (R50). -/
structure Compositor where
  geometry : Option Geometry
  plan : Option Plan
  arriving : Option Arriving
  leaving : Option (List Byte)
  deriving DecidableEq, Repr

/-- The compositor after pin reset (R77). -/
def Compositor.reset : Compositor := ⟨none, none, none, none⟩

/-! ## Transmitter (R112) -/

/-- The transmitter's output state (R112). -/
inductive OutState where
  | idle
  | frame
  | aborting
  deriving DecidableEq, Repr

/-- The payload source of a line in the output sequence (R112): not yet complete; the leaving slot; the pixels the line
carries until it takes that slot; or the packets forwarded from a blank line, with the length of its data area. -/
inductive Payload where
  | incomplete
  | leaving
  | carried (bytes : List Byte)
  | blank (packets : List Packet) (area : Nat)
  deriving DecidableEq, Repr

/-- A line in the output sequence (R112). `tail` holds what a long line adds behind its 3·W bytes (R117). -/
structure OutLine where
  kind : LineKind
  index : Nat
  payload : Payload
  tail : List Byte
  deriving DecidableEq, Repr

/-- An item of the output sequence (R112). -/
inductive OutItem where
  | fs (frame width height : Word)
  | line (l : OutLine)
  | fe (active blank : Word) (abort : Bool)
  | abortedFe
  deriving DecidableEq, Repr

/-- An item as it leaves on the forward lane out (R114 to R119). -/
inductive SentItem where
  | idl
  | fs (frame width height : Word)
  | line (kind : LineKind) (index : Nat) (bytes : List Byte)
  | fe (active blank : Word) (abort : Bool)
  deriving DecidableEq, Repr

/-- The transmitter's state (R112); `lane` is the item last sent on the forward lane out (log 16). -/
structure Transmitter where
  state : OutState
  sequence : List OutItem
  activeSent : Nat
  blankSent : Nat
  lane : Option SentItem
  deriving DecidableEq, Repr

/-- The transmitter after pin reset (R124). -/
def Transmitter.reset : Transmitter := ⟨.idle, [], 0, 0, none⟩

/-! ## Request agent (R143, R144, R146, R150) -/

/-- The state of a source context (R150). -/
inductive ContextState where
  | unknown
  | active
  deriving DecidableEq, Repr

/-- The commit-applied notice item (R19). -/
structure CommitItem where
  tag : Word
  frame : Word
  mask : Word
  overtaken : Nat
  deriving DecidableEq, Repr

/-- The lease-expired notice item (R87). -/
structure LeaseItem where
  mask : Word
  frame : Word
  deriving DecidableEq, Repr

/-- The LOCK notice item (R109). -/
structure LockItem where
  locked : Bool
  losses : Nat
  cause : Option LossCause
  frame : Option Word
  deriving DecidableEq, Repr

/-- The BUDGET notice item (R62). -/
structure BudgetItem where
  frame : Word
  line : Nat
  mask : Word
  skips : Nat
  deriving DecidableEq, Repr

/-- A source context (R150). -/
structure Context where
  state : ContextState
  lastSeq : Option Byte
  cached : Option Packet
  cachedQueued : Bool
  noticeSeq : Byte
  noticeOutstanding : Bool
  commitItem : Option CommitItem
  leaseItem : Option LeaseItem
  lockItem : Option LockItem
  budgetItem : Option BudgetItem
  deriving DecidableEq, Repr

/-- An UNKNOWN context holds no sequence, no cached reply, clear marks, notice sequence 0 and no items (R150). -/
def Context.empty : Context := ⟨.unknown, none, none, false, 0, false, none, none, none, none⟩

/-- Whether a packet of the reply queue is a reply or a notice (R160). -/
inductive ReplyClass where
  | reply
  | notice
  deriving DecidableEq, Repr

/-- A packet of the reply queue with its note: for a reply, that it is the copy of the cached reply (R152); for a notice,
that it is its source's outstanding notice (R156). -/
structure Queued where
  packet : Packet
  cls : ReplyClass
  note : Bool
  deriving DecidableEq, Repr

/-- A GLYPH_LOAD in execution: its request, the store address of its first data byte, and how many of its data bytes have
been written, in ascending order (R38, log 9). -/
structure LoadRun where
  source : SourceId
  seq : Byte
  index : GlyphId
  offset : Nat
  data : List Byte
  base : Nat
  written : Nat
  deriving DecidableEq, Repr

/-- A request as the agent reads it from its packet (R138). -/
structure Request where
  source : SourceId
  seq : Byte
  kind : Byte
  payload : List Byte
  deriving DecidableEq, Repr

/-- The status codes (R153). -/
inductive Status where
  | ok
  | kind
  | length
  | field
  | notOwner
  | claimed
  | noGlyph
  | noSpace
  | inUse
  | offset
  deriving DecidableEq, Repr

/-- What a request's own rule answers: a status and its result data. -/
structure Answer where
  status : Status
  data : List Byte
  deriving DecidableEq, Repr

/-- What the agent has found by the checks before execution when it took a request (R143, R148, R149, R151): KIND or LENGTH; a
broadcast of the wrong length; a duplicate, with the cached reply that is to be placed again where no copy of it was still
queued; or a request to execute. -/
inductive Judgement where
  | refused (status : Status)
  | discarded
  | duplicate (copy : Option Packet)
  | execute
  deriving DecidableEq, Repr

/-- The reply that has still to be placed: that of an executed request, with its answer (R152); a KIND or LENGTH reply (R148);
or the cached reply again (R151). -/
inductive DueReply where
  | executed (answer : Answer)
  | refused (status : Status)
  | copied (packet : Packet)
  deriving DecidableEq, Repr

/-- What holds the agent BUSY between commands (R144, R145): a request that it has taken, before its own action; a GLYPH_LOAD
whose bytes are being written (R38); or a request after its own action, before its reply is placed. -/
inductive Execution where
  | taken (packet : Packet) (judgement : Judgement)
  | load (run : LoadRun)
  | acted (request : Request) (due : DueReply)
  deriving DecidableEq, Repr

/-- The agent's state. `busy` is `none` in IDLE; an addressed request in execution holds one reserved place of the reply
queue (R146). `granted`: of two or more free places the notice builder has had
its place, and one of the rest is the agent's for its head request (R147, log 5). -/
structure Agent where
  inbound : List Packet
  busy : Option Execution
  replies : List Queued
  contexts : Vector Context 8
  lastServed : SourceId
  granted : Bool
  deriving DecidableEq, Repr

/-- The agent after pin reset (R159). -/
def Agent.reset : Agent := ⟨[], none, [], Vector.replicate 8 Context.empty, 7, false⟩

/-! ## Return relay (R160) -/

/-- Which queue the arbiter took from last (R160). -/
inductive Served where
  | relay
  | reply
  deriving DecidableEq, Repr

/-- The packet in sending with its origin (R160). -/
inductive Sending where
  | relayed (packet : Packet)
  | own (queued : Queued)
  deriving DecidableEq, Repr

/-- The relay's state (R160). The lane state is SENDING exactly while `sending` holds a packet. `lane` is the packet last
sent on the return lane out (log 16). -/
structure Relay where
  fifo : List Packet
  receiving : Option (List Byte)
  sending : Option Sending
  lastServed : Served
  lane : Option Packet
  deriving DecidableEq, Repr

/-- The relay after pin reset (R168). -/
def Relay.reset : Relay := ⟨[], none, none, .reply, none⟩

/-! ## The counters of Node Status (R176) -/

/-- The thirteen counters (R176). -/
inductive Counter where
  | framesGood
  | framesFaulted
  | lockLosses
  | pktConsumed
  | pktForwarded
  | pktBadCrc
  | pktMalformed
  | reqOverflow
  | reqDuplicate
  | relayOverflow
  | relayBadCrc
  | linesBudgetSkip
  | linesNotReady
  deriving DecidableEq, Repr

/-- The settings and the counters, the latter in the order of R176. -/
structure NodeStatus where
  settings : Settings
  counters : Vector Nat 13
  deriving DecidableEq, Repr

/-- Node Status after pin reset (R179). -/
def NodeStatus.reset : NodeStatus := ⟨Settings.default, Vector.replicate 13 0⟩

/-! ## The part -/

/-- The whole state: the sender's queue of commands, and how far the agent comes with its request in each coming command of
its rows, with none left as far as the reply (log 28); the nine blocks; and the counter behind the free values (logs 9 to
11). -/
structure State where
  pending : List Instr
  extents : List Config.Extent
  rx : Receiver
  sorter : Sorter
  agent : Agent
  layers : LayerTable
  glyphs : GlyphStore
  comp : Compositor
  tx : Transmitter
  relay : Relay
  status : NodeStatus
  freeDraws : Nat
  deriving DecidableEq, Repr

/-- The receiver after pin reset (R111). -/
def Receiver.reset : Receiver := ⟨.hunt, none, none, none, 0, 0, 0, 0, false, none, none⟩

/-- The sorter after pin reset (R135). -/
def Sorter.reset : Sorter := ⟨0, none⟩

/-- The part right after pin reset (R23, R48, R77, R92, R111, R124, R135, R159, R168, R179), with no command waiting. -/
def State.reset : State :=
  { pending := [], extents := [], rx := Receiver.reset, sorter := Sorter.reset, agent := Agent.reset,
    layers := LayerTable.reset, glyphs := GlyphStore.reset, comp := Compositor.reset, tx := Transmitter.reset,
    relay := Relay.reset, status := NodeStatus.reset, freeDraws := 0 }

/-- How a command can stop the machine. -/
inductive Fault where
  /-- A glyph-store access at an address at or above 131072, which R30 says does not exist. Raised by LS (a plan whose
  bytes lie outside the store) and by GLYPH_LOAD_COMPLETE, only in states that break the directory's own rules. Safe: the
  part is not claimed to go on (log 19). -/
  | storeAddress (addr : Nat)
  deriving DecidableEq, Repr

/-- How a command can be turned away. -/
inductive Refusal where
  /-- Raised by exec's arm of a command that has no meaning yet, with its mnemonic. Safe: nothing is claimed of it. No arm
  raises it now. -/
  | notModelled (mnemonic : String)
  deriving DecidableEq, Repr

end Sys2Proof.Machine
end

