-- ==== Sys2Proof/Machine/Ops.lean ====
section
/-! DEFINITION. The shared operations: byte order, masks, the CRC, the glyph store as a memory, and reading and updating
the parts of State. -/

namespace Sys2Proof.Machine

/-! ## Indexed collections -/

/-- Every element of a fixed collection replaced by its image. -/
def mapVec {α β : Type} {n : Nat} (f : α → β) (v : Vector α n) : Vector β n := ⟨⟨v.toList.map f⟩, by simp⟩

/-- One element of a fixed collection replaced by its image. -/
def modifyVec {α : Type} {n : Nat} (v : Vector α n) (i : Fin n) (f : α → α) : Vector α n := v.set i.val (f v[i]) i.isLt

/-- The sixteen layers, bottom first (R5). -/
def layerIds : List LayerId := [0, 1, 2, 3, 4, 5, 6, 7, 8, 9, 10, 11, 12, 13, 14, 15]

/-- The eight source ids. -/
def sourceIds : List SourceId := [0, 1, 2, 3, 4, 5, 6, 7]

/-- The thirteen counters in the order of R176. -/
def Counter.index : Counter → Fin 13
  | .framesGood => 0
  | .framesFaulted => 1
  | .lockLosses => 2
  | .pktConsumed => 3
  | .pktForwarded => 4
  | .pktBadCrc => 5
  | .pktMalformed => 6
  | .reqOverflow => 7
  | .reqDuplicate => 8
  | .relayOverflow => 9
  | .relayBadCrc => 10
  | .linesBudgetSkip => 11
  | .linesNotReady => 12

/-! ## Byte order: most significant byte first (00_scope.md, Conventions; R138) -/

/-- The number that bytes hold, most significant first. -/
def beNat (bs : List Byte) : Nat := bs.foldl (fun n b => n * 256 + b.toNat) 0

/-- A number as `k` bytes, most significant first. -/
def beBytes : Nat → Nat → List Byte
  | 0, _ => []
  | k + 1, n => BitVec.ofNat 8 (n / 256 ^ k) :: beBytes k n

/-- A 16-bit two's complement value (R141). -/
def signed16 (n : Nat) : Int := if n < 32768 then (n : Int) else (n : Int) - 65536

/-- The 16 bits of a signed value (R141). -/
def unsigned16 (x : Int) : Nat := (x % 65536).toNat

/-! ## Layer masks (R139, note 1): bit n names layer n -/

/-- The mask that names one layer. -/
def layerBit (l : LayerId) : Word := 1#16 <<< l.val

/-- Whether a mask names a layer. -/
def namesLayer (m : Word) (l : LayerId) : Bool := m.getLsbD l.val

/-- The mask of the layers that satisfy a test. -/
def maskOf (p : LayerId → Bool) : Word := layerIds.foldl (fun m l => if p l then m ||| layerBit l else m) 0#16

/-! ## The 16-bit CRC (R128) -/

/-- One of the eight shifts of a byte. -/
def crcBit (v : Word) : Word := if v.getLsbD 15 then (v <<< 1) ^^^ 0x1021#16 else v <<< 1

/-- A byte taken into the check value. -/
def crcByte (v : Word) (b : Byte) : Word :=
  crcBit (crcBit (crcBit (crcBit (crcBit (crcBit (crcBit (crcBit (v ^^^ (b.setWidth 16 <<< 8)))))))))

/-- The check over bytes, from the initial value 0xFFFF. -/
def crc16 (bs : List Byte) : Word := bs.foldl crcByte 0xFFFF#16

/-! ## The glyph store as a memory (R30) -/

/-- The defined value at an address, or none where no GLYPH_LOAD has written since the last pin reset (R48). -/
def Memory.read? : List Host.Cell → Nat → Option Byte
  | [], _ => none
  | (k, v) :: rest, a => if k = a then some v else Memory.read? rest a

/-- One byte written; the list stays in rising order. -/
def Memory.write (a : Nat) (b : Byte) : List Host.Cell → List Host.Cell
  | [] => [(a, b)]
  | (k, v) :: rest =>
    if a < k then (a, b) :: (k, v) :: rest
    else if a = k then (a, b) :: rest
    else (k, v) :: Memory.write a b rest

/-- Bytes written at ascending addresses (R38). -/
def Memory.writeSpan (a : Nat) : List Byte → List Host.Cell → List Host.Cell
  | [], mem => mem
  | b :: bs, mem => Memory.writeSpan (a + 1) bs (Memory.write a b mem)

/-- The canonical form from an address on: addresses strictly rising and inside the store. -/
def Memory.wfFrom : Nat → List Host.Cell → Bool
  | _, [] => true
  | lo, (k, _) :: rest => decide (lo ≤ k) && decide (k < Config.storeBytes) && Memory.wfFrom (k + 1) rest

/-- The canonical form of the store: addresses strictly rising and inside the store. An unlisted address reads as no
defined value, so no entry equals what an unlisted address reads as. -/
def Memory.wf (mem : List Host.Cell) : Bool := Memory.wfFrom 0 mem

/-- What a store address holds: its defined value, or the free value of R48 (log 8). This is the ONE definition of what
an unlisted address reads as. -/
def storeByte (g : GlyphStore) (a : Nat) : Byte := (Memory.read? g.bytes a).getD (Config.undefinedStoreByte g.epoch a)

/-! ## Reading and updating State -/

/-- The context of a source (R150). -/
def State.context (s : State) (src : SourceId) : Context := s.agent.contexts[src]

/-- A source's context changed. -/
def State.modifyContext (src : SourceId) (f : Context → Context) (s : State) : State :=
  { s with agent := { s.agent with contexts := modifyVec s.agent.contexts src f } }

/-- The ownership fields of a layer (R78). -/
def State.ownership (s : State) (l : LayerId) : Ownership := s.layers.ownership[l]

/-- A layer's ownership fields replaced. -/
def State.setOwnership (l : LayerId) (o : Ownership) (s : State) : State :=
  { s with layers := { s.layers with ownership := modifyVec s.layers.ownership l (fun _ => o) } }

/-- The PENDING record of a layer (R2). -/
def State.pendingRecord (s : State) (l : LayerId) : LayerRecord := s.layers.pendingBank[l]

/-- The ACTIVE record of a layer (R2). -/
def State.activeRecord (s : State) (l : LayerId) : LayerRecord := s.layers.activeBank[l]

/-- The entry of a glyph index, none while FREE (R26). -/
def State.entry (s : State) (e : GlyphId) : Option Glyph := s.glyphs.entries[e]

/-- A directory entry changed. -/
def State.modifyEntry (e : GlyphId) (f : Option Glyph → Option Glyph) (s : State) : State :=
  { s with glyphs := { s.glyphs with entries := modifyVec s.glyphs.entries e f } }

/-- The value of a counter (R176). -/
def State.counter (s : State) (c : Counter) : Nat := s.status.counters[c.index]

/-- The mask of the layers a source owns (R78). -/
def State.ownedMask (s : State) (src : SourceId) : Word := maskOf (fun l => (s.ownership l).owner == some src)

/-- The mask of the layers that have an owner (R78). -/
def State.takenMask (s : State) : Word := maskOf (fun l => (s.ownership l).owner.isSome)

end Sys2Proof.Machine
end

