-- ==== Sys2Proof/Machine/Flags.lean ====
section
/-! DEFINITION. The flags the part keeps for its readers: the saturating counters (R177), the fault record of the receiver
(R105), and the marks of the four notice items (R19, R62, R87, R109). -/

namespace Sys2Proof.Machine

/-! ## Counters (R176, R177) -/

/-- An increment of `k` to a counter holding `c` (R177). -/
def saturate (c k : Nat) : Nat := if c + k ≤ Config.counterMax then c + k else Config.counterMax

/-- An increment sent to Node Status (R176). -/
def bump (c : Counter) (k : Nat) (s : State) : State :=
  { s with status := { s.status with counters := modifyVec s.status.counters c.index (fun v => saturate v k) } }

/-- Every counter set to 0 (R175, R179). -/
def clearCounters (s : State) : State := { s with status := { s.status with counters := Vector.replicate 13 0 } }

/-! ## The receiver's fault record (R105) -/

/-- The first fault of a frame: its kind is recorded, FRAMES_FAULTED counts 1 and the frame is marked. A frame already
marked records nothing more. -/
def firstFault (k : FaultKind) (s : State) : State :=
  if s.rx.faulted then s
  else bump .framesFaulted 1 { s with rx := { s.rx with lastFault := some k, faulted := true } }

/-- A stray FE in GAP: it belongs to no frame, so the frame mark stays (R105). -/
def strayEnd (s : State) : State :=
  bump .framesFaulted 1 { s with rx := { s.rx with lastFault := some .unexpectedEnd } }

/-! ## Notice items -/

/-- A count of an item that stays at its top value. -/
def capped (top n : Nat) : Nat := if n < top then n + 1 else top

/-- A mark reaches a context only while it is ACTIVE (R150). -/
def markContext (src : SourceId) (f : Context → Context) (s : State) : State :=
  s.modifyContext src (fun c => if c.state = .active then f c else c)

/-- The commit-applied item after a copy (R19). -/
def commitMark (tag frame mask : Word) : Option CommitItem → CommitItem
  | none => ⟨tag, frame, mask, 0⟩
  | some i => ⟨tag, frame, mask, capped 255 i.overtaken⟩

/-- The commit-applied item of a source marked (R19). -/
def markCommitApplied (src : SourceId) (tag frame mask : Word) (s : State) : State :=
  markContext src (fun c => { c with commitItem := some (commitMark tag frame mask c.commitItem) }) s

/-- The lease-expired item after an expiry (R87). -/
def leaseMark (l : LayerId) (frame : Word) : Option LeaseItem → LeaseItem
  | none => ⟨layerBit l, frame⟩
  | some i => ⟨i.mask ||| layerBit l, frame⟩

/-- The lease-expired item of a former owner marked (R87). -/
def markLeaseExpired (src : SourceId) (l : LayerId) (frame : Word) (s : State) : State :=
  markContext src (fun c => { c with leaseItem := some (leaseMark l frame c.leaseItem) }) s

/-- A node-level mark: it goes to the source that the notice listener setting names at this moment (R62, R109). -/
def markListener (f : Context → Context) (s : State) : State :=
  match s.status.settings.listener with
  | none => s
  | some src => markContext src f s

/-- The LOCK item after a lock loss (R109). -/
def lossMark (cause : LossCause) : Option LockItem → LockItem
  | none => ⟨false, 1, some cause, none⟩
  | some i => ⟨false, capped 255 i.losses, some cause, none⟩

/-- The LOCK item after a relock (R109). -/
def relockMark (frame : Word) : Option LockItem → LockItem
  | none => ⟨true, 0, none, some frame⟩
  | some i => { i with locked := true, frame := some frame }

/-- The LOCK item marked at a lock loss (R109). -/
def markLoss (cause : LossCause) (s : State) : State :=
  markListener (fun c => { c with lockItem := some (lossMark cause c.lockItem) }) s

/-- The LOCK item marked at a relock (R109). -/
def markRelock (frame : Word) (s : State) : State :=
  markListener (fun c => { c with lockItem := some (relockMark frame c.lockItem) }) s

/-- The BUDGET item after a skip (R62). -/
def budgetMark (frame : Word) (line : Nat) (l : LayerId) : Option BudgetItem → BudgetItem
  | none => ⟨frame, line, layerBit l, 1⟩
  | some i => ⟨frame, line, i.mask ||| layerBit l, capped 65535 i.skips⟩

/-- The BUDGET item marked at a skip (R62). -/
def markBudget (frame : Word) (line : Nat) (l : LayerId) (s : State) : State :=
  markListener (fun c => { c with budgetItem := some (budgetMark frame line l c.budgetItem) }) s

end Sys2Proof.Machine
end

