-- ==== Sys2Proof/Machine/Operands.lean ====
section
/-! DEFINITION. The byte layouts that the link carries (R138 to R142): packet headers, request kinds and lengths, the
LAYER_WRITE payload, replies and their result data. -/

namespace Sys2Proof.Machine

/-! ## Packets (R138) -/

/-- A byte of a packet by its position. -/
def packetByte (p : Packet) (i : Nat) : Byte := p.getD i 0

/-- Byte 2: destination on the forward lane, origin on the return lane. -/
def packetDest (p : Packet) : Byte := packetByte p 2

/-- Bits 2 to 0 of byte 3: the source id. -/
def packetSource (p : Packet) : SourceId := ⟨(packetByte p 3).toNat % 8, Nat.mod_lt _ (by decide)⟩

/-- Byte 4: the sequence. -/
def packetSeq (p : Packet) : Byte := packetByte p 4

/-- Byte 5: the kind. -/
def packetKind (p : Packet) : Byte := packetByte p 5

/-- Byte 6: the payload length. -/
def packetLength (p : Packet) : Nat := (packetByte p 6).toNat

/-- The payload. -/
def packetPayload (p : Packet) : List Byte := (p.drop 7).take (packetLength p)

/-- A packet to the broadcast address 63 (R135). -/
def packetBroadcast (p : Packet) : Bool := packetDest p == 63#8

/-- The two CRC bytes that close a packet, high byte first (R128). -/
def packetCrc (p : Packet) : Nat := beNat (p.drop (p.length - 2))

/-- The CRC check: over bytes 2 through the last payload byte (R128). -/
def packetCrcGood (p : Packet) : Bool := (crc16 ((p.take (p.length - 2)).drop 2)).toNat == packetCrc p

/-- The header check of R129: destination at most 63, bits 6 to 3 of byte 3 clear, direction 0. -/
def packetHeaderValid (p : Packet) : Bool :=
  decide ((packetDest p).toNat ≤ 63) && decide ((packetByte p 3).toNat < 8)

/-- A packet built for the return lane: the header of R138, the payload, and the CRC of R128. -/
def sealPacket (origin : Byte) (dest : SourceId) (seq kind : Byte) (payload : List Byte) : Packet :=
  let body := [origin, BitVec.ofNat 8 (128 + dest.val), seq, kind, BitVec.ofNat 8 payload.length] ++ payload
  [0xC3#8, 0x5A#8] ++ body ++ beBytes 2 (crc16 body).toNat

/-! ## Request kinds (R139) -/

/-- The codes of R139. -/
def kindAssign : Byte := 0x01
/-- The code of IDENTIFY (R139). -/
def kindIdentify : Byte := 0x02
/-- The code of CONFIG_WRITE (R139). -/
def kindConfigWrite : Byte := 0x03
/-- The code of STATUS_READ (R139). -/
def kindStatusRead : Byte := 0x04
/-- The code of RESET (R139). -/
def kindReset : Byte := 0x0F
/-- The code of CLAIM (R139). -/
def kindClaim : Byte := 0x10
/-- The code of RELEASE (R139). -/
def kindRelease : Byte := 0x11
/-- The code of LAYER_WRITE (R139). -/
def kindLayerWrite : Byte := 0x20
/-- The code of LAYER_READ (R139). -/
def kindLayerRead : Byte := 0x21
/-- The code of COMMIT (R139). -/
def kindCommit : Byte := 0x22
/-- The code of GLYPH_DEFINE (R139). -/
def kindGlyphDefine : Byte := 0x30
/-- The code of GLYPH_LOAD (R139). -/
def kindGlyphLoad : Byte := 0x31
/-- The code of GLYPH_DELETE (R139). -/
def kindGlyphDelete : Byte := 0x32
/-- The code of GLYPH_QUERY (R139). -/
def kindGlyphQuery : Byte := 0x33
/-- The code of REPLY, return lane only (R139). -/
def kindReply : Byte := 0x80
/-- The code of NOTICE, return lane only (R139). -/
def kindNotice : Byte := 0x81

/-- The kinds that travel on the forward lane (R139, R148). -/
def requestKinds : List Byte :=
  [kindAssign, kindIdentify, kindConfigWrite, kindStatusRead, kindReset, kindClaim, kindRelease, kindLayerWrite,
   kindLayerRead, kindCommit, kindGlyphDefine, kindGlyphLoad, kindGlyphDelete, kindGlyphQuery]

/-- The request a packet carries (R138). -/
def requestOf (p : Packet) : Request := ⟨packetSource p, packetSeq p, packetKind p, packetPayload p⟩

/-- A field of a payload: `n` bytes from a position, most significant first (R138). -/
def field (payload : List Byte) (pos n : Nat) : Nat := beNat ((payload.drop pos).take n)

/-- A layer from a byte, none above 15. -/
def layerOf (n : Nat) : Option LayerId := if h : n < 16 then some ⟨n, h⟩ else none

/-- A glyph index from its byte. -/
def glyphOf (n : Nat) : GlyphId := ⟨n % 256, Nat.mod_lt _ (by decide)⟩

/-! ## Payload fields that a presence set names (R139, R141) -/

/-- The bytes that the named fields among the first `k` take. -/
def presentBytes (named : Nat → Bool) (size : Nat → Nat) : Nat → Nat
  | 0 => 0
  | k + 1 => presentBytes named size k + (if named k then size k else 0)

/-- The value of field `k` where it is named: the fields follow each other in order from `start`. -/
def presentField (payload : List Byte) (start : Nat) (named : Nat → Bool) (size : Nat → Nat) (k : Nat) : Option Nat :=
  if named k then some (field payload (start + presentBytes named size k) (size k)) else none

/-! ### CONFIG_WRITE (R139) -/

/-- Bit `k` of the CONFIG_WRITE presence set names setting `k` of the five. -/
def configNamed (payload : List Byte) (k : Nat) : Bool := (packetByte payload 0).getLsbD k

/-- The sizes of the five settings: line budget 2, the others 1. -/
def configSize (k : Nat) : Nat := if k = 0 then 2 else 1

/-- At least 1 byte, and 1 plus the sizes of the fields named (R148). -/
def configLengthOk (payload : List Byte) : Bool :=
  decide (1 ≤ payload.length) && decide (payload.length = 1 + presentBytes (configNamed payload) configSize 5)

/-- The value carried for setting `k`, where named. -/
def configField (payload : List Byte) (k : Nat) : Option Nat :=
  presentField payload 1 (configNamed payload) configSize k

/-! ### LAYER_WRITE (R141) -/

/-- The two presence-set bytes. -/
def layerPresence (payload : List Byte) : Word := BitVec.ofNat 16 (field payload 1 2)

/-- The action code for the key: 0 leave, 1 set, 2 remove (R141). -/
def keyAction (payload : List Byte) : Nat := ((layerPresence payload).toNat / 2 ^ 11) % 4

/-- The action code for the clip (R141). -/
def clipAction (payload : List Byte) : Nat := ((layerPresence payload).toNat / 2 ^ 13) % 4

/-- Positions 0 to 10 are the plain fields, 11 the key's value, 12 the clip's. -/
def layerNamed (payload : List Byte) (k : Nat) : Bool :=
  if k < 11 then (layerPresence payload).getLsbD k
  else if k = 11 then keyAction payload == 1
  else clipAction payload == 1

/-- The sizes of visible, kind, x, y, width, height, glyph, scale_h, scale_v, colour, opacity, key and clip (R141). -/
def layerFieldSize (k : Nat) : Nat := [1, 1, 2, 2, 2, 2, 1, 1, 1, 3, 1, 2, 8].getD k 0

/-- At least 3 bytes, and the length that the presence set implies (R148, R141). -/
def layerWriteLengthOk (payload : List Byte) : Bool :=
  decide (3 ≤ payload.length) && decide (payload.length = 3 + presentBytes (layerNamed payload) layerFieldSize 13)

/-- The value carried at position `k`, where named. -/
def layerField (payload : List Byte) (k : Nat) : Option Nat :=
  presentField payload 3 (layerNamed payload) layerFieldSize k

/-- Bit 15 set, or an action code of 3, makes the presence set invalid (R141). -/
def layerPresenceInvalid (payload : List Byte) : Bool :=
  (layerPresence payload).getLsbD 15 || keyAction payload == 3 || clipAction payload == 3

/-! ### The record that a LAYER_WRITE would give (R9, step 4) -/

/-- A layer record with its values as carried, before they are checked against R3. -/
structure RawRecord where
  visible : Nat
  kind : Nat
  x : Int
  y : Int
  width : Nat
  height : Nat
  glyph : Nat
  scaleH : Nat
  scaleV : Nat
  colour : Nat
  opacity : Nat
  key : Option Nat
  clip : Option Clip
  deriving DecidableEq, Repr

/-- The code of a layer record's visible field (R141). -/
def visibleCode (v : Bool) : Nat := if v then 1 else 0

/-- The code of a layer record's kind (R141). -/
def layerKindCode : LayerKind → Nat
  | .fill => 0
  | .glyph => 1

/-- A colour as its three bytes R, G, B (R141). -/
def colourNat (c : Colour) : Nat := beNat [c.r, c.g, c.b]

/-- The four coordinates of a clip from its eight bytes (R141). -/
def clipOfNat (n : Nat) : Clip := ⟨n / 2 ^ 48 % 65536, n / 2 ^ 32 % 65536, n / 2 ^ 16 % 65536, n % 65536⟩

/-- The resulting record of R9, step 4: the PENDING record with each present field replaced and the optional parts set,
removed or left. -/
def resultingRecord (old : LayerRecord) (payload : List Byte) : RawRecord :=
  { visible := (layerField payload 0).getD (visibleCode old.visible)
    kind := (layerField payload 1).getD (layerKindCode old.kind)
    x := ((layerField payload 2).map signed16).getD old.x
    y := ((layerField payload 3).map signed16).getD old.y
    width := (layerField payload 4).getD old.width
    height := (layerField payload 5).getD old.height
    glyph := (layerField payload 6).getD old.glyph.val
    scaleH := (layerField payload 7).getD old.scaleH
    scaleV := (layerField payload 8).getD old.scaleV
    colour := (layerField payload 9).getD (colourNat old.colour)
    opacity := (layerField payload 10).getD old.opacity.toNat
    key := if keyAction payload = 2 then none
           else (layerField payload 11).orElse (fun _ => old.key.map BitVec.toNat)
    clip := if clipAction payload = 2 then none
            else ((layerField payload 12).map clipOfNat).orElse (fun _ => old.clip) }

/-- Whether an x or y lies in the range of R3. -/
def positionInRange (v : Int) : Bool := decide (-2048 ≤ v) && decide (v ≤ 2047)

/-- Whether a clip lies in the range of R3 (R9, step 4). -/
def clipInRange (c : Clip) : Bool :=
  decide (c.x1 ≤ 2047) && decide (c.y1 ≤ 2047) && decide (c.x0 ≤ c.x1) && decide (c.y0 ≤ c.y1)

/-- The first field outside the range of R3, in field-id order 3 to 15 (R9, step 4). The glyph, colour, opacity and key
fields take every value that their bytes can carry. -/
def firstBadField (r : RawRecord) : Option Nat :=
  if 1 < r.visible then some 3
  else if 1 < r.kind then some 4
  else if !positionInRange r.x then some 5
  else if !positionInRange r.y then some 6
  else if r.width < 1 || 2048 < r.width then some 7
  else if r.height < 1 || 2048 < r.height then some 8
  else if 255 < r.glyph then some 9
  else if r.scaleH < 1 || 4 < r.scaleH then some 10
  else if r.scaleV < 1 || 4 < r.scaleV then some 11
  else if !((r.clip.map clipInRange).getD true) then some 15
  else none

/-- A checked record as the table stores it. -/
def recordOfRaw (r : RawRecord) : LayerRecord :=
  { visible := r.visible == 1, kind := if r.kind = 1 then .glyph else .fill, x := r.x, y := r.y, width := r.width,
    height := r.height, glyph := glyphOf r.glyph, scaleH := r.scaleH, scaleV := r.scaleV,
    colour := ⟨BitVec.ofNat 8 (r.colour / 65536), BitVec.ofNat 8 (r.colour / 256), BitVec.ofNat 8 r.colour⟩,
    opacity := BitVec.ofNat 8 r.opacity, key := r.key.map (BitVec.ofNat 16), clip := r.clip }

/-! ## Replies (R140) -/

/-- The code of a status (R140). -/
def Status.code : Status → Nat
  | .ok => 0
  | .kind => 1
  | .length => 2
  | .field => 3
  | .notOwner => 4
  | .claimed => 5
  | .noGlyph => 6
  | .noSpace => 7
  | .inUse => 8
  | .offset => 9

/-- A FIELD reply carries the field id of the first bad field (R140). -/
def fieldAnswer (id : Nat) : Answer := ⟨.field, beBytes 1 id⟩

/-- A source id, or 0xFF for none (R140). -/
def sourceByte : Option SourceId → List Byte
  | none => [0xFF]
  | some src => beBytes 1 src.val

/-- An optional part: presence byte, then the value bytes, sent as 0 when absent (R140). -/
def optionalPart (n : Nat) : Option (List Byte) → List Byte
  | none => 0 :: List.replicate n 0
  | some v => 1 :: v

/-- A mask as two bytes (R140). -/
def maskBytes (m : Word) : List Byte := beBytes 2 m.toNat

/-- The code of a format (R139). -/
def formatCode : Format → Nat
  | .mono => 0
  | .gray4 => 1
  | .rgb16 => 2

/-- The format of a code, none for a code the table does not give (R139). -/
def formatOfCode (n : Nat) : Option Format :=
  if n = 0 then some .mono else if n = 1 then some .gray4 else if n = 2 then some .rgb16 else none

/-- The code of an entry state: 0 FREE, 1 LOADING, 2 READY (R140). -/
def entryStateCode : Option Glyph → Nat
  | none => 0
  | some g => match g.state with
    | .loading => 1
    | .ready => 2

/-- The code of a lock state (R140). -/
def lockCode : LockState → Nat
  | .hunt => 0
  | .frame => 1
  | .raw => 2
  | .gap => 3

/-- The code of the last fault kind (R174). -/
def faultCode : Option FaultKind → Nat
  | none => 0
  | some .lineIndex => 1
  | some .lineLength => 2
  | some .frameLength => 3
  | some .nestedStart => 4
  | some .geometry => 5
  | some .aborted => 6
  | some .unexpectedEnd => 7

/-- The value bytes of a clip (R141). -/
def clipBytes (c : Clip) : List Byte := beBytes 2 c.x0 ++ beBytes 2 c.y0 ++ beBytes 2 c.x1 ++ beBytes 2 c.y1

/-- The record image of 29 bytes (R142). -/
def recordImage (r : LayerRecord) : List Byte :=
  beBytes 1 (visibleCode r.visible) ++ beBytes 1 (layerKindCode r.kind) ++ beBytes 2 (unsigned16 r.x)
    ++ beBytes 2 (unsigned16 r.y) ++ beBytes 2 r.width ++ beBytes 2 r.height ++ beBytes 1 r.glyph.val
    ++ beBytes 1 r.scaleH ++ beBytes 1 r.scaleV ++ [r.colour.r, r.colour.g, r.colour.b] ++ [r.opacity]
    ++ optionalPart 2 (r.key.map maskBytes) ++ optionalPart 8 (r.clip.map clipBytes)

/-- The settings record in the order of the CONFIG_WRITE payload (R170). -/
def settingsBytes (st : Settings) : List Byte :=
  beBytes 2 st.lineBudget ++ beBytes 1 st.frameTimeout
    ++ beBytes 1 (match st.expiryAction with | .hide => 0 | .keep => 1)
    ++ sourceByte st.listener ++ beBytes 1 (if st.forcePass then 1 else 0)

/-- The identity and capacities of the IDENTIFY reply, 15 bytes (R172). -/
def identityBytes : List Byte :=
  beBytes 1 Config.vendorCode ++ beBytes 2 Config.partCode ++ beBytes 1 Config.siliconRevision ++ beBytes 1 16
    ++ beBytes 2 Config.glyphEntries ++ beBytes 2 Config.storeBlocks ++ beBytes 2 Config.blockSize ++ beBytes 1 8
    ++ beBytes 1 Config.inboundDepth ++ beBytes 1 Config.replyDepth ++ beBytes 1 Config.relayDepth

/-- The STATUS_READ snapshot (R174). -/
def statusBytes (s : State) : List Byte :=
  beBytes 1 (lockCode s.rx.lock) ++ beBytes 1 (faultCode s.rx.lastFault) ++ optionalPart 2 (s.rx.lastFrame.map maskBytes)
    ++ [s.sorter.address] ++ beBytes 1 s.layers.commits.length
    ++ s.layers.commits.flatMap (fun c => beBytes 1 c.source.val ++ maskBytes c.mask)
    ++ optionalPart 4 (s.layers.firstExpiry.map
        (fun f => beBytes 1 f.source.val ++ beBytes 1 f.layer.val ++ maskBytes f.frame))
    ++ s.status.counters.toList.flatMap (beBytes 4)

/-! ## Notices (R156) -/

/-- The commit-applied item, 7 bytes. -/
def commitItemBytes (i : CommitItem) : List Byte :=
  maskBytes i.tag ++ maskBytes i.frame ++ maskBytes i.mask ++ beBytes 1 i.overtaken

/-- The lease-expired item, 4 bytes. -/
def leaseItemBytes (i : LeaseItem) : List Byte := maskBytes i.mask ++ maskBytes i.frame

/-- The code of a loss cause (R156). -/
def causeCode : LossCause → Nat
  | .signal => 0
  | .watchdog => 1

/-- The LOCK item, 7 bytes. -/
def lockItemBytes (i : LockItem) : List Byte :=
  beBytes 1 (if i.locked then 1 else 0) ++ beBytes 1 i.losses
    ++ optionalPart 1 (i.cause.map (fun c => beBytes 1 (causeCode c))) ++ optionalPart 2 (i.frame.map maskBytes)

/-- The BUDGET item, 8 bytes. -/
def budgetItemBytes (i : BudgetItem) : List Byte :=
  maskBytes i.frame ++ beBytes 2 i.line ++ maskBytes i.mask ++ beBytes 2 i.skips

/-- The payload of a notice: the item set byte, then each item present in the order of R156. -/
def noticePayload (c : Context) : List Byte :=
  beBytes 1 ((if c.commitItem.isSome then 1 else 0) + (if c.leaseItem.isSome then 2 else 0)
      + (if c.lockItem.isSome then 4 else 0) + (if c.budgetItem.isSome then 8 else 0))
    ++ (c.commitItem.map commitItemBytes).getD [] ++ (c.leaseItem.map leaseItemBytes).getD []
    ++ (c.lockItem.map lockItemBytes).getD [] ++ (c.budgetItem.map budgetItemBytes).getD []

end Sys2Proof.Machine
end

