-- ==== Sys2Proof/Machine/Relay.lean ====
section
/-! DEFINITION. The return relay (R160 to R168): reception from downstream, the arbiter, and the send upstream. -/

namespace Sys2Proof.Machine

/-! ## The arbiter (R164) -/

/-- The arbiter's selection by the table of R164, for a lane that is FREE. -/
def selectNext (fifo : List Packet) (replies : List Queued) (last : Served) : Option Served :=
  match fifo, replies, last with
  | [], [], _ => none
  | _ :: _, [], _ => some .relay
  | [], _ :: _, _ => some .reply
  | _ :: _, _ :: _, .reply => some .relay
  | _ :: _, _ :: _, .relay => some .reply

/-- The head of the relay FIFO is removed and its send begins (R162, R163). -/
def sendRelayed (s : State) : State :=
  match s.relay.fifo with
  | [] => s
  | p :: rest =>
    { s with relay := { s.relay with fifo := rest, sending := some (.relayed p), lastServed := .relay } }

/-- The head of the reply queue is removed, which frees its place, and its send begins (R146, R163). -/
def sendReply (s : State) : State :=
  match s.agent.replies with
  | [] => s
  | q :: rest =>
    { s with agent := { s.agent with replies := rest },
             relay := { s.relay with sending := some (.own q), lastServed := .reply } }

/-- The arbiter selects when the lane is FREE and a queue holds a packet (R164). -/
def arbitrate (s : State) : State :=
  match s.relay.sending with
  | some _ => s
  | none =>
    match selectNext s.relay.fifo s.agent.replies s.relay.lastServed with
    | none => s
    | some .relay => sendRelayed s
    | some .reply => sendReply s

/-! ## Reception (R161, R162) -/

/-- The three checks of R161 on a whole received packet. -/
def returnPacketGood (p : Packet) : Bool :=
  decide (9 ≤ p.length) && packetByte p 0 == 0xC3#8 && packetByte p 1 == 0x5A#8
    && decide (packetLength p ≤ 240) && decide (p.length = packetLength p + 9) && packetCrcGood p

/-- A good packet offered to the relay FIFO (R162), with the arbiter's selection where the lane is FREE (R164). -/
def offerToFifo (p : Packet) (s : State) : State :=
  if s.relay.fifo.length < Config.relayDepth then
    arbitrate { s with relay := { s.relay with fifo := s.relay.fifo ++ [p] } }
  else bump .relayOverflow 1 s

/-- RETURN_PACKET_START (R161): the relay begins gathering a packet. A start that comes before the end of the packet in
reception begins afresh (log 17). -/
def execReturnPacketStart (s : State) : Host.Outcome State Fault Refusal :=
  .next { s with relay := { s.relay with receiving := some [] } }

/-- RETURN_PACKET_BYTE (R161): a byte joins the packet in reception; with none in reception it is no part of a packet
(log 17). -/
def execReturnPacketByte (b : Byte) (s : State) : Host.Outcome State Fault Refusal :=
  match s.relay.receiving with
  | none => .next s
  | some bytes => .next { s with relay := { s.relay with receiving := some (bytes ++ [b]) } }

/-- RETURN_PACKET_END (R161): the packet in reception is checked; a bad one is dropped and counted, a good one is offered
to the relay FIFO. -/
def execReturnPacketEnd (s : State) : Host.Outcome State Fault Refusal :=
  match s.relay.receiving with
  | none => .next s
  | some p =>
    let s1 := { s with relay := { s.relay with receiving := none } }
    .next (if returnPacketGood p then offerToFifo p s1 else bump .relayBadCrc 1 s1)

/-- RETURN_SIGNAL_LOSS (R161): a packet in reception is cut, dropped and counted; with none in reception nothing
changes. -/
def execReturnSignalLoss (s : State) : Host.Outcome State Fault Refusal :=
  match s.relay.receiving with
  | none => .next s
  | some _ => .next (bump .relayBadCrc 1 { s with relay := { s.relay with receiving := none } })

/-! ## The end of a send (R163, R165) -/

/-- The completion actions of R165: the note of the packet in sending clears a mark of its destination's context. -/
def completeSend (x : Sending) (s : State) : State :=
  match x with
  | .relayed _ => s
  | .own q =>
    if q.note then
      match q.cls with
      | .reply => s.modifyContext (packetSource q.packet) (fun c => { c with cachedQueued := false })
      | .notice => s.modifyContext (packetSource q.packet) (fun c => { c with noticeOutstanding := false })
    else s

/-- The packet that leaves on the return lane out. -/
def sentPacket : Sending → Packet
  | .relayed p => p
  | .own q => q.packet

/-- LANE_FREE (R163, R165): the send completes, the lane becomes FREE, and the arbiter selects again in the same action.
With nothing in sending there is no send to complete (log 1). -/
def execLaneFree (s : State) : Host.Outcome State Fault Refusal :=
  match s.relay.sending with
  | none => .next s
  | some x =>
    let s1 := completeSend x s
    .next (arbitrate { s1 with relay := { s1.relay with sending := none, lane := some (sentPacket x) } })

end Sys2Proof.Machine
end

