-- ==== Sys2Proof/Machine/Agent.lean ====
section
/-! DEFINITION. The request agent (R143 to R159): taking the head request, the checks before execution, duplicates,
a request's span from its taking to its reply, replies and source contexts, and the notice builder. -/

namespace Sys2Proof.Machine

/-! ## Places of the reply queue (R146, R147, R155) -/

/-- The places reserved: one for the reply of an addressed request in execution, none for a broadcast (R146, R149). -/
def reservedPlaces (s : State) : Nat :=
  match s.agent.busy with
  | none => 0
  | some (.taken p _) => if packetBroadcast p then 0 else 1
  | some (.load _) => 1
  | some (.acted _ _) => 1

/-- The free places: neither holding a packet nor reserved (R146). -/
def freePlaces (s : State) : Nat := Config.replyDepth - (s.agent.replies.length + reservedPlaces s)

/-- Whether a context holds a pending item (R154). -/
def hasItem (c : Context) : Bool :=
  c.commitItem.isSome || c.leaseItem.isSome || c.lockItem.isSome || c.budgetItem.isSome

/-- A source is eligible for a notice (R155). -/
def eligible (s : State) (src : SourceId) : Bool :=
  decide ((s.context src).state = .active) && hasItem (s.context src) && !(s.context src).noticeOutstanding

/-- The sources in the notice builder's turn: from the one after the last served, upward and round (R155). -/
def turn (s : State) : List SourceId := sourceIds.map (fun k => s.agent.lastServed + 1 + k)

/-- The source that the notice builder serves next (R155). -/
def nextServed (s : State) : Option SourceId := (turn s).find? (eligible s)

/-- The agent wants a place: it is IDLE and the head of the inbound request queue is not broadcast (R147). -/
def wantsPlace (s : State) : Bool :=
  match s.agent.busy, s.agent.inbound with
  | none, p :: _ => !packetBroadcast p
  | none, [] => false
  | some _, _ => false

/-- Whether the agent can reserve a place (R147, log 5): one is free, and either no source is eligible for a notice or the
notice builder has had its place first and left this one to the agent. -/
def canReserve (s : State) : Bool := decide (1 ≤ freePlaces s) && ((nextServed s).isNone || s.agent.granted)

/-- Whether the notice builder can take a place (R147, R155): one is free that is not left to the agent. -/
def canBuild (s : State) : Bool := decide ((if s.agent.granted && wantsPlace s then 1 else 0) < freePlaces s)

/-! ## Taking a request (R144) -/

/-- The head request taken, where the agent is IDLE, the head is one that the command executes, and it is broadcast or
finds a place; the state without it. -/
def takeHead (accepts : Packet → Bool) (s : State) : Option (Packet × State) :=
  match s.agent.busy, s.agent.inbound with
  | none, p :: rest =>
    if accepts p && (packetBroadcast p || canReserve s) then
      some (p, { s with agent := { s.agent with inbound := rest, granted := false } })
    else none
  | none, [] => none
  | some _, _ => none

/-! ## Replies and contexts (R151 to R153) -/

/-- The reply to a request, with the node address as it stands (R153). -/
def buildReply (s : State) (r : Request) (a : Answer) : Packet :=
  sealPacket s.sorter.address r.source r.seq kindReply ([r.kind, BitVec.ofNat 8 a.status.code] ++ a.data)

/-- A packet placed in the reply queue, behind every packet there (R146). -/
def enqueue (q : Queued) (s : State) : State := { s with agent := { s.agent with replies := s.agent.replies ++ [q] } }

/-- The note that a reply of a source is the copy of its cached reply, cleared (R152). -/
def dropCopyNote (src : SourceId) (q : Queued) : Queued :=
  if q.cls = .reply ∧ packetSource q.packet = src then { q with note := false } else q

/-- The packet in sending with its note changed. -/
def mapSending (f : Queued → Queued) : Sending → Sending
  | .relayed p => .relayed p
  | .own q => .own (f q)

/-- The notes of the reply queue and of the packet in sending changed. -/
def mapNotes (f : Queued → Queued) (s : State) : State :=
  { s with agent := { s.agent with replies := s.agent.replies.map f },
           relay := { s.relay with sending := s.relay.sending.map (mapSending f) } }

/-- The context of an executed request's source (R152). -/
def cacheReply (r : Request) (p : Packet) (c : Context) : Context :=
  { c with state := .active, lastSeq := some r.seq, cached := some p, cachedQueued := true }

/-- The reply of an executed request placed, and its source's context updated, in one action (R152); then the arbiter's
selection (R164). -/
def placeReply (r : Request) (a : Answer) (s : State) : State :=
  let p := buildReply s r a
  arbitrate ((enqueue ⟨p, .reply, true⟩ (mapNotes (dropCopyNote r.source) s)).modifyContext r.source (cacheReply r p))

/-- A KIND or LENGTH reply of the agent's own: no result data, not cached, no context changed (R148). -/
def placeUncached (r : Request) (st : Status) (s : State) : State :=
  arbitrate (enqueue ⟨buildReply s r ⟨st, []⟩, .reply, false⟩ s)

/-- A duplicate: an ACTIVE context whose last executed sequence is the request's (R151). -/
def isDuplicate (r : Request) (s : State) : Bool :=
  decide ((s.context r.source).state = .active) && decide ((s.context r.source).lastSeq = some r.seq)

/-- The cached reply of a duplicate placed again, unchanged, and its mark set (R151, R152); then the arbiter's selection
(R164). -/
def placeCopy (r : Request) (q : Packet) (s : State) : State :=
  arbitrate ((enqueue ⟨q, .reply, true⟩ s).modifyContext r.source (fun c => { c with cachedQueued := true }))

/-! ## The checks before execution (R148, R149, R151) -/

/-- The length check of a kind with one payload length (R148). -/
def lengthIs (n : Nat) (payload : List Byte) : Bool := decide (payload.length = n)

/-- The payload of a GLYPH_LOAD holds index, offset and 1 to 236 data bytes (R35, R148). -/
def glyphLoadLengthOk (payload : List Byte) : Bool := decide (5 ≤ payload.length) && decide (payload.length ≤ 240)

/-- The length check of each kind (R148). -/
def lengthChecks : List (Byte × (List Byte → Bool)) :=
  [(kindIdentify, lengthIs 0), (kindAssign, lengthIs 1), (kindStatusRead, lengthIs 1), (kindReset, lengthIs 1),
   (kindGlyphDelete, lengthIs 1), (kindGlyphQuery, lengthIs 1), (kindRelease, lengthIs 2), (kindLayerRead, lengthIs 2),
   (kindClaim, lengthIs 4), (kindCommit, lengthIs 4), (kindGlyphDefine, lengthIs 5), (kindGlyphLoad, glyphLoadLengthOk),
   (kindConfigWrite, configLengthOk), (kindLayerWrite, layerWriteLengthOk)]

/-- Whether a payload has a right length for its kind (R148). -/
def lengthOk (k : Byte) (payload : List Byte) : Bool :=
  ((lengthChecks.find? (fun c => c.1 == k)).map (fun c => c.2 payload)).getD false

/-- What the agent finds of a request as it takes it (R143, R148, R149, R151). -/
def judge (p : Packet) (s : State) : Judgement :=
  if packetBroadcast p then (if lengthOk (packetKind p) (packetPayload p) then .execute else .discarded)
  else if !requestKinds.contains (packetKind p) then .refused .kind
  else if !lengthOk (packetKind p) (packetPayload p) then .refused .length
  else if isDuplicate (requestOf p) s then
    .duplicate (if (s.context (packetSource p)).cachedQueued then none else (s.context (packetSource p)).cached)
  else .execute

/-! ## A request from its taking to its reply (R144, R145, R152)

The agent takes it, its own action is done, and its reply is placed; other events may fall between the three (log 28), but a
FRAME_START only before the first or after the last (R145; Requests.lean). -/

/-- The head request is taken, where the agent can take it and the command's row executes it. -/
def takeRequest (accepts : Packet → Bool) (s : State) : State :=
  match takeHead accepts s with
  | none => s
  | some (p, s1) => { s1 with agent := { s1.agent with busy := some (.taken p (judge p s1)) } }

/-- Execution completes: the agent is IDLE, and a place still reserved is released (R144). -/
def release (s : State) : State := { s with agent := { s.agent with busy := none } }

/-- The request's own action is complete, and its reply is to be placed. -/
def hold (r : Request) (due : DueReply) (s : State) : State := { s with agent := { s.agent with busy := some (.acted r due) } }

/-- What a request's own rule gives: the state it leaves and its answer. -/
abbrev Rule := Request → State → State × Answer

/-- A request executed by its own rule, in one action (R145). -/
def runRule (rule : Rule) (r : Request) (s : State) : State := hold r (.executed (rule r s).2) (rule r s).1

/-- The taken request's own action: it is executed; or, judged otherwise, discarded (R149, R151) or answered (R148, R151). -/
def actRequest (accepts : Packet → Bool) (execute : Packet → State → State) (s : State) : State :=
  match s.agent.busy with
  | none => s
  | some (.load _) => s
  | some (.acted _ _) => s
  | some (.taken p judgement) =>
    if accepts p then
      match judgement with
      | .execute => execute p s
      | .discarded => release s
      | .refused st => hold (requestOf p) (.refused st) s
      | .duplicate none => bump .reqDuplicate 1 (release s)
      | .duplicate (some q) => bump .reqDuplicate 1 (hold (requestOf p) (.copied q) s)
    else s

/-- A reply placed in the place reserved for it. -/
def placeDue (r : Request) (due : DueReply) (s : State) : State :=
  match due with
  | .executed a => placeReply r a s
  | .refused st => placeUncached r st s
  | .copied q => placeCopy r q s

/-- The reply that is due is placed, and the agent is IDLE (R144, R152). -/
def replyRequest (serves : Request → Bool) (s : State) : State :=
  match s.agent.busy with
  | none => s
  | some (.taken _ _) => s
  | some (.load _) => s
  | some (.acted r due) => if serves r then placeDue r due (release s) else s

/-- The agent's steps with a request that the command's row serves, so far; `castable` where a broadcast
of it is executed too. A step for which there is no such request, or no place, does not occur (log 1). -/
def requestStep (serves : Request → Bool) (castable : Bool) (execute : Packet → State → State) (upTo : Config.Extent)
    (s : State) : State :=
  let accepts := fun p => serves (requestOf p) && (castable || !packetBroadcast p)
  let s1 := takeRequest accepts s
  match upTo with
  | .taken => s1
  | .acted => actRequest accepts execute s1
  | .replied => replyRequest serves (actRequest accepts execute s1)

/-- How far the agent comes in the next command of its rows (log 28). -/
def nextExtent (s : State) : Config.Extent := s.extents.headD .replied

/-- The agent's steps in one command of its rows, as far as the sender has it come (log 28). -/
def commanded (steps : Config.Extent → State → State) (s : State) : State :=
  steps (nextExtent s) { s with extents := s.extents.tail }

/-- The agent's steps with an addressed kind. -/
def addressedStep (k : Byte) (rule : Rule) : Config.Extent → State → State :=
  requestStep (fun r => r.kind == k) false (fun p => runRule rule (requestOf p))

/-- The agent's steps with a kind that may also be broadcast, which is answered by no reply (R130, R149). -/
def eitherStep (serves : Request → Bool) (rule : Rule) (effect : Request → State → State) :
    Config.Extent → State → State :=
  requestStep serves true
    (fun p s => if packetBroadcast p then release (effect (requestOf p) s) else runRule rule (requestOf p) s)

/-! ## An unknown kind (R148) -/

/-- The agent's steps with a request whose kind byte is not a forward-lane request kind: none is executed (R148). -/
def unknownKindSteps : Config.Extent → State → State :=
  requestStep (fun r => !requestKinds.contains r.kind) false (fun _ s => s)

/-- UNKNOWN_KIND (R148): such a request is answered KIND. -/
def execUnknownKind (s : State) : Host.Outcome State Fault Refusal := .next (commanded unknownKindSteps s)

/-! ## The notice builder (R155, R156) -/

/-- The context after a notice has been built from it (R156). -/
def clearItems (c : Context) : Context :=
  { c with commitItem := none, leaseItem := none, lockItem := none, budgetItem := none,
           noticeOutstanding := true, noticeSeq := c.noticeSeq + 1 }

/-- The notice built from a source's context (R156). -/
def buildNotice (s : State) (src : SourceId) : Packet :=
  sealPacket s.sorter.address src (s.context src).noticeSeq kindNotice (noticePayload (s.context src))

/-- The one action that builds a notice for a source (R155, R156). Of two or more free places it leaves one to an agent that
wants it (R147). -/
def serve (src : SourceId) (s : State) : State :=
  let s1 := (enqueue ⟨buildNotice s src, .notice, true⟩ s).modifyContext src clearItems
  { s1 with agent := { s1.agent with lastServed := src, granted := wantsPlace s && decide (2 ≤ freePlaces s) } }

/-- NOTICE_BUILD (R147, R155, R156, R164): with an eligible source and a free place that is not left to the agent, the next
source in turn is served; else there is no notice to build (log 1). -/
def execNoticeBuild (s : State) : Host.Outcome State Fault Refusal :=
  match nextServed s with
  | none => .next s
  | some src => if canBuild s then .next (arbitrate (serve src s)) else .next s

end Sys2Proof.Machine
end

