-- ==== Sys2Proof/Machine/Drawing.lean ====
section
/-! DEFINITION. The drawing of a planned line (R60, R64 to R70): where the bytes of a glyph row stand, the blend, and the
composited value of a pixel. -/

namespace Sys2Proof.Machine

/-! ## Columns and rows of a glyph (R29, R55, R60) -/

/-- The byte of a row that holds the first bit of a glyph column (R60). -/
def columnByte (f : Format) (gx : Nat) : Nat :=
  match f with
  | .mono => gx / 8
  | .gray4 => gx / 2
  | .rgb16 => 2 * gx

/-- The byte of a row that holds the last bit of a glyph column (R60). -/
def columnLastByte (f : Format) (gx : Nat) : Nat :=
  match f with
  | .mono => gx / 8
  | .gray4 => gx / 2
  | .rgb16 => 2 * gx + 1

/-- The glyph column of an output column: floor((u − x)/scale_h) (R55). -/
def glyphColumn (u : Nat) (x : Int) (scaleH : Nat) : Nat := ((u : Int) - x).toNat / scaleH

/-- The store address of the first byte of a plan entry's glyph row (R29, R64). -/
def rowAddress (g : PlanGlyph) : Nat := g.firstBlock * Config.blockSize + g.row * g.stride

/-! ## Drawing (R64 to R70) -/

/-- The blend of one channel (R70). -/
def blendChannel (alpha : Nat) (src dst : Byte) : Byte :=
  BitVec.ofNat 8 ((alpha * src.toNat + (255 - alpha) * dst.toNat + 127) / 255)

/-- The blend of a source colour over the current value (R70). -/
def blend (alpha : Nat) (src dst : Colour) : Colour :=
  ⟨blendChannel alpha src.r dst.r, blendChannel alpha src.g dst.g, blendChannel alpha src.b dst.b⟩

/-- The 8:8:8 expansion of a 5:6:5 value (R69). -/
def expand565 (p : Nat) : Colour :=
  let r5 := p / 2048 % 32
  let g6 := p / 32 % 64
  let b5 := p % 32
  ⟨BitVec.ofNat 8 (r5 * 8 + r5 / 4), BitVec.ofNat 8 (g6 * 4 + g6 / 16), BitVec.ofNat 8 (b5 * 8 + b5 / 4)⟩

/-- The value that the line uses for a store address (R64). An address that the plan does not read is never asked for in
a state that a run reaches; the value there is a free one (log 20). -/
def fetchedValue (bytes : List FetchedByte) (a : Nat) : Byte :=
  ((bytes.find? (fun b => decide (b.addr = a))).map (·.value)).getD (Config.undefinedStoreByte 0 a)

/-- The source colour and effective alpha of a glyph pixel at a glyph column (R67, R68, R69). -/
def glyphSample (bytes : List FetchedByte) (e : PlanEntry) (g : PlanGlyph) (gx : Nat) : Colour × Nat :=
  let a := rowAddress g + columnByte g.format gx
  let v := (fetchedValue bytes a).toNat
  match g.format with
  | .mono => (e.colour, if v / 2 ^ (7 - gx % 8) % 2 = 1 then e.opacity.toNat else 0)
  | .gray4 =>
    let level := if gx % 2 = 0 then v / 16 else v % 16
    (e.colour, e.opacity.toNat * level / 15)
  | .rgb16 =>
    let p := v * 256 + (fetchedValue bytes (a + 1)).toNat
    (expand565 p, if g.key.map BitVec.toNat = some p then 0 else e.opacity.toNat)

/-- The source colour and effective alpha of a plan entry at column `u` (R66 to R69). -/
def entrySample (bytes : List FetchedByte) (u : Nat) (e : PlanEntry) : Colour × Nat :=
  match e.glyph with
  | none => (e.colour, e.opacity.toNat)
  | some g => glyphSample bytes e g (glyphColumn u e.x g.scaleH)

/-- Whether a plan entry's columns include `u`. -/
def coversColumn (u : Nat) (e : PlanEntry) : Bool := decide (e.left ≤ u) && decide (u ≤ e.right)

/-- One entry of the plan drawn over the current value (R65). -/
def drawEntry (bytes : List FetchedByte) (u : Nat) (d : Colour) (e : PlanEntry) : Colour :=
  if coversColumn u e then blend (entrySample bytes u e).2 (entrySample bytes u e).1 d else d

/-- The composited value of pixel `u` (R65): the entries in ascending layer order over the received pixel. -/
def compositePixel (p : Plan) (u : Nat) (d : Colour) : Colour := p.entries.foldl (drawEntry p.bytes u) d

/-- A colour as its three bytes on the lane. -/
def colourBytes (c : Colour) : List Byte := [c.r, c.g, c.b]

/-- The pixel of three bytes. -/
def colourOfBytes (bs : List Byte) : Colour := ⟨bs.getD 0 0, bs.getD 1 0, bs.getD 2 0⟩

/-- The composited value of pixel `u` of a line, as bytes, from the bytes received of the line (R65). -/
def pixelBytes (p : Plan) (received : List Byte) (u : Nat) : List Byte :=
  colourBytes (compositePixel p u (colourOfBytes (received.drop (3 * u))))

/-- The composited values of the first `k` pixels of a line (R65, R72). -/
def drawnBytes (p : Plan) (received : List Byte) (k : Nat) : List Byte := (List.range k).flatMap (pixelBytes p received)

end Sys2Proof.Machine
end

