-- ==== Sys2Proof/Machine/Glyphs.lean ====
section
/-! DEFINITION. The glyph directory and the glyph store (R26 to R49): the arithmetic of formats, the block map, the store
summary, taking and freeing entries, and the two parts of a load. -/

namespace Sys2Proof.Machine

/-! ## Formats (R28, R29) -/

/-- Bits per glyph pixel (R28). -/
def bitsPerPixel : Format → Nat
  | .mono => 1
  | .gray4 => 4
  | .rgb16 => 16

/-- The stride of R29: ceil(width·bpp/8). -/
def strideOf (f : Format) (width : Nat) : Nat := (width * bitsPerPixel f + 7) / 8

/-- The size of R29: stride·height. -/
def sizeOfGlyph (f : Format) (width height : Nat) : Nat := strideOf f width * height

/-- The block count of R29: ceil(size/256). -/
def blocksOf (size : Nat) : Nat := (size + 255) / 256

/-! ## The block map (R30, R31, R33) -/

/-- The number of free blocks (R31). -/
def freeBlocks (g : GlyphStore) : Nat := g.blockMap.toList.countP Option.isNone

/-- The longest sequence of free items, with the length of the one that is running and the longest so far. -/
def longestRun : Nat → Nat → List (Option GlyphId) → Nat
  | _, best, [] => best
  | run, best, none :: rest => longestRun (run + 1) (max best (run + 1)) rest
  | _, best, some _ :: rest => longestRun 0 best rest

/-- The largest free run (R31). -/
def largestRun (g : GlyphStore) : Nat := longestRun 0 0 g.blockMap.toList

/-- The number of FREE entries (R31). -/
def freeEntries (g : GlyphStore) : Nat := g.entries.toList.countP Option.isNone

/-- The store summary as reply bytes: free blocks, largest free run, free entries (R31, R140). -/
def summaryBytes (g : GlyphStore) : List Byte :=
  beBytes 2 (freeBlocks g) ++ beBytes 2 (largestRun g) ++ beBytes 2 (freeEntries g)

/-- Whether `n` free items stand at the front of a list. -/
def freeFront : Nat → List (Option GlyphId) → Bool
  | 0, _ => true
  | _ + 1, [] => false
  | n + 1, none :: rest => freeFront n rest
  | _ + 1, some _ :: _ => false

/-- First fit (R33): the lowest block from which `n` consecutive blocks are free; `k` is the number of the list's first. -/
def firstFit (n : Nat) : Nat → List (Option GlyphId) → Option Nat
  | k, [] => if n = 0 then some k else none
  | k, b :: rest => if freeFront n (b :: rest) then some k else firstFit n (k + 1) rest

/-- The lowest-numbered FREE entry (R33). -/
def lowestFree (g : GlyphStore) : Option GlyphId := (g.entries.toList.findIdx? Option.isNone).map glyphOf

/-- A run of items replaced. -/
def setRun (v : Option GlyphId) : Nat → Nat → List (Option GlyphId) → List (Option GlyphId)
  | _, _, [] => []
  | 0, 0, bs => bs
  | 0, n + 1, _ :: rest => v :: setRun v 0 n rest
  | k + 1, n, b :: rest => b :: setRun v k n rest

theorem setRun_length (v : Option GlyphId) (k n : Nat) (bs : List (Option GlyphId)) :
    (setRun v k n bs).length = bs.length := by
  induction bs generalizing k n with
  | nil => cases k <;> cases n <;> rfl
  | cons b rest ih => cases k <;> cases n <;> simp [setRun, ih]

/-- The blocks of a run marked in the block map (R30, R34, R39). -/
def markRun (v : Option GlyphId) (first count : Nat) (m : Vector (Option GlyphId) 512) : Vector (Option GlyphId) 512 :=
  ⟨⟨setRun v first count m.toList⟩, by simp [setRun_length]⟩

/-! ## Directory actions -/

/-- The entry that a GLYPH_DEFINE takes (R34). -/
def newGlyph (src : SourceId) (f : Format) (width height first : Nat) : Glyph :=
  { state := .loading, owner := src, format := f, width := width, height := height, stride := strideOf f width,
    size := sizeOfGlyph f width height, firstBlock := first, blockCount := blocksOf (sizeOfGlyph f width height),
    loaded := 0, refs := 0 }

/-- The one directory action that completes a GLYPH_DEFINE (R34). -/
def takeEntry (e : GlyphId) (g : Glyph) (s : State) : State :=
  { s with glyphs := { s.glyphs with
      entries := modifyVec s.glyphs.entries e (fun _ => some g)
      blockMap := markRun (some e) g.firstBlock g.blockCount s.glyphs.blockMap } }

/-- The one directory action that completes a GLYPH_DELETE; the store bytes stay (R39). -/
def freeEntry (e : GlyphId) (g : Glyph) (s : State) : State :=
  { s with glyphs := { s.glyphs with
      entries := modifyVec s.glyphs.entries e (fun _ => none)
      blockMap := markRun none g.firstBlock g.blockCount s.glyphs.blockMap } }

/-- Every entry FREE and every block free; the store bytes stay (R49). -/
def resetDirectory (s : State) : State :=
  { s with glyphs := { s.glyphs with entries := GlyphStore.reset.entries, blockMap := GlyphStore.reset.blockMap } }

/-! ## The two parts of a GLYPH_LOAD (R36, R37, R38) -/

/-- The entry after the directory update of a load of `n` bytes at an offset (R36, R37). -/
def loadedGlyph (offset n : Nat) (g : Glyph) : Glyph :=
  match g.state with
  | .loading =>
    { g with loaded := offset + n, state := if offset + n = g.size then .ready else .loading }
  | .ready => g

/-- The byte that a load brings to a store address while its writes go on from `written` to `n` data bytes, where they reach
that address. -/
def newByte (run : LoadRun) (n a : Nat) : Option Byte :=
  if run.base + run.written ≤ a ∧ a < run.base + n then run.data[a - run.base]? else none

/-- A byte of the line in progress is read before its write or after it (R46, log 10). -/
def refetch (draw : Nat) (run : LoadRun) (n : Nat) (b : FetchedByte) : FetchedByte :=
  match newByte run n b.addr with
  | none => b
  | some v => if Config.readSeesWrite draw b.addr then { b with value := v } else b

/-- The line in progress where some of its bytes turn out to be read later: the pixels that it has by now are drawn from them as
they are then read (R64, R72, log 10). -/
def rereadLine (reread : FetchedByte → FetchedByte) (c : Compositor) : Compositor :=
  match c.plan with
  | none => c
  | some p =>
    let q := { p with bytes := p.bytes.map reread }
    { c with
      plan := some q
      arriving := c.arriving.map (fun a => { a with composited := drawnBytes q a.received (a.composited.length / 3) }) }

/-- The load's writes go on to its first `n` data bytes, each written once, in ascending order (R38); the bytes of a planned line
are read before or after, up to its hand-over (R46, R64, logs 9 and 10). -/
def writeLoadTo (n : Nat) (run : LoadRun) (s : State) : State :=
  let fresh := (run.data.drop run.written).take (n - run.written)
  { s with
    glyphs := { s.glyphs with bytes := Memory.writeSpan (run.base + run.written) fresh s.glyphs.bytes }
    agent := { s.agent with busy := some (.load { run with written := n }) }
    comp := rereadLine (refetch s.freeDraws run n) s.comp
    freeDraws := s.freeDraws + 1 }

/-- How far the writes of a load have come: any number of data bytes from those written to all (log 9). -/
def loadProgress (draw : Nat) (run : LoadRun) : Nat :=
  run.written + min (Config.loadAdvance draw) (run.data.length - run.written)

/-- The store as the compositor finds it while a load may be in execution: the load's writes have gone on freely (R38,
log 9). A load that would pass the end of the store writes nothing (log 19). -/
def advanceLoad (s : State) : State :=
  match s.agent.busy with
  | none => s
  | some (.taken _ _) => s
  | some (.acted _ _) => s
  | some (.load run) =>
    if Config.storeBytes < run.base + run.data.length then s else writeLoadTo (loadProgress s.freeDraws run) run s

end Sys2Proof.Machine
end

