-- ==== Sys2Proof/Machine/GlyphRequests.lean ====
section
/-! DEFINITION. The requests of the glyph directory: GLYPH_DEFINE, GLYPH_LOAD and its completion, GLYPH_DELETE and
GLYPH_QUERY. -/

namespace Sys2Proof.Machine

/-! ## GLYPH_DEFINE (R32 to R34) -/

/-- The result data of NO_SPACE (R33). -/
def noSpaceBytes (reason blocks : Nat) (g : GlyphStore) : List Byte :=
  beBytes 1 reason ++ beBytes 2 blocks ++ summaryBytes g

/-- A GLYPH_DEFINE that passed the field checks: it takes an entry and a run, or is answered NO_SPACE (R33, R34). -/
def defineGlyph (src : SourceId) (f : Format) (width height : Nat) (s : State) : State × Answer :=
  let blocks := blocksOf (sizeOfGlyph f width height)
  match lowestFree s.glyphs with
  | none => (s, ⟨.noSpace, noSpaceBytes 0 blocks s.glyphs⟩)
  | some e =>
    match firstFit blocks 0 s.glyphs.blockMap.toList with
    | none => (s, ⟨.noSpace, noSpaceBytes 1 blocks s.glyphs⟩)
    | some first =>
      let g := newGlyph src f width height first
      (takeEntry e g s,
       ⟨.ok, beBytes 1 e.val ++ beBytes 2 g.stride ++ beBytes 3 g.size ++ beBytes 2 first ++ beBytes 2 blocks⟩)

/-- GLYPH_DEFINE's own rule: the checks of R32 in order. -/
def glyphDefineRule (r : Request) (s : State) : State × Answer :=
  let width := field r.payload 1 2
  let height := field r.payload 3 2
  match formatOfCode (field r.payload 0 1) with
  | none => (s, fieldAnswer 1)
  | some f =>
    if width = 0 ∨ 1024 < width then (s, fieldAnswer 2)
    else if height = 0 ∨ 1024 < height then (s, fieldAnswer 3)
    else if Config.storeBytes < sizeOfGlyph f width height then (s, fieldAnswer 3)
    else defineGlyph r.source f width height s

/-- The agent's steps with a GLYPH_DEFINE. -/
def glyphDefineSteps : Config.Extent → State → State := addressedStep kindGlyphDefine glyphDefineRule

/-- GLYPH_DEFINE. -/
def execGlyphDefine (s : State) : Host.Outcome State Fault Refusal := .next (commanded glyphDefineSteps s)

/-! ## GLYPH_LOAD (R35 to R38) -/

/-- The entry index of a GLYPH_LOAD. -/
def loadIndex (r : Request) : GlyphId := glyphOf (field r.payload 0 1)

/-- The offset of a GLYPH_LOAD. -/
def loadOffset (r : Request) : Nat := field r.payload 1 3

/-- The data bytes of a GLYPH_LOAD. -/
def loadData (r : Request) : List Byte := r.payload.drop 4

/-- The checks of R35 in order: the answer that refuses the load, or the entry it may write. -/
def loadCheck (r : Request) (s : State) : Answer ⊕ Glyph :=
  let index := beBytes 1 (loadIndex r).val
  match s.entry (loadIndex r) with
  | none => .inl ⟨.noGlyph, index⟩
  | some g =>
    if g.owner ≠ r.source then .inl ⟨.notOwner, index ++ sourceByte (some g.owner)⟩
    else if g.state = .loading ∧ loadOffset r ≠ g.loaded then .inl ⟨.offset, index ++ beBytes 3 g.loaded⟩
    else if g.size < loadOffset r + (loadData r).length then
      .inl ⟨.length, index ++ beBytes 3 g.size ++ beBytes 3 g.loaded⟩
    else .inr g

/-- The load that a passing GLYPH_LOAD starts: its bytes stand from the entry's first byte plus the offset (R29, R36). -/
def loadRun (r : Request) (g : Glyph) : LoadRun :=
  { source := r.source, seq := r.seq, index := loadIndex r, offset := loadOffset r, data := loadData r,
    base := g.firstBlock * Config.blockSize + loadOffset r, written := 0 }

/-- A taken GLYPH_LOAD executed (R35): refused by its checks, or started, when the agent stays BUSY with it. -/
def startLoad (r : Request) (s : State) : State :=
  match loadCheck r s with
  | .inl a => hold r (.executed a) s
  | .inr g => { s with agent := { s.agent with busy := some (.load (loadRun r g)) } }

/-- Whether a request is a GLYPH_LOAD. -/
def isGlyphLoad (r : Request) : Bool := r.kind == kindGlyphLoad

/-- The agent's steps with a GLYPH_LOAD, as far as the start of its writes. -/
def glyphLoadSteps : Config.Extent → State → State := requestStep isGlyphLoad false (fun p => startLoad (requestOf p))

/-- GLYPH_LOAD. -/
def execGlyphLoad (s : State) : Host.Outcome State Fault Refusal := .next (commanded glyphLoadSteps s)

/-- The request that a load in execution answers. -/
def runRequest (run : LoadRun) : Request := ⟨run.source, run.seq, kindGlyphLoad, []⟩

/-- The OK answer of a load: index, loaded count and state after it (R35). -/
def loadAnswer (index : GlyphId) (g : Option Glyph) : Answer :=
  ⟨.ok, beBytes 1 index.val ++ beBytes 3 ((g.map (·.loaded)).getD 0) ++ beBytes 1 (entryStateCode g)⟩

/-- The end of a load: its last data byte is written, and the directory is updated in one action (R38); the reply is to be
placed. -/
def updateLoad (run : LoadRun) (s : State) : State :=
  let s1 := (writeLoadTo run.data.length run s).modifyEntry run.index (Option.map (loadedGlyph run.offset run.data.length))
  hold (runRequest run) (.executed (loadAnswer run.index (s1.entry run.index))) s1

/-- The agent's steps at the end of a load (R38, R152). With no load in execution there is none to end (log 1). -/
def completeLoad (upTo : Config.Extent) (s : State) : State :=
  let s1 := match s.agent.busy with
    | none => s
    | some (.taken _ _) => s
    | some (.acted _ _) => s
    | some (.load run) => updateLoad run s
  match upTo with
  | .taken => s
  | .acted => s1
  | .replied => replyRequest isGlyphLoad s1

/-- The first address outside the store that a load in execution would write, where it passes the end (log 19). -/
def loadFault (s : State) : Option Nat :=
  match s.agent.busy with
  | none => none
  | some (.taken _ _) => none
  | some (.acted _ _) => none
  | some (.load run) =>
    if Config.storeBytes < run.base + run.data.length then some (run.base + run.data.length - 1) else none

/-- GLYPH_LOAD_COMPLETE (R38): a load that would pass the end of the store faults (log 19). -/
def execGlyphLoadComplete (s : State) : Host.Outcome State Fault Refusal :=
  match loadFault s with
  | some a => .fault (.storeAddress a)
  | none => .next (commanded completeLoad s)

/-! ## GLYPH_DELETE (R39) -/

/-- GLYPH_DELETE's own rule. -/
def glyphDeleteRule (r : Request) (s : State) : State × Answer :=
  let e := glyphOf (field r.payload 0 1)
  let index := beBytes 1 e.val
  match s.entry e with
  | none => (s, ⟨.noGlyph, index⟩)
  | some g =>
    if g.owner ≠ r.source then (s, ⟨.notOwner, index ++ sourceByte (some g.owner)⟩)
    else if 0 < g.refs then (s, ⟨.inUse, index ++ beBytes 1 g.refs⟩)
    else
      let s1 := freeEntry e g s
      (s1, ⟨.ok, index ++ beBytes 2 g.firstBlock ++ beBytes 2 g.blockCount ++ summaryBytes s1.glyphs⟩)

/-- The agent's steps with a GLYPH_DELETE. -/
def glyphDeleteSteps : Config.Extent → State → State := addressedStep kindGlyphDelete glyphDeleteRule

/-- GLYPH_DELETE. -/
def execGlyphDelete (s : State) : Host.Outcome State Fault Refusal := .next (commanded glyphDeleteSteps s)

/-! ## GLYPH_QUERY (R41) -/

/-- The result data of GLYPH_QUERY (R41); a FREE entry is sent with the FREE values of R26, and the first block is sent
as an optional part (R26 note 3, log 18). -/
def queryBytes (e : GlyphId) (g : Option Glyph) (store : GlyphStore) : List Byte :=
  beBytes 1 e.val ++ beBytes 1 (entryStateCode g) ++ sourceByte (g.map (·.owner))
    ++ (match g with | none => [0xFF#8] | some g => beBytes 1 (formatCode g.format))
    ++ beBytes 2 ((g.map (·.width)).getD 0) ++ beBytes 2 ((g.map (·.height)).getD 0)
    ++ beBytes 2 ((g.map (·.stride)).getD 0) ++ beBytes 3 ((g.map (·.size)).getD 0)
    ++ optionalPart 2 (g.map (fun g => beBytes 2 g.firstBlock)) ++ beBytes 2 ((g.map (·.blockCount)).getD 0)
    ++ beBytes 3 ((g.map (·.loaded)).getD 0) ++ beBytes 1 ((g.map (·.refs)).getD 0) ++ summaryBytes store

/-- GLYPH_QUERY's own rule: OK for every index (R41). -/
def glyphQueryRule (r : Request) (s : State) : State × Answer :=
  let e := glyphOf (field r.payload 0 1)
  (s, ⟨.ok, queryBytes e (s.entry e) s.glyphs⟩)

/-- The agent's steps with a GLYPH_QUERY. -/
def glyphQuerySteps : Config.Extent → State → State := addressedStep kindGlyphQuery glyphQueryRule

/-- GLYPH_QUERY. -/
def execGlyphQuery (s : State) : Host.Outcome State Fault Refusal := .next (commanded glyphQuerySteps s)

end Sys2Proof.Machine
end

