-- ==== Sys2Proof/Machine/Layers.lean ====
section
/-! DEFINITION. The layer table (R2 to R25, R78 to R92): records and their reference counts, ownership and leases, the
commit list, and the work at FRAME_START. -/

namespace Sys2Proof.Machine

/-! ## Records and the reference counts they hold (R7, R43) -/

/-- The entry to whose count a record contributes (R7). -/
def contribution (r : LayerRecord) : Option GlyphId :=
  match r.kind with
  | .fill => none
  | .glyph => some r.glyph

/-- An entry's count raised by a contribution. -/
def addRef (e : Option GlyphId) (s : State) : State :=
  match e with
  | none => s
  | some e => s.modifyEntry e (Option.map (fun g => { g with refs := g.refs + 1 }))

/-- An entry's count lowered by a contribution removed. -/
def dropRef (e : Option GlyphId) (s : State) : State :=
  match e with
  | none => s
  | some e => s.modifyEntry e (Option.map (fun g => { g with refs := g.refs - 1 }))

/-- The directory's adjustment when a record is replaced (R7): none where both records name the same entry. -/
def adjustRefs (old new : LayerRecord) (s : State) : State :=
  if contribution old = contribution new then s else addRef (contribution new) (dropRef (contribution old) s)

/-- A PENDING record replaced, with its reference counts, in one action (R7, R10). -/
def replacePending (l : LayerId) (r : LayerRecord) (s : State) : State :=
  let s1 := adjustRefs (s.pendingRecord l) r s
  { s1 with layers := { s1.layers with pendingBank := modifyVec s1.layers.pendingBank l (fun _ => r) } }

/-- An ACTIVE record replaced, with its reference counts, in one action (R7, R18). -/
def replaceActive (l : LayerId) (r : LayerRecord) (s : State) : State :=
  let s1 := adjustRefs (s.activeRecord l) r s
  { s1 with layers := { s1.layers with activeBank := modifyVec s1.layers.activeBank l (fun _ => r) } }

/-! ## Leases (R83 to R88) -/

/-- A renewal: the remaining lease is set back to the lease length (R83). -/
def renew (l : LayerId) (s : State) : State :=
  s.setOwnership l { s.ownership l with remaining := (s.ownership l).length }

/-- The HIDE action: visible = no in both banks; the reference counts stay (R85, R7). -/
def hideLayer (l : LayerId) (s : State) : State :=
  { s with layers := { s.layers with
      pendingBank := modifyVec s.layers.pendingBank l (fun r => { r with visible := false })
      activeBank := modifyVec s.layers.activeBank l (fun r => { r with visible := false }) } }

/-- The first-expiry record is written only where it is empty (R88). -/
def recordFirstExpiry (src : SourceId) (l : LayerId) (frame : Word) (s : State) : State :=
  match s.layers.firstExpiry with
  | none => { s with layers := { s.layers with firstExpiry := some ⟨src, l, frame⟩ } }
  | some _ => s

/-- The expiry of a layer that `src` owns, at the FRAME_START with this frame number (R85). -/
def expireLayer (action : ExpiryAction) (src : SourceId) (l : LayerId) (frame : Word) (s : State) : State :=
  let s1 := s.setOwnership l Ownership.unowned
  let s2 := match action with
    | .hide => hideLayer l s1
    | .keep => s1
  recordFirstExpiry src l frame (markLeaseExpired src l frame s2)

/-- The countdown of one layer (R84): unowned layers stay; a remaining lease of 1 expires. -/
def countdownLayer (action : ExpiryAction) (frame : Word) (s : State) (l : LayerId) : State :=
  match (s.ownership l).owner with
  | none => s
  | some src =>
    if (s.ownership l).remaining = 1 then expireLayer action src l frame s
    else s.setOwnership l { s.ownership l with remaining := (s.ownership l).remaining - 1 }

/-- Step 1 of the FRAME_START: the countdown of every layer, lowest first (R84, R88), with the expiry action read once
(R86). -/
def countdown (frame : Word) (s : State) : State :=
  layerIds.foldl (countdownLayer s.status.settings.expiryAction frame) s

/-! ## Commits (R13 to R19) -/

/-- A commit armed: a new entry at the end, or the source's entry replaced in place (R13, R14). -/
def armCommit (c : CommitEntry) : List CommitEntry → List CommitEntry
  | [] => [c]
  | e :: rest => if e.source = c.source then c :: rest else e :: armCommit c rest

/-- The tag of the entry that a source already has (R14). -/
def armedTag (src : SourceId) (commits : List CommitEntry) : Option Word :=
  (commits.find? (fun e => decide (e.source = src))).map (·.tag)

/-- The commit list changed by an arming. -/
def arm (c : CommitEntry) (s : State) : State :=
  { s with layers := { s.layers with commits := armCommit c s.layers.commits } }

/-- The copy of one layer from PENDING to ACTIVE (R18). -/
def copyLayer (s : State) (l : LayerId) : State := replaceActive l (s.pendingRecord l) s

/-- The applied mask of a commit-list entry (R18). -/
def appliedMask (c : CommitEntry) (s : State) : Word := c.mask &&& s.ownedMask c.source

/-- The copy for one commit-list entry and the mark of its item (R18, R19). -/
def copyEntry (frame : Word) (s : State) (c : CommitEntry) : State :=
  let applied := appliedMask c s
  markCommitApplied c.source c.tag frame applied ((layerIds.filter (namesLayer applied)).foldl copyLayer s)

/-- Step 2 of the FRAME_START: the copies in list order (R17). -/
def copies (frame : Word) (s : State) : State := s.layers.commits.foldl (copyEntry frame) s

/-- The layer table's work at a FRAME_START: countdown, copies, then the commit list is emptied (R17). -/
def frameStartLayers (frame : Word) (s : State) : State :=
  let s1 := copies frame (countdown frame s)
  { s1 with layers := { s1.layers with commits := [] } }

/-! ## Reset (R24) -/

/-- Both banks, ownership and commit list at their defaults; the first-expiry record stays (R24). -/
def resetLayerTable (s : State) : State :=
  { s with layers := { LayerTable.reset with firstExpiry := s.layers.firstExpiry } }

end Sys2Proof.Machine
end

