-- ==== Sys2Proof/Machine/LayerRequests.lean ====
section
/-! DEFINITION. The requests of the layer table: CLAIM, RELEASE, LAYER_WRITE, LAYER_READ and COMMIT. -/

namespace Sys2Proof.Machine

/-! ## CLAIM (R80, R81) -/

/-- Every layer of a mask owned by the source with the given lease (R81). -/
def claimLayers (src : SourceId) (mask : Word) (lease : Nat) (s : State) : State :=
  (layerIds.filter (namesLayer mask)).foldl (fun s l => s.setOwnership l ⟨some src, lease, lease⟩) s

/-- CLAIM's own rule (R80, R81). -/
def claimRule (r : Request) (s : State) : State × Answer :=
  let mask := BitVec.ofNat 16 (field r.payload 0 2)
  let lease := field r.payload 2 2
  let mine := s.ownedMask r.source
  let conflict := mask &&& (s.takenMask &&& ~~~mine)
  if mask = 0 then (s, fieldAnswer 1)
  else if lease = 0 ∨ 4095 < lease then (s, fieldAnswer 2)
  else if conflict ≠ 0 then (s, ⟨.claimed, maskBytes conflict⟩)
  else (claimLayers r.source mask lease s,
        ⟨.ok, maskBytes mask ++ maskBytes (mask &&& ~~~mine) ++ maskBytes (mask &&& mine) ++ beBytes 2 lease⟩)

/-- The agent's steps with a CLAIM. -/
def claimSteps : Config.Extent → State → State := addressedStep kindClaim claimRule

/-- CLAIM. -/
def execClaim (s : State) : Host.Outcome State Fault Refusal := .next (commanded claimSteps s)

/-! ## RELEASE (R82) -/

/-- The layers of a mask become unowned (R82). -/
def releaseLayers (mask : Word) (s : State) : State :=
  (layerIds.filter (namesLayer mask)).foldl (fun s l => s.setOwnership l Ownership.unowned) s

/-- RELEASE's own rule (R82). -/
def releaseRule (r : Request) (s : State) : State × Answer :=
  let mask := BitVec.ofNat 16 (field r.payload 0 2)
  let mine := s.ownedMask r.source
  if mask = 0 then (s, fieldAnswer 1)
  else (releaseLayers (mask &&& mine) s, ⟨.ok, maskBytes (mask &&& mine) ++ maskBytes (mask &&& ~~~mine)⟩)

/-- The agent's steps with a RELEASE. -/
def releaseSteps : Config.Extent → State → State := addressedStep kindRelease releaseRule

/-- RELEASE. -/
def execRelease (s : State) : Host.Outcome State Fault Refusal := .next (commanded releaseSteps s)

/-! ## LAYER_WRITE (R8 to R10) -/

/-- LAYER_WRITE's own rule: the checks of R9 in order, then the action of R10. -/
def layerWriteRule (r : Request) (s : State) : State × Answer :=
  match layerOf (field r.payload 0 1) with
  | none => (s, fieldAnswer 1)
  | some l =>
    if layerPresenceInvalid r.payload then (s, fieldAnswer 2)
    else if (s.ownership l).owner ≠ some r.source then
      (s, ⟨.notOwner, beBytes 1 l.val ++ sourceByte (s.ownership l).owner⟩)
    else
      let raw := resultingRecord (s.pendingRecord l) r.payload
      match firstBadField raw with
      | some f => (s, fieldAnswer f)
      | none =>
        let record := recordOfRaw raw
        if record.kind = .glyph ∧ s.entry record.glyph = none then
          (s, ⟨.noGlyph, beBytes 1 l.val ++ beBytes 1 record.glyph.val⟩)
        else
          (renew l (replacePending l record s),
           ⟨.ok, beBytes 1 l.val ++ beBytes 2 (s.ownership l).length⟩)

/-- The agent's steps with a LAYER_WRITE. -/
def layerWriteSteps : Config.Extent → State → State := addressedStep kindLayerWrite layerWriteRule

/-- LAYER_WRITE. -/
def execLayerWrite (s : State) : Host.Outcome State Fault Refusal := .next (commanded layerWriteSteps s)

/-! ## LAYER_READ (R12) -/

/-- The result data of LAYER_READ, 36 bytes (R142). -/
def layerReadBytes (bank : Nat) (l : LayerId) (record : LayerRecord) (o : Ownership) : List Byte :=
  beBytes 1 bank ++ beBytes 1 l.val ++ recordImage record ++ sourceByte o.owner ++ beBytes 2 o.length
    ++ beBytes 2 o.remaining

/-- LAYER_READ's own rule (R12): the bank is checked first. -/
def layerReadRule (r : Request) (s : State) : State × Answer :=
  let bank := field r.payload 0 1
  if 1 < bank then (s, fieldAnswer 1)
  else match layerOf (field r.payload 1 1) with
    | none => (s, fieldAnswer 2)
    | some l =>
      let record := if bank = 0 then s.pendingRecord l else s.activeRecord l
      (s, ⟨.ok, layerReadBytes bank l record (s.ownership l)⟩)

/-- The agent's steps with a LAYER_READ. -/
def layerReadSteps : Config.Extent → State → State := addressedStep kindLayerRead layerReadRule

/-- LAYER_READ. -/
def execLayerRead (s : State) : Host.Outcome State Fault Refusal := .next (commanded layerReadSteps s)

/-! ## COMMIT (R14, R15) -/

/-- The tag of a COMMIT (R139). -/
def commitTag (r : Request) : Word := BitVec.ofNat 16 (field r.payload 0 2)

/-- The mask of a COMMIT (R139). -/
def commitMask (r : Request) : Word := BitVec.ofNat 16 (field r.payload 2 2)

/-- COMMIT's own rule for an addressed request (R14). -/
def commitRule (r : Request) (s : State) : State × Answer :=
  let mask := commitMask r
  let missing := mask &&& ~~~(s.ownedMask r.source)
  if mask = 0 then (s, fieldAnswer 2)
  else if missing ≠ 0 then (s, ⟨.notOwner, maskBytes missing⟩)
  else
    let s1 := arm ⟨r.source, commitTag r, mask⟩ s
    (s1, ⟨.ok, maskBytes mask ++ beBytes 1 s1.layers.commits.length
                ++ optionalPart 2 ((armedTag r.source s.layers.commits).map maskBytes)⟩)

/-- The effect of a broadcast COMMIT: the owned part of its mask is armed, where there is one (R15). -/
def commitBroadcast (r : Request) (s : State) : State :=
  let mask := commitMask r &&& s.ownedMask r.source
  if mask = 0 then s else arm ⟨r.source, commitTag r, mask⟩ s

/-- The agent's steps with a COMMIT, addressed or broadcast. -/
def commitSteps : Config.Extent → State → State := eitherStep (fun r => r.kind == kindCommit) commitRule commitBroadcast

/-- COMMIT. -/
def execCommit (s : State) : Host.Outcome State Fault Refusal := .next (commanded commitSteps s)

end Sys2Proof.Machine
end

