-- ==== Sys2Proof/Machine/NodeRequests.lean ====
section
/-! DEFINITION. The requests of the node: ASSIGN, IDENTIFY, CONFIG_WRITE, STATUS_READ and RESET of either scope. -/

namespace Sys2Proof.Machine

/-! ## ASSIGN (R136) -/

/-- ASSIGN's own rule: the address changes before the reply is built. -/
def assignRule (r : Request) (s : State) : State × Answer :=
  let new := field r.payload 0 1
  if new = 0 ∨ 63 ≤ new then (s, fieldAnswer 1)
  else ({ s with sorter := { s.sorter with address := BitVec.ofNat 8 new } },
        ⟨.ok, [s.sorter.address] ++ beBytes 1 new⟩)

/-- The agent's steps with an ASSIGN. -/
def assignSteps : Config.Extent → State → State := addressedStep kindAssign assignRule

/-- ASSIGN. -/
def execAssign (s : State) : Host.Outcome State Fault Refusal := .next (commanded assignSteps s)

/-! ## IDENTIFY (R172) -/

/-- IDENTIFY's own rule. -/
def identifyRule (_ : Request) (s : State) : State × Answer := (s, ⟨.ok, identityBytes⟩)

/-- The agent's steps with an IDENTIFY. -/
def identifySteps : Config.Extent → State → State := addressedStep kindIdentify identifyRule

/-- IDENTIFY. -/
def execIdentify (s : State) : Host.Outcome State Fault Refusal := .next (commanded identifySteps s)

/-! ## CONFIG_WRITE (R170) -/

/-- The first field that fails a check of R170. -/
def configBadField (payload : List Byte) : Option Nat :=
  if 32 ≤ (packetByte payload 0).toNat then some 1
  else if !((configField payload 0).map (fun v => decide (256 ≤ v) && decide (v ≤ 4096))).getD true then some 2
  else if !((configField payload 1).map (fun v => decide (v ≠ 0))).getD true then some 3
  else if !((configField payload 2).map (fun v => decide (v ≤ 1))).getD true then some 4
  else if !((configField payload 3).map (fun v => decide (v ≤ 7) || decide (v = 255))).getD true then some 5
  else if !((configField payload 4).map (fun v => decide (v ≤ 1))).getD true then some 6
  else none

/-- The listener of a checked code: 0 to 7, or 0xFF for none (R139). -/
def listenerOf (n : Nat) : Option SourceId := if h : n < 8 then some ⟨n, h⟩ else none

/-- The settings after a checked CONFIG_WRITE: each named setting takes its value, the others keep theirs (R170). -/
def configured (payload : List Byte) (st : Settings) : Settings :=
  { lineBudget := (configField payload 0).getD st.lineBudget
    frameTimeout := (configField payload 1).getD st.frameTimeout
    expiryAction := ((configField payload 2).map (fun v => if v = 0 then ExpiryAction.hide else .keep)).getD st.expiryAction
    listener := ((configField payload 3).map listenerOf).getD st.listener
    forcePass := ((configField payload 4).map (fun v => v == 1)).getD st.forcePass }

/-- CONFIG_WRITE's own rule. -/
def configWriteRule (r : Request) (s : State) : State × Answer :=
  match configBadField r.payload with
  | some f => (s, fieldAnswer f)
  | none =>
    let st := configured r.payload s.status.settings
    ({ s with status := { s.status with settings := st } }, ⟨.ok, settingsBytes st⟩)

/-- The agent's steps with a CONFIG_WRITE. -/
def configWriteSteps : Config.Extent → State → State := addressedStep kindConfigWrite configWriteRule

/-- CONFIG_WRITE. -/
def execConfigWrite (s : State) : Host.Outcome State Fault Refusal := .next (commanded configWriteSteps s)

/-! ## STATUS_READ (R173 to R175) -/

/-- The first-expiry record emptied (R89). -/
def emptyFirstExpiry (s : State) : State := { s with layers := { s.layers with firstExpiry := none } }

/-- The clears that the options ask for (R175). -/
def statusClears (options : Byte) (s : State) : State :=
  let s1 := if options.getLsbD 0 then clearCounters s else s
  if options.getLsbD 1 then emptyFirstExpiry s1 else s1

/-- STATUS_READ's own rule: the snapshot, then the clears. -/
def statusReadRule (r : Request) (s : State) : State × Answer :=
  let options := packetByte r.payload 0
  if 4 ≤ options.toNat then (s, fieldAnswer 1) else (statusClears options s, ⟨.ok, statusBytes s⟩)

/-- The agent's steps with a STATUS_READ. -/
def statusReadSteps : Config.Extent → State → State := addressedStep kindStatusRead statusReadRule

/-- STATUS_READ. -/
def execStatusRead (s : State) : Host.Outcome State Fault Refusal := .next (commanded statusReadSteps s)

/-! ## RESET (R157, R158) -/

/-- The commit-applied and lease-expired items cleared (R157). -/
def clearSourceItems (c : Context) : Context := { c with commitItem := none, leaseItem := none }

/-- A RESET of scope TABLES as one action (R24, R49, R157). The compositor's line in progress stays. -/
def resetTables (s : State) : State :=
  let s1 := resetDirectory (resetLayerTable s)
  { s1 with agent := { s1.agent with contexts := mapVec clearSourceItems s1.agent.contexts } }

/-- A note cleared (R158). -/
def dropNote (q : Queued) : Queued := { q with note := false }

/-- A RESET of scope NODE as one action (R24, R49, R157, R158, R179). -/
def resetNode (s : State) : State :=
  let s1 := mapNotes dropNote (emptyFirstExpiry (resetDirectory (resetLayerTable s)))
  { s1 with
    agent := { s1.agent with contexts := Agent.reset.contexts, lastServed := Agent.reset.lastServed }
    rx := { s1.rx with lastFault := none }
    status := NodeStatus.reset }

/-- The scope byte of a RESET (R139). -/
def resetScope (payload : List Byte) : Nat := field payload 0 1

/-- RESET's own rule as RESET_TABLES executes it. -/
def resetTablesRule (r : Request) (s : State) : State × Answer :=
  if resetScope r.payload = 0 then (resetTables s, ⟨.ok, beBytes 1 0⟩) else (s, fieldAnswer 1)

/-- RESET's own rule as RESET_NODE executes it. -/
def resetNodeRule (r : Request) (s : State) : State × Answer :=
  if resetScope r.payload = 1 then (resetNode s, ⟨.ok, beBytes 1 1⟩) else (s, fieldAnswer 1)

/-- A RESET payload of the right length that names the given scope. -/
def namesScope (n : Nat) (payload : List Byte) : Bool := lengthIs 1 payload && decide (resetScope payload = n)

/-- The agent's steps with a RESET, addressed or broadcast, unless it names scope NODE. A RESET of the wrong length or with
neither scope is executed by either row, with the same outcome (log 4). -/
def resetTablesSteps : Config.Extent → State → State :=
  eitherStep (fun r => r.kind == kindReset && !namesScope 1 r.payload) resetTablesRule (fun r s => (resetTablesRule r s).1)

/-- RESET_TABLES. -/
def execResetTables (s : State) : Host.Outcome State Fault Refusal := .next (commanded resetTablesSteps s)

/-- The agent's steps with a RESET, addressed or broadcast, unless it names scope TABLES (log 4). -/
def resetNodeSteps : Config.Extent → State → State :=
  eitherStep (fun r => r.kind == kindReset && !namesScope 0 r.payload) resetNodeRule (fun r s => (resetNodeRule r s).1)

/-- RESET_NODE. -/
def execResetNode (s : State) : Host.Outcome State Fault Refusal := .next (commanded resetNodeSteps s)

/-! ## PIN_RESET (R23, R48, R77, R92, R111, R124, R135, R159, R168, R179) -/

/-- PIN_RESET: every block at its pin-reset values. The store bytes hold no defined value (R48), so their epoch rises and
none is listed (log 8). The queue of commands, with the extents beside it, is the sender's and stays (log 26). An item or
packet being sent is cut (R124, R168): how much of it has left the model does not show, and the latches of what left become
none (log 16). -/
def execPinReset (s : State) : Host.Outcome State Fault Refusal :=
  .next { State.reset with
    pending := s.pending
    extents := s.extents
    glyphs := { GlyphStore.reset with epoch := s.glyphs.epoch + 1 }
    freeDraws := s.freeDraws }

end Sys2Proof.Machine
end

