-- ==== Sys2Proof/Machine/Transmitter.lean ====
section
/-! DEFINITION. The stream transmitter (R112 to R124): the output sequence and what leaves of it. -/

namespace Sys2Proof.Machine

/-! ## Joining the output sequence -/

/-- An item joins the end of the output sequence (R114, R115, R118). -/
def appendItem (it : OutItem) (s : State) : State :=
  { s with tx := { s.tx with sequence := s.tx.sequence ++ [it] } }

/-- An FE, received or aborted (R113). -/
def isFrameEnd : OutItem → Bool
  | .fe _ _ _ => true
  | .abortedFe => true
  | .fs _ _ _ => false
  | .line _ => false

/-- An aborted FE is appended for a nested start or a lock loss mid-frame; the output state becomes ABORTING where an
output frame is open and no FE stands ahead of it (R113, R120, R121, R122). -/
def appendAbortedFe (s : State) : State :=
  let st := if s.tx.state = .frame ∧ s.tx.sequence.any isFrameEnd = false then OutState.aborting else s.tx.state
  appendItem .abortedFe { s with tx := { s.tx with state := st } }

/-- A line joins the output sequence, incomplete (R115). -/
def appendLine (kind : LineKind) (index : Nat) (s : State) : State := appendItem (.line ⟨kind, index, .incomplete, []⟩) s

/-- A line of the output sequence that is not yet complete. -/
def isIncomplete : OutItem → Bool
  | .line l => l.payload == .incomplete
  | .fs _ _ _ => false
  | .fe _ _ _ => false
  | .abortedFe => false

/-- The incomplete line gets its payload source and so becomes complete (R115). -/
def completeItem (p : Payload) : OutItem → OutItem
  | .line l => if l.payload = .incomplete then .line { l with payload := p } else .line l
  | .fs f w h => .fs f w h
  | .fe a b x => .fe a b x
  | .abortedFe => .abortedFe

/-- The open line of the output sequence completed (R115). -/
def completeLine (p : Payload) (s : State) : State :=
  { s with tx := { s.tx with sequence := s.tx.sequence.map (completeItem p) } }

/-- The cut line is removed from the output sequence; a complete line stays (R121). -/
def removeCutLine (s : State) : State :=
  { s with tx := { s.tx with sequence := s.tx.sequence.filter (fun it => !isIncomplete it) } }

/-- A line that waits with its pixels for the leaving slot (R72). -/
def isCarried : OutItem → Bool
  | .line l => match l.payload with
    | .carried _ => true
    | .incomplete => false
    | .leaving => false
    | .blank _ _ => false
  | .fs _ _ _ => false
  | .fe _ _ _ => false
  | .abortedFe => false

/-- An active line handed over takes the leaving slot, or waits with its pixels while the slot, or an active line ahead
of it, still waits to be sent (R72, R112, log 15). -/
def placeHandedOver (bytes : List Byte) (s : State) : State :=
  if s.comp.leaving.isSome || s.tx.sequence.any isCarried then completeLine (.carried bytes) s
  else completeLine .leaving { s with comp := { s.comp with leaving := some bytes } }

/-- A byte added to the last line of a list of items. -/
def extendLast (b : Byte) : List OutItem → List OutItem
  | [] => []
  | [.line l] => [.line { l with tail := l.tail ++ [b] }]
  | it :: rest => it :: extendLast b rest

/-- A byte added to a line that has left. -/
def extendSent (b : Byte) : Option SentItem → Option SentItem
  | some (.line k i bytes) => some (.line k i (bytes ++ [b]))
  | other => other

/-- A byte of a long line past its 3·W bytes joins the outgoing line, behind what stands there (R117). The open line is
the last of the sequence, or has left it already, when the byte follows what was sent (log 14). -/
def extendOutLine (b : Byte) (s : State) : State :=
  if s.tx.sequence.isEmpty then { s with tx := { s.tx with lane := extendSent b s.tx.lane } }
  else { s with tx := { s.tx with sequence := extendLast b s.tx.sequence } }

/-! ## Sending -/

/-- The bytes of a line as they leave (R116, R117). -/
def linePayload (leaving : Option (List Byte)) (l : OutLine) : List Byte :=
  (match l.payload with
    | .incomplete => []
    | .leaving => leaving.getD []
    | .carried bytes => bytes
    | .blank packets area => packets.flatten ++ List.replicate (area - packets.flatten.length) 0) ++ l.tail

/-- The first line of the sequence takes the leaving slot where it waits with its pixels (R72): the sequence with that
line's source changed, and the slot's new content. -/
def promoteFirst : List OutItem → Option (List OutItem × List Byte)
  | [] => none
  | .line l :: rest =>
    match l.payload with
    | .carried bytes => some (.line { l with payload := .leaving } :: rest, bytes)
    | .incomplete => none
    | .leaving => none
    | .blank _ _ => none
  | .fs f w h :: rest => (promoteFirst rest).map (fun r => (.fs f w h :: r.1, r.2))
  | .fe a b x :: rest => (promoteFirst rest).map (fun r => (.fe a b x :: r.1, r.2))
  | .abortedFe :: rest => (promoteFirst rest).map (fun r => (.abortedFe :: r.1, r.2))

/-- A waiting line takes the free leaving slot once the lines ahead of it have been sent (R72). -/
def promote (s : State) : State :=
  match s.comp.leaving, promoteFirst s.tx.sequence with
  | none, some (seq, bytes) =>
    { s with tx := { s.tx with sequence := seq }, comp := { s.comp with leaving := some bytes } }
  | none, none => s
  | some _, _ => s

/-- Whether the first FE behind an FS is an aborted one (R113). -/
def firstEndAborted : List OutItem → Bool
  | [] => false
  | .abortedFe :: _ => true
  | .fe _ _ _ :: _ => false
  | .fs _ _ _ :: rest => firstEndAborted rest
  | .line _ :: rest => firstEndAborted rest

/-- FS_SENT (R113, R114): the FS at the head has been sent; the output frame opens and the counts of lines sent become 0.
With no FS at the head there is none to send (log 1). -/
def execFsSent (s : State) : Host.Outcome State Fault Refusal :=
  match s.tx.sequence with
  | .fs f w h :: rest =>
    let st := if s.tx.state = .idle then (if firstEndAborted rest then OutState.aborting else OutState.frame) else s.tx.state
    .next { s with tx := { state := st, sequence := rest, activeSent := 0, blankSent := 0, lane := some (.fs f w h) } }
  | .line _ :: _ => .next s
  | .fe _ _ _ :: _ => .next s
  | .abortedFe :: _ => .next s
  | [] => .next s

/-- A line still open at the receiver that has run past its 3·W bytes: its output ends only at the next item (R117). -/
def longLineOpen (s : State) : Bool :=
  match s.rx.openLine with
  | none => false
  | some l => decide (3 * (s.rx.geometry.map (·.width)).getD 0 < l.count)

/-- A count of lines sent stays at 65535 (R112). -/
def countSent (n : Nat) : Nat := capped 65535 n

/-- The complete line `l` at the head has been sent, with `rest` behind it (R115): the count of its kind rises, and the
leaving slot is free again where it held the line. -/
def sendLine (l : OutLine) (rest : List OutItem) (s : State) : State :=
  let sent := SentItem.line l.kind l.index (linePayload s.comp.leaving l)
  let s1 : State :=
    { s with
      tx := { s.tx with
        sequence := rest, lane := some sent,
        activeSent := if l.kind = .active then countSent s.tx.activeSent else s.tx.activeSent,
        blankSent := if l.kind = .blank then countSent s.tx.blankSent else s.tx.blankSent },
      comp := { s.comp with leaving := if l.payload = .leaving then none else s.comp.leaving } }
  promote s1

/-- LINE_SENT (R115, R117): a complete line at the head has been sent. An incomplete line waits, and so does a long line
whose end has not been found (logs 1 and 14). -/
def execLineSent (s : State) : Host.Outcome State Fault Refusal :=
  match s.tx.sequence with
  | .line l :: rest =>
    if l.payload = .incomplete ∨ (rest = [] ∧ longLineOpen s = true) then .next s
    else .next (sendLine l rest s)
  | .fs _ _ _ :: _ => .next s
  | .fe _ _ _ :: _ => .next s
  | .abortedFe :: _ => .next s
  | [] => .next s

/-- An FE has left: the output state becomes IDLE (R113). -/
def sendEnd (it : SentItem) (rest : List OutItem) (s : State) : State :=
  { s with tx := { s.tx with state := .idle, sequence := rest, lane := some it } }

/-- FE_SENT (R118, R120): a received FE leaves as received; an aborted FE leaves with the counts of lines sent and its
abort flag set. With no FE at the head there is none to send (log 1). -/
def execFeSent (s : State) : Host.Outcome State Fault Refusal :=
  match s.tx.sequence with
  | .fe a b x :: rest => .next (sendEnd (.fe a b x) rest s)
  | .abortedFe :: rest =>
    .next (sendEnd (.fe (BitVec.ofNat 16 s.tx.activeSent) (BitVec.ofNat 16 s.tx.blankSent) true) rest s)
  | .fs _ _ _ :: _ => .next s
  | .line _ :: _ => .next s
  | [] => .next s

/-- IDL_SENT (R119): in IDLE, until an FS reaches the head of the output sequence. Within an output frame, or with an FS
at the head, no IDL is sent (log 1). -/
def execIdlSent (s : State) : Host.Outcome State Fault Refusal :=
  match s.tx.state, s.tx.sequence with
  | .idle, .fs _ _ _ :: _ => .next s
  | .idle, _ => .next { s with tx := { s.tx with lane := some .idl } }
  | .frame, _ => .next s
  | .aborting, _ => .next s

end Sys2Proof.Machine
end

