-- ==== Sys2Proof/Machine/Compositor.lean ====
section
/-! DEFINITION. The compositor (R50 to R77): the line plan, the drawing of a planned line's pixels, and the hand-over. -/

namespace Sys2Proof.Machine

/-! ## Coverage (R54 to R56) -/

/-- The least of a last row or column and the clip's, where the clip is present (R56). -/
def clipLast (last : Int) : Option Nat → Int
  | none => last
  | some c => min last c

/-- The columns and rows that a record covers before intersection (R54, R55): its width and height, or its glyph's
times the scale. A FREE entry has width and height 0 (R26). -/
def extent (r : LayerRecord) (g : Option Glyph) : Nat × Nat :=
  match r.kind with
  | .fill => (r.width, r.height)
  | .glyph => ((g.map (·.width)).getD 0 * r.scaleH, (g.map (·.height)).getD 0 * r.scaleV)

/-- The columns cL to cR of line `v` that a record covers, none where it does not cover the line (R56). -/
def coverage (r : LayerRecord) (g : Option Glyph) (wAct hAct v : Nat) : Option (Nat × Nat) :=
  let top := max (max r.y ((r.clip.map (·.y0)).getD 0)) 0
  let bottom := min (clipLast (r.y + (extent r g).2 - 1) (r.clip.map (·.y1))) (hAct - 1)
  let left := max (max r.x ((r.clip.map (·.x0)).getD 0)) 0
  let right := min (clipLast (r.x + (extent r g).1 - 1) (r.clip.map (·.x1))) (wAct - 1)
  if top ≤ (v : Int) ∧ (v : Int) ≤ bottom ∧ left ≤ right then some (left.toNat, right.toNat) else none

/-! ## The snapshot of the tables (R22, R45, R53) -/

/-- What the LS of an active line reads of the layer table, the directory and the settings (R52, R53): `pass` is FORCE_PASS;
`placed` is the directory when the ACTIVE bank was read, for the size of an entry that the directory's read then finds FREE
(log 12). -/
structure Snapshot where
  bank : Vector LayerRecord 16
  entries : Vector (Option Glyph) 256
  placed : Vector (Option Glyph) 256
  budget : Nat
  pass : Bool
  deriving DecidableEq, Repr

/-- The ACTIVE record that the snapshot read for a layer (R22). -/
def Snapshot.record (x : Snapshot) (l : LayerId) : LayerRecord := x.bank[l.val]

/-- The directory entry that the snapshot read (R45). -/
def Snapshot.entry (x : Snapshot) (e : GlyphId) : Option Glyph := x.entries[e.val]

/-- The entry whose size a record that names `e` covers: the one that the snapshot read, and for one that it found FREE the
entry that the record named when it was read (R55, log 12). -/
def Snapshot.sized (x : Snapshot) (e : GlyphId) : Option Glyph :=
  match x.entry e with
  | some g => some g
  | none => x.placed[e.val]

/-- The tables and the settings as they stand. -/
def standingReads (s : State) : Snapshot :=
  ⟨s.layers.activeBank, s.glyphs.entries, s.glyphs.entries, s.status.settings.lineBudget, s.status.settings.forcePass⟩

/-! ## Candidates and readiness (R57, R58) -/

/-- A layer that is a candidate for the line (R57), with what the snapshot read for it (R53). -/
structure Candidate where
  layer : LayerId
  record : LayerRecord
  glyph : Option Glyph
  left : Nat
  right : Nat
  deriving DecidableEq, Repr

/-- The directory entry that the snapshot reads for a record (R45, R53). -/
def namedEntry (x : Snapshot) (r : LayerRecord) : Option Glyph :=
  match r.kind with
  | .fill => none
  | .glyph => x.entry r.glyph

/-- Whether a layer is a candidate for line `v` (R57), its coverage worked out by R56 whatever the state of its entry. That an
entry found FREE covers lines with the size that it had when the record was read is the model's choice (log 12). -/
def candidate (x : Snapshot) (geo : Geometry) (v : Nat) (l : LayerId) : Option Candidate :=
  let r := x.record l
  if r.visible = true ∧ r.opacity ≠ 0 then
    (coverage r (x.sized r.glyph) geo.width geo.height v).map (fun c => ⟨l, r, namedEntry x r, c.1, c.2⟩)
  else none

/-- The candidates of a line, bottom layer first (R57). -/
def candidates (x : Snapshot) (geo : Geometry) (v : Nat) : List Candidate := layerIds.filterMap (candidate x geo v)

/-- A candidate goes on to the allotment: kind FILL, or an entry that the snapshot found READY (R58). -/
def ready (c : Candidate) : Bool :=
  match c.record.kind with
  | .fill => true
  | .glyph => decide (c.glyph.map (·.state) = some .ready)

/-! ## Costs (R60) and plan entries (R63) -/

/-- The plan entry of a candidate on line `v` (R60, R63). -/
def planEntry (v : Nat) (c : Candidate) : PlanEntry :=
  { layer := c.layer, left := c.left, right := c.right, x := c.record.x, colour := c.record.colour,
    opacity := c.record.opacity
    glyph := c.glyph.map (fun g =>
      { format := g.format, stride := g.stride, firstBlock := g.firstBlock
        row := ((v : Int) - c.record.y).toNat / c.record.scaleV
        first := glyphColumn c.left c.record.x c.record.scaleH
        last := glyphColumn c.right c.record.x c.record.scaleH
        scaleH := c.record.scaleH, key := c.record.key }) }

/-- The number of bytes of the glyph row that hold the columns shown (R60). -/
def glyphCost (g : PlanGlyph) : Nat := columnLastByte g.format g.last - columnByte g.format g.first + 1

/-- The cost of a plan entry; a FILL layer costs 0 (R59, R60). -/
def entryCost (e : PlanEntry) : Nat := (e.glyph.map glyphCost).getD 0

/-- The allotment from the top layer down (R59): the planned entries, bottom first, and the skipped layers, top first. -/
def allot (budget : Nat) : Nat → List PlanEntry → List PlanEntry × List LayerId
  | _, [] => ([], [])
  | total, e :: rest =>
    if total + entryCost e ≤ budget then
      let r := allot budget (total + entryCost e) rest
      (r.1 ++ [e], r.2)
    else
      let r := allot budget total rest
      (r.1, e.layer :: r.2)

/-! ## The bytes of a planned line (R64) -/

/-- The store addresses that a plan entry reads (R64). -/
def glyphAddresses (g : PlanGlyph) : List Nat :=
  (List.range (glyphCost g)).map (fun i => rowAddress g + columnByte g.format g.first + i)

/-- The store addresses that a line reads (R64). -/
def lineAddresses (entries : List PlanEntry) : List Nat :=
  entries.flatMap (fun e => (e.glyph.map glyphAddresses).getD [])

/-- The bytes as the store holds them when the plan is taken (R64, log 10). -/
def fetchLine (s : State) (entries : List PlanEntry) : List FetchedByte :=
  (lineAddresses entries).map (fun a => ⟨a, storeByte s.glyphs a⟩)

/-! ## Taking the plan (R53, R58, R61, R63) -/

/-- The entries of the candidates that are ready, from the top layer down, as the allotment takes them (R59). -/
def readyEntries (x : Snapshot) (geo : Geometry) (v : Nat) : List PlanEntry :=
  (((candidates x geo v).filter ready).map (planEntry v)).reverse

/-- The allotment of a line under the line budget that the snapshot read (R59). -/
def lineAllotment (x : Snapshot) (geo : Geometry) (v : Nat) : List PlanEntry × List LayerId :=
  allot x.budget 0 (readyEntries x geo v)

/-- The layers dropped as not ready on a line (R58). -/
def notReadyCount (x : Snapshot) (geo : Geometry) (v : Nat) : Nat := (candidates x geo v).countP (fun c => !ready c)

/-- The count and the BUDGET mark of one skipped layer (R61, R62). -/
def skipLayer (geo : Geometry) (v : Nat) (s : State) (l : LayerId) : State :=
  markBudget geo.frame v l (bump .linesBudgetSkip 1 s)

/-- The line plan for output line `v` from the snapshot `x` (R53): the counts and marks of the layers left
out, then the plan, with its bytes as a load in execution has come to write them (R38). -/
def takePlan (geo : Geometry) (v : Nat) (x : Snapshot) (s : State) : State :=
  let al := lineAllotment x geo v
  let s1 := advanceLoad s
  let s2 := al.2.foldl (skipLayer geo v) (bump .linesNotReady (notReadyCount x geo v) s1)
  { s2 with
    comp := { s2.comp with plan := some ⟨v, al.1, fetchLine s1 al.1⟩ }
    freeDraws := s2.freeDraws + 1 }

/-! ## Drawing (R64, R65, R72) -/

/-- Pixel `u` is drawn where the line is planned (R65, R72). -/
def drawPixel (u : Nat) (s : State) : State :=
  match s.comp.plan, s.comp.arriving with
  | some p, some a =>
    { s with comp := { s.comp with
        arriving := some { a with composited := a.composited ++ pixelBytes p a.received u } } }
  | some _, none => s
  | none, _ => s

/-- The pixel that the byte numbered `n` completes is drawn, where the line is planned, with a load's writes as far as they
have come by then (R38, R64, R65, R72). -/
def drawCompleted (n : Nat) (s : State) : State :=
  if s.comp.plan.isSome ∧ n % 3 = 0 then drawPixel (n / 3 - 1) (advanceLoad s) else s

/-! ## The arriving slot and the hand-over (R72 to R74) -/

/-- A received byte joins the arriving slot. -/
def receiveByte (b : Byte) (s : State) : State :=
  { s with comp := { s.comp with arriving := s.comp.arriving.map (fun a => { a with received := a.received ++ [b] }) } }

/-- The content of a full line at its hand-over: composited for a planned line, as received for any other (R72, R74). -/
def lineContent (s : State) : List Byte :=
  match s.comp.arriving with
  | none => []
  | some a => if s.comp.plan.isSome then a.composited else a.received

/-- The arriving slot is free again and the plan ends (R72). -/
def clearArriving (s : State) : State := { s with comp := { s.comp with plan := none, arriving := none } }

/-- The hand-over of a full line (R72, R74). -/
def handOver (s : State) : State := placeHandedOver (lineContent s) (clearArriving s)

/-- The hand-over of a short line: its received bytes, unmodified, and its plan discarded (R73, R74). -/
def handOverShort (s : State) : State :=
  placeHandedOver ((s.comp.arriving.map (·.received)).getD []) (clearArriving s)

/-- A byte of an active line, the `n`-th of `full` (R72, R73, R74): drawn with its pixel; the last hands the line over;
one beyond passes on unmodified. -/
def activeByte (b : Byte) (n full : Nat) (s : State) : State :=
  if n ≤ full then
    let s1 := drawCompleted n (receiveByte b s)
    if n = full then handOver s1 else s1
  else extendOutLine b s

/-- An active line's LS taken: the line occupies the arriving slot (R72). -/
def occupyArriving (index : Nat) (s : State) : State :=
  { s with comp := { s.comp with plan := none, arriving := some ⟨index, [], []⟩ } }

/-- What the compositor does with an active line at its LS (R52), where the LS has read `x`. -/
def beginActive (index : Nat) (x : Snapshot) (s : State) : State :=
  let s1 := occupyArriving index s
  match s.rx.lock, s.comp.geometry with
  | .frame, some geo => if x.pass then s1 else takePlan geo index x s1
  | .frame, none => s1
  | .raw, _ => s1
  | .hunt, _ => s1
  | .gap, _ => s1

/-- The compositor takes a FRAME_START: its geometry is replaced (R51). -/
def frameStartCompositor (geo : Geometry) (s : State) : State :=
  { s with comp := { s.comp with geometry := some geo } }

/-- The compositor at lock loss: geometry, plan and arriving line are discarded (R75). -/
def discardCompositor (s : State) : State :=
  { s with comp := { s.comp with geometry := none, plan := none, arriving := none } }

end Sys2Proof.Machine
end

