-- ==== Sys2Proof/Machine/Requests.lean ====
section
/-! DEFINITION. The agent's steps with a request of any kind, the completion of the request in execution before a FRAME_START
(R145), and LEASE_EXPIRY. -/

namespace Sys2Proof.Machine

/-! ## The steps with a request of any kind (R139) -/

/-- The agent's steps with each kind of request but RESET. -/
def kindSteps : List (Byte × (Config.Extent → State → State)) :=
  [(kindIdentify, identifySteps), (kindAssign, assignSteps), (kindConfigWrite, configWriteSteps),
   (kindStatusRead, statusReadSteps), (kindClaim, claimSteps), (kindRelease, releaseSteps),
   (kindLayerWrite, layerWriteSteps), (kindLayerRead, layerReadSteps), (kindCommit, commitSteps),
   (kindGlyphDefine, glyphDefineSteps), (kindGlyphLoad, glyphLoadSteps), (kindGlyphDelete, glyphDeleteSteps),
   (kindGlyphQuery, glyphQuerySteps)]

/-- The agent's steps with a request, as a row that serves it makes them. -/
def requestSteps (r : Request) : Config.Extent → State → State :=
  if r.kind = kindReset then (if namesScope 1 r.payload then resetNodeSteps else resetTablesSteps)
  else ((kindSteps.find? (fun k => k.1 == r.kind)).map (·.2)).getD unknownKindSteps

/-! ## A FRAME_START between two requests (R145) -/

/-- The request in execution carried to its completion. The layer table takes a FRAME_START between two requests, or while a
GLYPH_LOAD writes to the store; a load in execution therefore goes on, and a GLYPH_LOAD that passes its checks is carried as far
as the start of its writes (R145, log 28). -/
def completeRequest (s : State) : State :=
  match s.agent.busy with
  | none => s
  | some (.load _) => s
  | some (.taken p _) => requestSteps (requestOf p) .replied s
  | some (.acted r _) => requestSteps r .replied s

/-! ## LEASE_EXPIRY -/

/-- The expiry of one layer where it is owned with a remaining lease of 1 (R85), the expiry action read for it (R86). -/
def expireDue (l : LayerId) (frame : Word) (s : State) : Option State :=
  match (s.ownership l).owner with
  | none => none
  | some src =>
    if (s.ownership l).remaining = 1 then some (expireLayer s.status.settings.expiryAction src l frame s) else none

/-- LEASE_EXPIRY (R85): the expiry of one layer, as the countdown for the FS with this frame number makes it. Like the
FRAME_START it falls between two requests (R145). It takes place where the layer is then owned with a remaining lease of 1, and
it is the part of `countdown` for that layer (log 6). -/
def execLeaseExpiry (l : LayerId) (frame : Word) (s : State) : Host.Outcome State Fault Refusal :=
  match expireDue l frame (completeRequest s) with
  | none => .next s
  | some t => .next t

end Sys2Proof.Machine
end

