-- ==== Sys2Proof/Machine/Sorter.lean ====
section
/-! DEFINITION. The packet sorter (R125 to R134): scanning a blank line's data area, sorting its packets, and closing the
line. -/

namespace Sys2Proof.Machine

/-- The line record at the LS of a blank line whose data area holds `bound` bytes (R125); with no byte to judge the packet
area has ended (R126). -/
def newLineRecord (bound : Nat) : LineRecord :=
  { bound := bound, scanPos := 0, scan := if bound = 0 then .ended else .seeking, packet := [], decisions := [],
    counts := ⟨0, 0, 0, 0⟩ }

/-- A malformed finding counted in the line (R126, R129, R130). -/
def countMalformed (r : LineRecord) : LineRecord :=
  { r with counts := { r.counts with malformed := r.counts.malformed + 1 } }

/-- A malformed start: counted once, and the rest of the line is ignored (R126). -/
def malformedStart (r : LineRecord) : LineRecord := { countMalformed r with scan := .abandoned, packet := [] }

/-- The decision of R130 for a good packet with a valid header, against the node address. -/
def sortDecision (address : Byte) (p : Packet) : Decision :=
  if packetBroadcast p then
    if packetKind p = kindCommit ∨ packetKind p = kindReset then .both else .forward
  else if packetDest p = address then .consume
  else .forward

/-- Whether a decision consumes the packet. -/
def Decision.consumes : Decision → Bool
  | .consume => true
  | .forward => false
  | .both => true

/-- Whether a decision forwards the packet. -/
def Decision.forwards : Decision → Bool
  | .consume => false
  | .forward => true
  | .both => true

/-- A sorted packet joins the decision list with its counts (R130). -/
def addDecision (d : Decision) (p : Packet) (r : LineRecord) : LineRecord :=
  { r with
    decisions := r.decisions ++ [(p, d)]
    counts := { r.counts with
      consumed := r.counts.consumed + (if d.consumes then 1 else 0)
      forwarded := r.counts.forwarded + (if d.forwards then 1 else 0) } }

/-- A complete packet (R128 to R130): dropped for its CRC, dropped for its header, or sorted. -/
def judgePacket (address : Byte) (p : Packet) (r : LineRecord) : LineRecord :=
  if packetCrcGood p = false then { r with counts := { r.counts with badCrc := r.counts.badCrc + 1 } }
  else if packetHeaderValid p = false then countMalformed r
  else
    let d := sortDecision address p
    let r1 := addDecision d p r
    if packetBroadcast p = true ∧ d = .forward then countMalformed r1 else r1

/-- The scan position moves behind a complete packet (R126, R127). -/
def nextPosition (n : Nat) (r : LineRecord) : LineRecord :=
  { r with scanPos := r.scanPos + n, packet := [],
           scan := if r.scanPos + n = r.bound then .ended else .seeking }

/-- A byte at a start position (R126). -/
def scanStart (b : Byte) (r : LineRecord) : LineRecord :=
  if b = 0 then { r with scan := .ended }
  else if b = 0xC3#8 ∧ r.scanPos + 1 ≠ r.bound then { r with packet := [b] }
  else malformedStart r

/-- The byte after a first sync byte (R126). -/
def scanSecond (b : Byte) (r : LineRecord) : LineRecord :=
  if b = 0x5A#8 then { r with scan := .inPacket, packet := r.packet ++ [b] } else malformedStart r

/-- A byte of a packet in progress (R127). -/
def scanPacket (address b : Byte) (r : LineRecord) : LineRecord :=
  let p := r.packet ++ [b]
  if p.length = 7 then
    if 240 < b.toNat ∨ r.bound < r.scanPos + (b.toNat + 9) then malformedStart r else { r with packet := p }
  else if 7 < p.length ∧ p.length = packetLength p + 9 then judgePacket address p (nextPosition p.length r)
  else { r with packet := p }

/-- A byte of the data area scanned (R126, R127). -/
def scanByte (address b : Byte) (r : LineRecord) : LineRecord :=
  match r.scan with
  | .ended => r
  | .abandoned => r
  | .inPacket => scanPacket address b r
  | .seeking => if r.packet.isEmpty then scanStart b r else scanSecond b r

/-- The record at the end of the line's input: the bound is lowered to the received length, and a packet not ended is a
malformed start (R126, R127, R131). -/
def endRecord (received : Nat) (r : LineRecord) : LineRecord :=
  let r1 := { r with bound := min r.bound received }
  match r.scan with
  | .inPacket => malformedStart r1
  | .seeking => if r.packet.isEmpty then r1 else malformedStart r1
  | .ended => r1
  | .abandoned => r1

/-- The packets to consume, in position order (R131). -/
def consumedPackets (r : LineRecord) : List Packet := (r.decisions.filter (fun d => d.2.consumes)).map (·.1)

/-- The packets to forward, in position order (R131). -/
def forwardedPackets (r : LineRecord) : List Packet := (r.decisions.filter (fun d => d.2.forwards)).map (·.1)

/-- A consumed packet offered to the inbound request queue (R133). -/
def offerRequest (s : State) (p : Packet) : State :=
  if s.agent.inbound.length < Config.inboundDepth then
    { s with agent := { s.agent with inbound := s.agent.inbound ++ [p] } }
  else bump .reqOverflow 1 s

/-- The line counts sent to Node Status (R131, R134). -/
def sendCounts (c : LineCounts) (s : State) : State :=
  bump .pktMalformed c.malformed (bump .pktBadCrc c.badCrc (bump .pktForwarded c.forwarded
    (bump .pktConsumed c.consumed s)))

/-- The close of the open blank line at the end of its input, in one action (R131). -/
def closeBlank (received : Nat) (s : State) : State :=
  match s.sorter.line with
  | none => s
  | some r0 =>
    let r := endRecord received r0
    let s1 := (consumedPackets r).foldl offerRequest s
    let s2 := sendCounts r.counts (completeLine (.blank (forwardedPackets r) r.bound) s1)
    { s2 with sorter := { s2.sorter with line := none } }

/-- A byte of a blank line, the `n`-th of `full` (R117, R125, R131): scanned; the last closes the line; one beyond is
ignored by the sorter and leaves as 0x00. -/
def blankByte (b : Byte) (n full : Nat) (s : State) : State :=
  if n ≤ full then
    let s1 := { s with sorter := { s.sorter with line := s.sorter.line.map (scanByte s.sorter.address b) } }
    if n = full then closeBlank n s1 else s1
  else extendOutLine 0 s

/-- The line record created at a blank line's LS (R125). -/
def beginBlank (bound : Nat) (s : State) : State :=
  { s with sorter := { s.sorter with line := some (newLineRecord bound) } }

/-- A blank line cut by lock loss: its record is discarded whole (R132). -/
def cutBlank (s : State) : State := { s with sorter := { s.sorter with line := none } }

end Sys2Proof.Machine
end

