-- ==== Sys2Proof/Machine/Receiver.lean ====
section
/-! DEFINITION. The stream receiver (R93 to R111): what each forward-lane item and each lock event does. -/

namespace Sys2Proof.Machine

/-! ## The frame in progress -/

/-- Whether a W or an H lies in the accepted range (R93). -/
def sizeInRange (n : Word) : Bool := decide (16 ≤ n.toNat) && decide (n.toNat ≤ 2048)

/-- An FS in range (R93). -/
def fsInRange (w h : Word) : Bool := sizeInRange w && sizeInRange h

/-- The geometry that an FS announces (R95). -/
def geometryOf (frame w h : Word) : Geometry := ⟨frame, w.toNat, h.toNat⟩

/-- The expected length of every line of the frame in progress: 3·W, whether the FS was in range or not (R95). -/
def lineBytes (s : State) : Nat := 3 * (s.rx.geometry.map (·.width)).getD 0

/-- The lock state changed. -/
def setLock (l : LockState) (s : State) : State := { s with rx := { s.rx with lock := l } }

/-- A fault found in FRAME: it is recorded, and the receiver moves to RAW (R105). In RAW nothing is judged (R103). -/
def faultToRaw (k : FaultKind) (s : State) : State :=
  match s.rx.lock with
  | .frame => setLock .raw (firstFault k s)
  | .raw => s
  | .hunt => s
  | .gap => s

/-! ## The end of an open line (R99, R101, R102, R104) -/

/-- A short line ends at the bytes received: an active line is handed over unmodified, a blank line is closed (R73, R74,
R131). -/
def finishShort (l : OpenLine) (s : State) : State :=
  match l.kind with
  | .active => handOverShort s
  | .blank => closeBlank l.count s

/-- The end of the open line is found at an item: a short one is a LINE_LENGTH fault in FRAME (R102). -/
def endOpenLine (s : State) : State :=
  match s.rx.openLine with
  | none => s
  | some l =>
    let s1 := if l.count < lineBytes s then finishShort l (faultToRaw .lineLength s) else s
    { s1 with rx := { s1.rx with openLine := none } }

/-! ## FS (R96 to R100) -/

/-- The FS taken: geometry, last frame number, and the per-frame state cleared (R95, R96, R97, R100). -/
def openFrame (frame w h : Word) (s : State) : State :=
  { s with rx := { s.rx with
      geometry := some (geometryOf frame w h), lastFrame := some frame, openLine := none, expectedActive := 0,
      expectedBlank := 0, activeSeen := 0, blankSeen := 0, faulted := false } }

/-- The watchdog loaded with the frame timeout setting and started (R106). -/
def startWatchdog (s : State) : State := { s with rx := { s.rx with watchdog := some s.status.settings.frameTimeout } }

/-- FRAME_START: the layer table's work and the compositor's (R98). -/
def frameStart (geo : Geometry) (s : State) : State := frameStartCompositor geo (frameStartLayers geo.frame s)

/-- An FS in range taken (R96, R97): the frame opens, the watchdog restarts, the receiver is in FRAME, and the FS goes to the
transmitter. -/
def acceptFs (frame w h : Word) (s : State) : State :=
  appendItem (.fs frame w h) (setLock .frame (startWatchdog (openFrame frame w h s)))

/-- An FS out of range taken (R100, steps 2 to 4): the frame opens faulted, in RAW. -/
def openOutOfRange (frame w h : Word) (s : State) : State :=
  appendItem (.fs frame w h) (setLock .raw (firstFault .geometry (openFrame frame w h s)))

/-- The frame in progress closed by a nested start (R99, steps 1 to 3). -/
def supersede (s : State) : State := appendAbortedFe (firstFault .nestedStart (endOpenLine s))

/-- What an FS in range is to the receiver and the transmitter in each lock state, with the relock mark (R96, R97, R99). -/
def receiveFs (frame w h : Word) (s : State) : State :=
  match s.rx.lock with
  | .hunt => markRelock frame (acceptFs frame w h s)
  | .gap => acceptFs frame w h s
  | .frame => acceptFs frame w h (supersede s)
  | .raw => acceptFs frame w h (supersede s)

/-- The state in which the FRAME_START of an FS in range is taken: the receiver has taken the FS, and the request in execution is
complete, unless it is a load (R98, R145, log 28). -/
def fsMeets (frame w h : Word) (s : State) : State := completeRequest (receiveFs frame w h s)

/-- FS (R96 to R100). -/
def execFs (frame w h : Word) (s : State) : Host.Outcome State Fault Refusal :=
  match s.rx.lock, fsInRange w h with
  | .hunt, true => .next (frameStart (geometryOf frame w h) (fsMeets frame w h s))
  | .hunt, false => .next s
  | .gap, true => .next (frameStart (geometryOf frame w h) (fsMeets frame w h s))
  | .gap, false => .next (openOutOfRange frame w h s)
  | .frame, true => .next (frameStart (geometryOf frame w h) (fsMeets frame w h s))
  | .frame, false => .next (openOutOfRange frame w h (supersede s))
  | .raw, true => .next (frameStart (geometryOf frame w h) (fsMeets frame w h s))
  | .raw, false => .next (openOutOfRange frame w h (supersede s))

/-! ## LS (R101, R103) -/

/-- Whether an LS carries the expected index of its kind (R101). -/
def lsExpected (kind : LineKind) (index : Nat) (s : State) : Bool :=
  match kind with
  | .active => decide (index = s.rx.expectedActive) && decide (index < (s.rx.geometry.map (·.height)).getD 0)
  | .blank => decide (index = s.rx.expectedBlank) && decide (index < 1024)

/-- An expected LS counts: the expected index and the lines seen of its kind rise by 1 (R101). -/
def countLine (kind : LineKind) (s : State) : State :=
  match kind with
  | .active => { s with rx := { s.rx with expectedActive := s.rx.expectedActive + 1, activeSeen := s.rx.activeSeen + 1 } }
  | .blank => { s with rx := { s.rx with expectedBlank := s.rx.expectedBlank + 1, blankSeen := s.rx.blankSeen + 1 } }

/-- The LS is judged in FRAME: expected, it counts; unexpected, it is the LINE_INDEX fault. In RAW it is not judged
(R101, R103). -/
def judgeLs (kind : LineKind) (index : Nat) (s : State) : State :=
  match s.rx.lock with
  | .frame => if lsExpected kind index s then countLine kind s else faultToRaw .lineIndex s
  | .raw => s
  | .hunt => s
  | .gap => s

/-- A line of a frame whose W is 0 has its whole payload at its LS (log 13). -/
def finishEmpty (kind : LineKind) (s : State) : State :=
  if lineBytes s = 0 then
    match kind with
    | .active => handOver s
    | .blank => closeBlank 0 s
  else s

/-- The line opens: at the receiver, in the output sequence, and at the compositor or the sorter (R101, R103). -/
def openLine (kind : LineKind) (index : Nat) (x : Snapshot) (s : State) : State :=
  let s1 := appendLine kind index { s with rx := { s.rx with openLine := some ⟨kind, index, 0⟩ } }
  finishEmpty kind (match kind with
    | .active => beginActive index x s1
    | .blank => beginBlank (lineBytes s) s1)

/-- Whether an LS begins a line that the compositor is to plan (R52, R101). -/
def lsPlannable (kind : LineKind) (index : Nat) (s : State) : Bool :=
  decide (kind = .active) && decide (s.rx.lock = .frame) && lsExpected kind index s
    && (s.rx.openLine.all (fun l => decide (lineBytes s ≤ l.count))) && !s.status.settings.forcePass

/-- The packet of the request that the agent's next step is with: the one taken, or, in IDLE, the head. -/
def nextRequest (s : State) : Option Packet :=
  match s.agent.busy with
  | none => s.agent.inbound.head?
  | some (.taken p _) => some p
  | some (.load _) => none
  | some (.acted _ _) => none

/-- The agent's steps with the request that is next, where its own action reaches what a line plan reads in two blocks or at
two readings: a RESET or a CONFIG_WRITE (R53, R76, R171). -/
def readsMeet (s : State) : Option (Config.Extent → State → State) :=
  match nextRequest s with
  | none => none
  | some p =>
    if packetKind p = kindConfigWrite ∨ packetKind p = kindReset then some (requestSteps (requestOf p)) else none

/-- What an LS finds: the state that it is taken in, and what it reads. FORCE_PASS is read first, then the reads of the plan
are made one after another (R52, R53), and the counts and marks of the layers left out follow them. Where a RESET or a
CONFIG_WRITE is the agent's next request, its steps, freely as far as they go, come freely after all the reads; or between the
read of the ACTIVE bank and that of the directory, which after a RESET finds every entry FREE (R45); or between the directory's
read and the settings'; or between the settings' read and the geometry's, so that of all the reads they change none, and the
counts and marks find the node as they left it (log 11). -/
def lsFinds (kind : LineKind) (index : Nat) (s : State) : State × Snapshot :=
  if lsPlannable kind index s then
    match readsMeet s with
    | none => (s, standingReads s)
    | some steps =>
      let s1 := steps (Config.readExtent s.freeDraws) s
      let drawn := fun t : State => { t with freeDraws := s.freeDraws + 1 }
      match Config.readPoint s.freeDraws with
      | .afterReads => (drawn s, standingReads s)
      | .beforeDirectory =>
        (drawn s1, { standingReads s with entries := s1.glyphs.entries, budget := s1.status.settings.lineBudget })
      | .beforeSettings => (drawn s1, { standingReads s with budget := s1.status.settings.lineBudget })
      | .beforeGeometry => (drawn s1, standingReads s)
  else (s, standingReads s)

/-- An LS taken in FRAME or RAW (R101, R103): the open line ends first. What ends with it changes neither bank nor
directory. -/
def takeLs (kind : LineKind) (index : Nat) (s : State) : State :=
  let f := lsFinds kind index s
  openLine kind index f.2 (judgeLs kind index (endOpenLine f.1))

/-- The first address outside the store that a plan reads, if any (log 19). -/
def planOutside (p : Option Plan) : Option Nat :=
  (p.map (fun p => p.bytes.map (·.addr))).bind (fun as => as.find? (fun a => decide (Config.storeBytes ≤ a)))

/-- The address at which an LS faults: one outside the store that the plan it takes would read. A blank line takes no
plan. -/
def lsFault (kind : LineKind) (t : State) : Option Nat :=
  match kind with
  | .active => planOutside t.comp.plan
  | .blank => none

/-- LS (R96, R101, R103, R104). In HUNT and GAP it is discarded. A plan that would read outside the store faults. -/
def execLs (kind : LineKind) (index : Nat) (s : State) : Host.Outcome State Fault Refusal :=
  match s.rx.lock with
  | .hunt => .next s
  | .gap => .next s
  | .frame =>
    match lsFault kind (takeLs kind index s) with
    | some a => .fault (.storeAddress a)
    | none => .next (takeLs kind index s)
  | .raw => .next (takeLs kind index s)

/-! ## DATA_BYTE (R102, R103) -/

/-- A byte of the open line goes where the line's kind sends it (R102). -/
def lineByte (b : Byte) (l : OpenLine) (s : State) : State :=
  let n := l.count + 1
  let full := lineBytes s
  let s1 := { s with rx := { s.rx with openLine := some { l with count := n } } }
  let s2 := if full < n then faultToRaw .lineLength s1 else s1
  match l.kind with
  | .active => activeByte b n full s2
  | .blank => blankByte b n full s2

/-- A byte arriving in FRAME or RAW (R102): with no line open it is a fault in FRAME, and is discarded. -/
def takeByte (b : Byte) (s : State) : State :=
  match s.rx.openLine with
  | none => faultToRaw .lineLength s
  | some l => lineByte b l s

/-- DATA_BYTE (R96, R102 to R104). In HUNT and GAP it is discarded. -/
def execDataByte (b : Byte) (s : State) : Host.Outcome State Fault Refusal :=
  match s.rx.lock with
  | .hunt => .next s
  | .gap => .next s
  | .frame => .next (takeByte b s)
  | .raw => .next (takeByte b s)

/-! ## FE (R104) -/

/-- The counts of an FE agree with the lines seen, and the active lines are H (R104). -/
def countsAgree (active blank : Word) (s : State) : Bool :=
  decide (active.toNat = s.rx.activeSeen) && decide (blank.toNat = s.rx.blankSeen)
    && decide (s.rx.activeSeen = (s.rx.geometry.map (·.height)).getD 0)

/-- The FE is judged in FRAME, in the order of R104; in RAW it is not. -/
def judgeFe (active blank : Word) (abort : Bool) (s : State) : State :=
  match s.rx.lock with
  | .frame =>
    if abort then firstFault .aborted s
    else if countsAgree active blank s then bump .framesGood 1 s
    else firstFault .frameLength s
  | .raw => s
  | .hunt => s
  | .gap => s

/-- An FE taken in FRAME or RAW: the open line ends, the FE is judged, goes to the transmitter, and the receiver moves to
GAP (R104, R118). -/
def takeFe (active blank : Word) (abort : Bool) (s : State) : State :=
  appendItem (.fe active blank abort) (setLock .gap (judgeFe active blank abort (endOpenLine s)))

/-- FE (R96, R104). In HUNT it is discarded; in GAP it is a stray FE. -/
def execFe (active blank : Word) (abort : Bool) (s : State) : Host.Outcome State Fault Refusal :=
  match s.rx.lock with
  | .hunt => .next s
  | .gap => .next (strayEnd s)
  | .frame => .next (takeFe active blank abort s)
  | .raw => .next (takeFe active blank abort s)

/-! ## IDL (R93) -/

/-- IDL: discarded in every state (R93). -/
def execIdl (s : State) : Host.Outcome State Fault Refusal := .next s

/-! ## Lock loss (R106 to R108) -/

/-- The frame cut mid-frame at the transmitter (R121): the cut line is removed and an aborted FE appended. -/
def cutFrame (s : State) : State := appendAbortedFe (removeCutLine s)

/-- The receiver's own state at a lock loss: HUNT, watchdog stopped, geometry absent, per-frame state cleared; the last
frame number and the last fault kind stay (R108). -/
def dropLock (s : State) : State :=
  { s with rx := { Receiver.reset with lastFrame := s.rx.lastFrame, lastFault := s.rx.lastFault } }

/-- A lock loss from FRAME, RAW or GAP, as one action (R108); `midFrame` in FRAME and RAW. -/
def lockLoss (cause : LossCause) (midFrame : Bool) (s : State) : State :=
  let s1 := if midFrame then cutFrame s else s
  markLoss cause (bump .lockLosses 1 (dropLock (cutBlank (discardCompositor s1))))

/-- A lock loss event in any lock state; in HUNT it changes nothing (R107, R110). -/
def loseLock (cause : LossCause) (s : State) : State :=
  match s.rx.lock with
  | .hunt => s
  | .frame => lockLoss cause true s
  | .raw => lockLoss cause true s
  | .gap => lockLoss cause false s

/-- SIGNAL_LOSS (R107). -/
def execSignalLoss (s : State) : Host.Outcome State Fault Refusal := .next (loseLock .signal s)

/-- WATCHDOG_EXPIRY (R106). A watchdog that is stopped does not expire (log 1). -/
def execWatchdogExpiry (s : State) : Host.Outcome State Fault Refusal :=
  match s.rx.watchdog with
  | none => .next s
  | some _ => .next (loseLock .watchdog s)

end Sys2Proof.Machine
end

