-- ==== Sys2Proof/Machine/Dispatch.lean ====
section
/-! DEFINITION. Which meaning each command has: one arm for each row of spec/opcode_table.json. -/

namespace Sys2Proof.Machine

/-- The effect of a command on everything but the queue of commands. -/
def exec (i : Instr) (s : State) : Host.Outcome State Fault Refusal :=
  match i with
  | .pinReset => Sys2Proof.Machine.execPinReset s
  | .fs frame width height => Sys2Proof.Machine.execFs frame width height s
  | .ls kind index => Sys2Proof.Machine.execLs kind index s
  | .dataByte byte => Sys2Proof.Machine.execDataByte byte s
  | .fe active blank abort => Sys2Proof.Machine.execFe active blank abort s
  | .idl => Sys2Proof.Machine.execIdl s
  | .signalLoss => Sys2Proof.Machine.execSignalLoss s
  | .watchdogExpiry => Sys2Proof.Machine.execWatchdogExpiry s
  | .leaseExpiry layer frame => Sys2Proof.Machine.execLeaseExpiry layer frame s
  | .assign => Sys2Proof.Machine.execAssign s
  | .identify => Sys2Proof.Machine.execIdentify s
  | .configWrite => Sys2Proof.Machine.execConfigWrite s
  | .statusRead => Sys2Proof.Machine.execStatusRead s
  | .resetTables => Sys2Proof.Machine.execResetTables s
  | .resetNode => Sys2Proof.Machine.execResetNode s
  | .claim => Sys2Proof.Machine.execClaim s
  | .release => Sys2Proof.Machine.execRelease s
  | .layerWrite => Sys2Proof.Machine.execLayerWrite s
  | .layerRead => Sys2Proof.Machine.execLayerRead s
  | .commit => Sys2Proof.Machine.execCommit s
  | .glyphDefine => Sys2Proof.Machine.execGlyphDefine s
  | .glyphLoad => Sys2Proof.Machine.execGlyphLoad s
  | .glyphLoadComplete => Sys2Proof.Machine.execGlyphLoadComplete s
  | .glyphDelete => Sys2Proof.Machine.execGlyphDelete s
  | .glyphQuery => Sys2Proof.Machine.execGlyphQuery s
  | .unknownKind => Sys2Proof.Machine.execUnknownKind s
  | .noticeBuild => Sys2Proof.Machine.execNoticeBuild s
  | .fsSent => Sys2Proof.Machine.execFsSent s
  | .lineSent => Sys2Proof.Machine.execLineSent s
  | .feSent => Sys2Proof.Machine.execFeSent s
  | .idlSent => Sys2Proof.Machine.execIdlSent s
  | .returnPacketEnd => Sys2Proof.Machine.execReturnPacketEnd s
  | .returnSignalLoss => Sys2Proof.Machine.execReturnSignalLoss s
  | .laneFree => Sys2Proof.Machine.execLaneFree s
  | .returnPacketStart => Sys2Proof.Machine.execReturnPacketStart s
  | .returnPacketByte byte => Sys2Proof.Machine.execReturnPacketByte byte s

end Sys2Proof.Machine
end

