-- ==== Sys2Proof/Safety.lean ====
section
/-! DEFINITION. The words in which statements about the part are made: what waits to leave on the return lane, when the
agent takes a request and what answering it leaves, the values of pin reset, and the properties that every step keeps. -/

namespace Sys2Proof.Machine

/-! ## What waits to leave on the return lane -/

/-- The node's own packets that have not wholly left: the one in sending, then the reply queue in order (R146, R160). -/
def ownTraffic (s : State) : List Queued :=
  (match s.relay.sending with
    | some (.own q) => [q]
    | some (.relayed _) => []
    | none => []) ++ s.agent.replies

/-- The relayed packets that have not wholly left: the one in sending, then the relay FIFO in order (R160, R162). -/
def relayTraffic (s : State) : List Packet :=
  (match s.relay.sending with
    | some (.relayed p) => [p]
    | some (.own _) => []
    | none => []) ++ s.relay.fifo

/-! ## Requests -/

/-- The request `p` is the one that the agent's next step is with (R144, R145, R147), and `rest` waits behind it: the agent is
IDLE and finds it at the head of the inbound request queue, with a place to reserve where it is addressed; or the agent has
taken it and judged it so. -/
def InHand (p : Packet) (judgement : Judgement) (rest : List Packet) (s : State) : Prop :=
  s.agent.busy = none ∧ s.agent.inbound = p :: rest ∧ (packetBroadcast p = true ∨ canReserve s = true)
  ∨ s.agent.busy = some (.taken p judgement) ∧ s.agent.inbound = rest

/-- The next command of the agent's rows carries `p`, an addressed request of kind `k` that is to be executed, through to its
reply (R144, R145). -/
def Takes (k : Byte) (p : Packet) (rest : List Packet) (s : State) : Prop :=
  nextExtent s = .replied ∧ InHand p .execute rest s ∧ packetKind p = k ∧ packetBroadcast p = false

/-- The same for a broadcast request, which has no reply (R144, R149): the command carries it through to its action. -/
def TakesBroadcast (k : Byte) (p : Packet) (rest : List Packet) (s : State) : Prop :=
  nextExtent s ≠ .taken ∧ InHand p .execute rest s ∧ packetKind p = k ∧ packetBroadcast p = true

/-- What the end of a request's execution leaves where nothing else changes: the agent is IDLE, `rest` waits, a place left to an
agent that was IDLE has been used (R144, R147), and so has the extent of the command (log 28). -/
def finished (rest : List Packet) (s : State) : State :=
  { s with
    extents := s.extents.tail
    agent := { s.agent with inbound := rest, busy := none, granted := s.agent.granted && s.agent.busy.isSome } }

/-- A request that is no duplicate (R151): its source's context is UNKNOWN or remembers another sequence. -/
def Fresh (r : Request) (s : State) : Prop :=
  (s.context r.source).state = .unknown ∨ (s.context r.source).lastSeq ≠ some r.seq

/-- The reply packet that answers a request from a node of the given address (R140, R153). -/
def replyPacket (address : Byte) (r : Request) (a : Answer) : Packet :=
  sealPacket address r.source r.seq 0x80 ([r.kind, BitVec.ofNat 8 a.status.code] ++ a.data)

/-- What answering the request `r` with `a` leaves of the agent and the relay (R144, R146, R152, R153): the inbound queue
holds `rest`, the agent is IDLE, the reply stands last among the node's own packets as the cached copy, the relayed packets
are as they were, and no context but the source's differs. A place left to the agent has been used, where it was IDLE, and so
has the extent of the command. -/
def Answered (s : State) (r : Request) (rest : List Packet) (a : Answer) (t : State) : Prop :=
  t.agent.inbound = rest ∧ t.agent.busy = none ∧ t.agent.lastServed = s.agent.lastServed
  ∧ t.agent.granted = (s.agent.granted && s.agent.busy.isSome) ∧ t.extents = s.extents.tail
  ∧ ownTraffic t = (ownTraffic s).map (dropCopyNote r.source) ++ [⟨replyPacket t.sorter.address r a, .reply, true⟩]
  ∧ relayTraffic t = relayTraffic s ∧ t.relay.receiving = s.relay.receiving ∧ t.relay.lane = s.relay.lane
  ∧ t.context r.source
      = { s.context r.source with
          state := .active, lastSeq := some r.seq, cached := some (replyPacket t.sorter.address r a),
          cachedQueued := true }
  ∧ ∀ src, src ≠ r.source → t.context src = s.context src

/-- What a KIND or LENGTH reply of the agent's own leaves of the agent and the relay (R148): the reply stands last among
the node's own packets, no copy of a cached reply, and no context differs. -/
def AnsweredUncached (s : State) (r : Request) (rest : List Packet) (st : Status) (t : State) : Prop :=
  t.agent.inbound = rest ∧ t.agent.busy = none ∧ t.agent.lastServed = s.agent.lastServed
  ∧ t.agent.granted = (s.agent.granted && s.agent.busy.isSome) ∧ t.extents = s.extents.tail
  ∧ t.agent.contexts = s.agent.contexts
  ∧ ownTraffic t = ownTraffic s ++ [⟨replyPacket s.sorter.address r ⟨st, []⟩, .reply, false⟩]
  ∧ relayTraffic t = relayTraffic s ∧ t.relay.receiving = s.relay.receiving ∧ t.relay.lane = s.relay.lane

/-- What placing the cached reply `q` of the source of `r` again leaves of the agent and the relay (R151): it stands last among
the node's own packets, and the source's mark is set. -/
def AnsweredAgain (s : State) (r : Request) (rest : List Packet) (q : Packet) (t : State) : Prop :=
  t.agent.inbound = rest ∧ t.agent.busy = none ∧ t.agent.lastServed = s.agent.lastServed
  ∧ t.agent.granted = (s.agent.granted && s.agent.busy.isSome) ∧ t.extents = s.extents.tail
  ∧ ownTraffic t = ownTraffic s ++ [⟨q, .reply, true⟩]
  ∧ relayTraffic t = relayTraffic s ∧ t.relay.receiving = s.relay.receiving ∧ t.relay.lane = s.relay.lane
  ∧ t.context r.source = { s.context r.source with cachedQueued := true }
  ∧ ∀ src, src ≠ r.source → t.context src = s.context src

/-- Every block but the agent and the relay is as in `s`, and so is the queue of commands. -/
def OnlyAgentAndRelay (s t : State) : Prop :=
  { t with agent := s.agent, relay := s.relay, extents := s.extents } = s

/-- The kind of request that a row of the agent executes; no other command executes a request (R139). -/
def servedKind : Instr → Option Byte
  | .assign => some kindAssign
  | .identify => some kindIdentify
  | .configWrite => some kindConfigWrite
  | .statusRead => some kindStatusRead
  | .resetTables | .resetNode => some kindReset
  | .claim => some kindClaim
  | .release => some kindRelease
  | .layerWrite => some kindLayerWrite
  | .layerRead => some kindLayerRead
  | .commit => some kindCommit
  | .glyphDefine => some kindGlyphDefine
  | .glyphLoad => some kindGlyphLoad
  | .glyphDelete => some kindGlyphDelete
  | .glyphQuery => some kindGlyphQuery
  | .pinReset | .fs _ _ _ | .ls _ _ | .dataByte _ | .fe _ _ _ | .idl | .signalLoss | .watchdogExpiry
  | .leaseExpiry _ _ | .glyphLoadComplete | .unknownKind | .noticeBuild | .fsSent | .lineSent | .feSent | .idlSent
  | .returnPacketEnd | .returnSignalLoss | .laneFree | .returnPacketStart | .returnPacketByte _ => none

/-- A row of the agent executes the request `r`: its kind is the row's, and a RESET of a valid scope is executed by the
row of that scope alone (log 4). -/
def ServesRequest (c : Instr) (r : Request) : Prop :=
  servedKind c = some r.kind
  ∧ (c = .resetTables → namesScope 1 r.payload = false) ∧ (c = .resetNode → namesScope 0 r.payload = false)

/-- The same of the request that a packet carries. -/
def Serves (c : Instr) (p : Packet) : Prop := ServesRequest c (requestOf p)

/-- A row of the agent has to do with the request `r`: it executes it, or it is UNKNOWN_KIND and the kind is unknown (R148). -/
def RowOf (c : Instr) (r : Request) : Prop := ServesRequest c r ∨ c = .unknownKind ∧ r.kind ∉ requestKinds

/-- What carrying the request in execution to its completion makes of `v` (R144, R145): nothing, where the agent is IDLE or a
load is in execution; else what a command of the request's row makes, carried through, but that no extent of the sender's is
used (log 28). -/
def RequestCompleted (v u : State) : Prop :=
  match v.agent.busy with
  | none => u = v
  | some (.load _) => u = v
  | some (.taken p _) => ∃ c, RowOf c (requestOf p) ∧ exec c { v with extents := .replied :: v.extents } = .next u
  | some (.acted r _) => ∃ c, RowOf c r ∧ exec c { v with extents := .replied :: v.extents } = .next u

/-- No request is in execution but a load, whose writes a FRAME_START may fall among (R145). -/
def BetweenRequests (s : State) : Prop := s.agent.busy = none ∨ ∃ run, s.agent.busy = some (.load run)

/-- The rows of the agent that take a request. -/
def requestRows : List Instr :=
  [.assign, .identify, .configWrite, .statusRead, .resetTables, .resetNode, .claim, .release, .layerWrite, .layerRead,
   .commit, .glyphDefine, .glyphLoad, .glyphDelete, .glyphQuery, .unknownKind]

/-- The rows of the agent that execute a broadcast request too (R130, R149). -/
def broadcastRows : List Instr := [.commit, .resetTables, .resetNode]

/-- The payload lengths that the agent accepts for a kind (R148). -/
def lengthAccepted (k : Byte) (payload : List Byte) : Bool :=
  if k = kindIdentify then decide (payload.length = 0)
  else if k = kindAssign ∨ k = kindStatusRead ∨ k = kindReset ∨ k = kindGlyphDelete ∨ k = kindGlyphQuery then
    decide (payload.length = 1)
  else if k = kindRelease ∨ k = kindLayerRead then decide (payload.length = 2)
  else if k = kindClaim ∨ k = kindCommit then decide (payload.length = 4)
  else if k = kindGlyphDefine then decide (payload.length = 5)
  else if k = kindGlyphLoad then decide (5 ≤ payload.length) && decide (payload.length ≤ 240)
  else if k = kindConfigWrite then configLengthOk payload
  else if k = kindLayerWrite then layerWriteLengthOk payload
  else false

/-- A run of `n` free blocks from block `first` (R33). -/
def RunFree (s : State) (first n : Nat) : Prop :=
  first + n ≤ 512 ∧ ∀ k : Fin 512, first ≤ k.val → k.val < first + n → s.glyphs.blockMap[k] = none

/-- The tables that a RESET of either scope clears (R24, R49, R157). -/
def TablesCleared (t : State) : Prop :=
  (∀ l, t.pendingRecord l = LayerRecord.default ∧ t.activeRecord l = LayerRecord.default
    ∧ t.ownership l = ⟨none, 0, 0⟩)
  ∧ t.layers.commits = [] ∧ (∀ e, t.entry e = none) ∧ ∀ k : Fin 512, t.glyphs.blockMap[k] = none

/-- A commit list with one entry armed (R13, R14): the source's entry replaced in place, or a new entry at the end. -/
def armed (c : CommitEntry) (commits : List CommitEntry) : List CommitEntry :=
  if commits.any (fun e => decide (e.source = c.source)) then
    commits.map (fun e => if e.source = c.source then c else e)
  else commits ++ [c]

/-! ## Pin reset -/

/-- The values that pin reset gives (R23, R48, R77, R92, R111, R124, R135, R159, R168, R179). -/
def PinResetValues (t : State) : Prop :=
  t.rx = { lock := .hunt, geometry := none, lastFrame := none, openLine := none, expectedActive := 0, expectedBlank := 0,
           activeSeen := 0, blankSeen := 0, faulted := false, lastFault := none, watchdog := none }
  ∧ t.sorter = { address := 0, line := none }
  ∧ t.agent.inbound = [] ∧ t.agent.busy = none ∧ t.agent.replies = [] ∧ t.agent.lastServed = 7
  ∧ t.agent.granted = false
  ∧ (∀ src, t.context src
      = { state := .unknown, lastSeq := none, cached := none, cachedQueued := false, noticeSeq := 0,
          noticeOutstanding := false, commitItem := none, leaseItem := none, lockItem := none, budgetItem := none })
  ∧ (∀ l, t.pendingRecord l = LayerRecord.default ∧ t.activeRecord l = LayerRecord.default
      ∧ t.ownership l = ⟨none, 0, 0⟩)
  ∧ t.layers.commits = [] ∧ t.layers.firstExpiry = none
  ∧ (∀ e, t.entry e = none) ∧ (∀ k : Fin 512, t.glyphs.blockMap[k] = none)
  ∧ (∀ a, Memory.read? t.glyphs.bytes a = none)
  ∧ t.comp = { geometry := none, plan := none, arriving := none, leaving := none }
  ∧ t.tx.state = .idle ∧ t.tx.sequence = [] ∧ t.tx.activeSent = 0 ∧ t.tx.blankSent = 0
  ∧ t.relay.fifo = [] ∧ t.relay.receiving = none ∧ t.relay.sending = none ∧ t.relay.lastServed = .reply
  ∧ t.status.settings
      = { lineBudget := 2048, frameTimeout := 50, expiryAction := .hide, listener := none, forcePass := false }
  ∧ ∀ c, t.counter c = 0

/-! ## The stream -/

/-- The receiver is inside a frame. -/
def InFrame (s : State) : Prop := s.rx.lock = .frame ∨ s.rx.lock = .raw

/-- What an item of the frame in progress leaves alone: the layer table, the directory and the store, the relay, the settings,
the node address, the replies and the request in execution, and the counters that no item counts in. -/
def StreamFrame (s t : State) : Prop :=
  { t with
    rx := s.rx, comp := s.comp, tx := s.tx, sorter := { t.sorter with line := s.sorter.line }
    agent := { t.agent with inbound := s.agent.inbound, contexts := s.agent.contexts }
    status := { t.status with counters := s.status.counters }, freeDraws := s.freeDraws } = s
  ∧ ∀ c, c = .lockLosses ∨ c = .reqDuplicate ∨ c = .relayOverflow ∨ c = .relayBadCrc → t.counter c = s.counter c

/-- What a command leaves of a load in execution and of the store where the load's writes have gone on to its first `n` data
bytes (R38, log 9): those from the ones written before to the `n`-th stand at their addresses, and no other byte differs.
With no load in execution nothing does. -/
def LoadWrittenTo (n : Nat) (s t : State) : Prop :=
  match s.agent.busy with
  | none => t.agent.busy = none ∧ t.glyphs.bytes = s.glyphs.bytes
  | some (.taken p j) => t.agent.busy = some (.taken p j) ∧ t.glyphs.bytes = s.glyphs.bytes
  | some (.acted r due) => t.agent.busy = some (.acted r due) ∧ t.glyphs.bytes = s.glyphs.bytes
  | some (.load run) =>
    run.written ≤ n ∧ n ≤ max run.written run.data.length ∧ t.agent.busy = some (.load { run with written := n })
      ∧ ∀ a, Memory.read? t.glyphs.bytes a
          = if run.base + run.written ≤ a ∧ a < run.base + n then run.data[a - run.base]?
            else Memory.read? s.glyphs.bytes a

/-- What an LS or a data byte leaves alone: as any item of the frame, but for the writes of a load in execution. -/
def LineFrame (s t : State) : Prop :=
  StreamFrame s { t with
    glyphs := { t.glyphs with bytes := s.glyphs.bytes }
    agent := { t.agent with busy := s.agent.busy } }
  ∧ ∃ n, LoadWrittenTo n s t

/-- A plan whose bytes have been read on (R46, R64, log 10) while the writes of a load in execution have gone on to its first
`n` data bytes: the same plan, but that each byte has its old value or the one that the load has written to it since. -/
def Reread (s : State) (n : Nat) (p q : Plan) : Prop :=
  q.line = p.line ∧ q.entries = p.entries ∧ q.bytes.length = p.bytes.length
  ∧ ∀ (i : Nat) (b c : FetchedByte), p.bytes[i]? = some b → q.bytes[i]? = some c →
      c.addr = b.addr
      ∧ (c.value = b.value ∨ ∃ run, s.agent.busy = some (.load run) ∧ newByte run n b.addr = some c.value)

/-- What rereading the bytes of a planned line makes of the compositor (R46, R64, R72, log 10): the pixels that the line has by
then stand as the bytes so read give them. With no plan nothing changes. -/
def LineReread (s : State) (n : Nat) (c d : Compositor) : Prop :=
  match c.plan with
  | none => d = c
  | some p => ∃ q, Reread s n p q ∧ d = { c with
      plan := some q
      arriving := c.arriving.map (fun a => { a with composited := drawnBytes q a.received (a.composited.length / 3) }) }

/-- The arriving slot holds the composited values of the first `k` pixels of a planned line, as the plan's bytes give them
(R65, R72). -/
def DrawnTo (k : Nat) (p : Plan) (a : Arriving) : Prop := a.composited = drawnBytes p a.received k

/-- What an LS may find of a RESET or a CONFIG_WRITE that is the agent's next request (R53, R76, R145, R171): the state after a
command of its row that comes as far as `upTo`, but that no extent of the sender's is used (log 11). -/
def SteppedAhead (s v : State) : Prop :=
  ∃ c upTo, (c = .resetTables ∨ c = .resetNode ∨ c = .configWrite)
    ∧ exec c { s with extents := upTo :: s.extents } = .next v

/-- A forward-lane item that ends an open line in FRAME or RAW, with the items that it adds to the output sequence (R99, R100,
R101, R104). -/
def EndsLine (c : Instr) (items : List OutItem) : Prop :=
  (∃ kind index, c = .ls kind index ∧ items = [.line ⟨kind, index, .incomplete, []⟩])
  ∨ (∃ a b x, c = .fe a b x ∧ items = [.fe a b x])
  ∨ ∃ f w h, c = .fs f w h ∧ items = [.abortedFe, .fs f w h]

/-- A line is open that has not reached its 3·W bytes (R102). -/
def openShort (s : State) : Bool :=
  match s.rx.openLine with
  | none => false
  | some l => decide (l.count < lineBytes s)

/-- Whether an LS is taken in FRAME (R101): the open line has not proved short, and the index is the expected one. -/
def lsGood (s : State) (kind : LineKind) (index : Nat) : Bool :=
  decide (s.rx.lock = .frame) && !openShort s
    && (match kind with
      | .active => decide (index = s.rx.expectedActive) && decide (index < (s.rx.geometry.map (·.height)).getD 0)
      | .blank => decide (index = s.rx.expectedBlank) && decide (index < 1024))

/-- The decision of R130 against a node address, and whether the packet counts as malformed with it. -/
def decided (address : Byte) (p : Packet) : Decision × Bool :=
  if packetDest p = 63 then
    if packetKind p = 0x22 ∨ packetKind p = 0x0F then (.both, false) else (.forward, true)
  else if packetDest p = address then (.consume, false)
  else (.forward, false)

/-- Whether a layer expires at the next FRAME_START (R84). -/
def expiring (s : State) (l : LayerId) : Bool := (s.ownership l).owner.isSome && decide ((s.ownership l).remaining = 1)

/-- A record after the HIDE action, where it applies (R85). -/
def hidden (hide : Bool) (r : LayerRecord) : LayerRecord := if hide then { r with visible := false } else r

/-- Whether the next FRAME_START hides a layer (R85, R86). -/
def hides (s : State) (l : LayerId) : Bool := expiring s l && decide (s.status.settings.expiryAction = .hide)

/-- Whether the copies of the next FRAME_START reach a layer (R17, R18): a commit-list entry of its owner names it, and its
lease does not run out. -/
def copied (s : State) (l : LayerId) : Bool :=
  s.layers.commits.any (fun c => namesLayer c.mask l && decide ((s.ownership l).owner = some c.source)) && !expiring s l

/-- How many ACTIVE records those copies turn away from an entry (R7). -/
def refsLost (s : State) (e : GlyphId) : Nat :=
  layerIds.countP (fun l => copied s l && decide (contribution (s.activeRecord l) = some e)
    && !decide (contribution (s.pendingRecord l) = some e))

/-- How many ACTIVE records those copies turn to an entry (R7). -/
def refsGained (s : State) (e : GlyphId) : Nat :=
  layerIds.countP (fun l => copied s l && decide (contribution (s.pendingRecord l) = some e)
    && !decide (contribution (s.activeRecord l) = some e))

/-- What the FRAME_START of a frame, taken in `u`, leaves alone (R7, R17, R19, R51, R87): all but the compositor's geometry, the
layer table, the reference counts of entries, and the commit-applied and lease-expired items of contexts. -/
def FrameStartFrame (geo : Geometry) (u t : State) : Prop :=
  t.comp = { u.comp with geometry := some geo }
  ∧ (∀ e, (t.entry e).map (fun g => { g with refs := 0 }) = (u.entry e).map (fun g => { g with refs := 0 }))
  ∧ (∀ src, { t.context src with commitItem := none, leaseItem := none }
      = { u.context src with commitItem := none, leaseItem := none })
  ∧ { t with
      comp := u.comp, layers := u.layers
      agent := { t.agent with contexts := u.agent.contexts }
      glyphs := { t.glyphs with entries := u.glyphs.entries } } = u

/-! ## What every step keeps -/

/-- The glyph store keeps its canonical form, inside its address space (R30). -/
def StoreCanonical (s : State) : Prop := Memory.wf s.glyphs.bytes = true

/-- No queue holds more than it has places (R143, R146, R160), a place left to the agent stays free while it wants one (R147),
a broadcast taken, which has no place, is judged by its length alone (R149), and the lane is FREE only while nothing waits for
it; the class last served is that of the packet in sending (R164). -/
def QueuesBounded (s : State) : Prop :=
  s.agent.inbound.length ≤ 4 ∧ s.agent.replies.length + reservedPlaces s ≤ 8
  ∧ s.relay.fifo.length ≤ 4 ∧ (s.agent.granted = true → wantsPlace s = true ∧ 1 ≤ freePlaces s)
  ∧ (∀ p j, s.agent.busy = some (.taken p j) → packetBroadcast p = true → j = .execute ∨ j = .discarded)
  ∧ (match s.relay.sending with
      | none => s.relay.fifo = [] ∧ s.agent.replies = []
      | some (.relayed _) => s.relay.lastServed = .relay
      | some (.own _) => s.relay.lastServed = .reply)

/-- The ownership fields of every layer agree (R78). -/
def LeasesSound (s : State) : Prop :=
  ∀ l, match (s.ownership l).owner with
    | none => (s.ownership l).length = 0 ∧ (s.ownership l).remaining = 0
    | some _ => 1 ≤ (s.ownership l).remaining ∧ (s.ownership l).remaining ≤ (s.ownership l).length
        ∧ (s.ownership l).length ≤ 4095

/-- The commit list holds at most one entry a source, each naming a layer (R13). -/
def CommitsSound (s : State) : Prop :=
  (s.layers.commits.map (·.source)).Nodup ∧ s.layers.commits.length ≤ 8 ∧ ∀ c ∈ s.layers.commits, c.mask ≠ 0

/-- Every owner of a layer and every source of an armed commit has an ACTIVE context, so that its items are kept (R19, R87, R150);
or its first request has been executed, and the reply that makes it ACTIVE is due (R145, R152). -/
def SourcesKnown (s : State) : Prop :=
  ∀ src, (∃ l, (s.ownership l).owner = some src) ∨ (∃ c ∈ s.layers.commits, c.source = src) →
    (s.context src).state = .active
    ∨ ∃ r a, s.agent.busy = some (.acted r (.executed a)) ∧ r.source = src

/-- A layer record within the ranges of R3. -/
def RecordInRange (r : LayerRecord) : Prop :=
  -2048 ≤ r.x ∧ r.x ≤ 2047 ∧ -2048 ≤ r.y ∧ r.y ≤ 2047 ∧ 1 ≤ r.width ∧ r.width ≤ 2048 ∧ 1 ≤ r.height ∧ r.height ≤ 2048
  ∧ 1 ≤ r.scaleH ∧ r.scaleH ≤ 4 ∧ 1 ≤ r.scaleV ∧ r.scaleV ≤ 4
  ∧ ∀ c, r.clip = some c → c.x0 ≤ c.x1 ∧ c.y0 ≤ c.y1 ∧ c.x1 ≤ 2047 ∧ c.y1 ≤ 2047

/-- Every record of both banks is within its ranges (R3, note 5). -/
def RecordsInRange (s : State) : Prop := ∀ l, RecordInRange (s.pendingRecord l) ∧ RecordInRange (s.activeRecord l)

/-- Every counter, setting and the node address lie within their ranges (R135, R169, R176). -/
def StatusInRange (s : State) : Prop :=
  (∀ c, s.counter c ≤ 4294967295)
  ∧ 256 ≤ s.status.settings.lineBudget ∧ s.status.settings.lineBudget ≤ 4096
  ∧ 1 ≤ s.status.settings.frameTimeout ∧ s.status.settings.frameTimeout ≤ 255
  ∧ s.sorter.address.toNat ≤ 62

/-- The number of records, over both banks, of kind GLYPH that name an entry (R43). -/
def recordCount (s : State) (e : GlyphId) : Nat :=
  layerIds.countP (fun l => decide (contribution (s.pendingRecord l) = some e))
    + layerIds.countP (fun l => decide (contribution (s.activeRecord l) = some e))

/-- Every entry's reference count is the number of records that name it, and none names a FREE entry (R43). -/
def ReferencesCounted (s : State) : Prop :=
  ∀ e, match s.entry e with
    | none => recordCount s e = 0
    | some g => g.refs = recordCount s e

/-- The fields of a LOADING or READY entry agree with one another (R26, R27, R29). -/
def GlyphSound (g : Glyph) : Prop :=
  1 ≤ g.width ∧ g.width ≤ 1024 ∧ 1 ≤ g.height ∧ g.height ≤ 1024
  ∧ g.stride = (g.width * bitsPerPixel g.format + 7) / 8 ∧ g.size = g.stride * g.height ∧ g.size ≤ 131072
  ∧ g.blockCount = (g.size + 255) / 256 ∧ g.firstBlock + g.blockCount ≤ 512
  ∧ g.loaded ≤ g.size ∧ (g.state = .ready ↔ g.loaded = g.size)

/-- Every entry is sound; the block map gives each block to the one entry whose run contains it (R30); a load in execution
stays inside its glyph (R35), and the data bytes that it has written stand in the store (R38). -/
def DirectorySound (s : State) : Prop :=
  (∀ e g, s.entry e = some g → GlyphSound g)
  ∧ (∀ (k : Fin 512) (e : GlyphId), s.glyphs.blockMap[k] = some e
      ↔ ∃ g, s.entry e = some g ∧ g.firstBlock ≤ k.val ∧ k.val < g.firstBlock + g.blockCount)
  ∧ (∀ run, s.agent.busy = some (.load run) → ∃ g, s.entry run.index = some g ∧ g.owner = run.source
      ∧ run.base = g.firstBlock * 256 + run.offset ∧ run.offset + run.data.length ≤ g.size
      ∧ (g.state = .loading → run.offset = g.loaded)
      ∧ run.written ≤ run.data.length
      ∧ ∀ i, i < run.written → Memory.read? s.glyphs.bytes (run.base + i) = run.data[i]?)

/-- An UNKNOWN context is empty; an ACTIVE one remembers a request and its reply (R150). -/
def ContextsSound (s : State) : Prop :=
  ∀ src, match (s.context src).state with
    | .unknown => s.context src = Context.empty
    | .active => (s.context src).lastSeq.isSome ∧ (s.context src).cached.isSome

/-- Whether a packet of the node's own carries the note of the given class for a source. -/
def notedFor (cls : ReplyClass) (src : SourceId) (q : Queued) : Bool :=
  q.note && decide (q.cls = cls) && decide (packetSource q.packet = src)

/-- The cached reply that a duplicate in execution is to be answered with (R151), with its source. -/
def copyDue (s : State) : Option (SourceId × Packet) :=
  match s.agent.busy with
  | none => none
  | some (.load _) => none
  | some (.taken p j) =>
    match j with
    | .duplicate copy => copy.map (fun q => (packetSource p, q))
    | .execute => none
    | .discarded => none
    | .refused _ => none
  | some (.acted r due) =>
    match due with
    | .copied q => some (r.source, q)
    | .executed _ => none
    | .refused _ => none

/-- Each mark of a context is set exactly while one packet carries its note (R150, R152, R156); while a cached reply is to be
placed again no copy of it is on its way (R151). -/
def NotesSound (s : State) : Prop :=
  ∀ src, (ownTraffic s).countP (notedFor .reply src) = (if (s.context src).cachedQueued then 1 else 0)
    ∧ (ownTraffic s).countP (notedFor .notice src) = (if (s.context src).noticeOutstanding then 1 else 0)
    ∧ (∀ p, (s.context src).cached = some p → packetSource p = src)
    ∧ ∀ q, copyDue s = some (src, q) → (s.context src).cached = some q ∧ (s.context src).cachedQueued = false

/-- The receiver's fields agree with its lock state (R95, R105, R106, R108). -/
def ReceiverSound (s : State) : Prop :=
  s.rx.expectedActive = s.rx.activeSeen ∧ s.rx.expectedBlank = s.rx.blankSeen
  ∧ s.rx.expectedActive ≤ 2048 ∧ s.rx.expectedBlank ≤ 1024
  ∧ (s.rx.lock = .hunt → s.rx.watchdog = none ∧ s.rx.geometry = none ∧ s.rx.openLine = none ∧ s.rx.faulted = false
      ∧ s.comp.geometry = none)
  ∧ (s.rx.lock ≠ .hunt → s.rx.geometry.isSome ∧ ∃ w, s.rx.watchdog = some w ∧ 1 ≤ w ∧ w ≤ 255)
  ∧ (s.rx.lock = .gap → s.rx.openLine = none)
  ∧ (s.rx.lock = .frame → s.rx.faulted = false ∧ s.comp.geometry = s.rx.geometry
      ∧ ∀ geo, s.rx.geometry = some geo → 16 ≤ geo.width ∧ geo.width ≤ 2048 ∧ 16 ≤ geo.height ∧ geo.height ≤ 2048
        ∧ s.rx.expectedActive ≤ geo.height)
  ∧ (s.rx.lock = .raw → s.rx.faulted = true)

/-- Whether an item of the output sequence is a line that draws from the leaving slot. -/
def isLeaving : OutItem → Bool
  | .line l => l.payload == .leaving
  | .fs _ _ _ => false
  | .fe _ _ _ => false
  | .abortedFe => false

/-- Nothing of a line is in progress: none incomplete in the output sequence, no line record, no arriving line, no
plan. -/
def NoLineInProgress (s : State) : Prop :=
  s.tx.sequence.any isIncomplete = false ∧ s.sorter.line = none ∧ s.comp.arriving = none ∧ s.comp.plan = none

/-- The open line that has not reached its full length is the last of the output sequence and the only incomplete one; an
active one fills the arriving slot, whose pixels so far are drawn from the plan's bytes, a blank one the line record (R112, R115,
R72, R125, log 10). -/
def LineInProgress (l : OpenLine) (s : State) : Prop :=
  (∃ pre, s.tx.sequence = pre ++ [.line ⟨l.kind, l.index, .incomplete, []⟩] ∧ pre.any isIncomplete = false)
  ∧ match l.kind with
    | .active => s.sorter.line = none ∧ ∃ a, s.comp.arriving = some a ∧ a.index = l.index ∧ a.received.length = l.count
        ∧ ∀ p, s.comp.plan = some p → DrawnTo (l.count / 3) p a
    | .blank => s.sorter.line.isSome ∧ s.comp.arriving = none ∧ s.comp.plan = none

/-- The line in progress agrees across the blocks, and the leaving slot holds the content of one line of the output
sequence, or none (R72, R112). -/
def LinesSound (s : State) : Prop :=
  (s.rx.lock = .hunt ∨ s.rx.lock = .gap → s.rx.openLine = none)
  ∧ (match s.rx.openLine with
      | none => NoLineInProgress s
      | some l => if l.count < lineBytes s then LineInProgress l s else NoLineInProgress s)
  ∧ s.tx.sequence.countP isLeaving = (if s.comp.leaving.isSome then 1 else 0)

end Sys2Proof.Machine
end

