-- ==== Sys2Proof/Certificates/Slice0/Obligations.lean ====
section
/-! DEFINITION. The statements about the part that the provers are asked for. Each is named for what it states and cites the
rules of spec/ it comes from; OBLIGATIONS.json lists them. -/

section

open Sys2Proof Sys2Proof.Machine

/-! ## The machine -/

/-- A step takes the front command and executes it with the queue's rest. With an empty queue the block idles, which is the
model's choice (log 2). -/
def Obligations.StepRunsFrontCommand : Prop :=
  (∀ (s : State) (c : Instr) (rest : List Instr), s.pending = c :: rest → step s = exec c { s with pending := rest })
  ∧ ∀ s : State, s.pending = [] → step s = .next s

/-- Pin reset gives every block its reset values; State.reset has the same values (R23, R48, R77, R111, R124, R135, R159, R168,
R179). That it keeps the queue of commands (log 26), that a store without defined bytes lists none (log 8), and the value of
the model's own field (log 5) are the model's choices. -/
def Obligations.PinResetGivesResetValues : Prop :=
  PinResetValues State.reset
  ∧ ∀ s : State, ∃ t, exec .pinReset s = .next t ∧ PinResetValues t ∧ t.pending = s.pending

/-! ## The receiver -/

/-- An FS in range taken in HUNT or GAP opens a frame (R96, R97). The receiver's part `v`: geometry and last frame number from
the FS, per-frame state cleared, watchdog loaded, lock state FRAME; the FS joins the output sequence (R114), and of the contexts
only LOCK items change. The FRAME_START is taken between two requests or during a load's writes (R98, R145): in `u`, where the
request in execution, if it is not a load, is complete; that it is completed after the receiver's part is deduced (log 28). The
compositor takes the geometry (R51), the commit list is emptied (R17), and nothing else changes but banks, ownership, the
first-expiry record, the reference counts of entries, and the commit-applied and lease-expired items of contexts. -/
def Obligations.FsInRangeOpensFrame : Prop :=
  ∀ (s : State) (f w h : Word), 16 ≤ w.toNat → w.toNat ≤ 2048 → 16 ≤ h.toNat → h.toNat ≤ 2048 →
    (s.rx.lock = .hunt ∨ s.rx.lock = .gap) →
    let u := fsMeets f w h s
    ∃ v t, exec (.fs f w h) s = .next t
      ∧ { v with agent := { v.agent with contexts := s.agent.contexts } } = { s with
          rx := { lock := .frame, geometry := some ⟨f, w.toNat, h.toNat⟩, lastFrame := some f, openLine := none,
                  expectedActive := 0, expectedBlank := 0, activeSeen := 0, blankSeen := 0, faulted := false,
                  lastFault := s.rx.lastFault, watchdog := some s.status.settings.frameTimeout }
          tx := { s.tx with sequence := s.tx.sequence ++ [.fs f w h] } }
      ∧ (∀ src, { v.context src with lockItem := none } = { s.context src with lockItem := none })
      ∧ RequestCompleted v u ∧ { u.rx with lastFault := v.rx.lastFault } = v.rx ∧ u.tx = v.tx ∧ u.comp = s.comp
      ∧ t.layers.commits = [] ∧ FrameStartFrame ⟨f, w.toNat, h.toNat⟩ u t

/-- The FRAME_START of an FS finds the tables in `u`, between two requests or during a load's writes (R98, R145): as they stand
or, where another request is in execution, as its completion leaves them (deduced, log 28). The remaining lease of every owned
layer falls by 1, and a layer whose lease was 1 becomes unowned and, under HIDE, invisible (R84, R85, R86). Then the ACTIVE
record of a layer becomes its PENDING record where a commit-list entry of its owner names it and its lease did not run out;
every other ACTIVE record stays, but for the HIDE action (R17, R18). With the counts in agreement with the records (R43), an
entry's reference count falls by 1 for each ACTIVE record so turned away from it and rises by 1 for each one turned to it (R7,
R18); no other field of an entry changes. -/
def Obligations.FrameStartCountsThenCopies : Prop :=
  (∀ (s : State) (f w h : Word), 16 ≤ w.toNat → w.toNat ≤ 2048 → 16 ≤ h.toNat → h.toNat ≤ 2048 →
      let u := fsMeets f w h s
      (∃ v, v.layers = s.layers ∧ v.glyphs = s.glyphs ∧ v.status.settings = s.status.settings
        ∧ v.agent.busy = s.agent.busy ∧ RequestCompleted v u)
      ∧ ∃ t, exec (.fs f w h) s = .next t
        ∧ (∀ l, t.ownership l
            = match (u.ownership l).owner with
              | none => u.ownership l
              | some src =>
                if (u.ownership l).remaining = 1 then ⟨none, 0, 0⟩
                else ⟨some src, (u.ownership l).length, (u.ownership l).remaining - 1⟩)
        ∧ ∀ l, t.pendingRecord l = hidden (hides u l) (u.pendingRecord l))
  ∧ (∀ (s : State) (f w h : Word), 16 ≤ w.toNat → w.toNat ≤ 2048 → 16 ≤ h.toNat → h.toNat ≤ 2048 →
      let u := fsMeets f w h s
      ∃ t, exec (.fs f w h) s = .next t
        ∧ ∀ l, t.activeRecord l = if copied u l then u.pendingRecord l else hidden (hides u l) (u.activeRecord l))
  ∧ ∀ (s : State) (f w h : Word), 16 ≤ w.toNat → w.toNat ≤ 2048 → 16 ≤ h.toNat → h.toNat ≤ 2048 →
      let u := fsMeets f w h s
      ReferencesCounted u →
      ∃ t, exec (.fs f w h) s = .next t
        ∧ ∀ e, t.entry e = (u.entry e).map (fun g => { g with refs := g.refs - refsLost u e + refsGained u e })

/-- At a FRAME_START, taken in `u` (R98, R145, log 28), each commit-list entry marks its source's commit-applied item (R19), each
expiry its former owner's lease-expired item (R87), and the first-expiry record, where empty, takes the lowest expiring layer
(R88). Contexts that are UNKNOWN keep no item (R150); but the context of every owner, and of every source of an armed commit, is
ACTIVE in `u`, so that its items are kept, a source whose first request is in execution among them (R87, R152). -/
def Obligations.FrameStartMarksItems : Prop :=
  (∀ (s : State) (f w h : Word), 16 ≤ w.toNat → w.toNat ≤ 2048 → 16 ≤ h.toNat → h.toNat ≤ 2048 →
    let u := fsMeets f w h s
    CommitsSound u →
    ∃ t, exec (.fs f w h) s = .next t
      ∧ (∀ src, (u.context src).state = .unknown → t.context src = u.context src)
      ∧ (∀ src, (u.context src).state = .active →
          (t.context src).commitItem
            = (match u.layers.commits.find? (fun c => decide (c.source = src)) with
              | none => (u.context src).commitItem
              | some c =>
                some { tag := c.tag, frame := f
                       mask := c.mask &&& maskOf (fun l => decide ((u.ownership l).owner = some src) && !expiring u l)
                       overtaken := match (u.context src).commitItem with
                         | none => 0
                         | some i => if i.overtaken < 255 then i.overtaken + 1 else 255 })
          ∧ (t.context src).leaseItem
            = if layerIds.any (fun l => decide ((u.ownership l).owner = some src) && expiring u l) then
                some { mask := (match (u.context src).leaseItem with
                          | none => 0
                          | some i => i.mask)
                        ||| maskOf (fun l => decide ((u.ownership l).owner = some src) && expiring u l)
                       frame := f }
              else (u.context src).leaseItem)
      ∧ t.layers.firstExpiry
          = match u.layers.firstExpiry with
            | some x => some x
            | none =>
              (layerIds.find? (expiring u)).bind (fun l => (u.ownership l).owner.map (fun src => ⟨src, l, f⟩)))
  ∧ ∀ (s : State) (f w h : Word), SourcesKnown s →
    let u := fsMeets f w h s
    (∀ l src, (u.ownership l).owner = some src → (u.context src).state = .active)
    ∧ ∀ c ∈ u.layers.commits, (u.context c.source).state = .active

/-- An FS in range in FRAME or RAW is a nested start (R99, R120). The receiver's part `v`: the old frame counts as faulted once,
an aborted FE stands before the new FS, and the new frame is in FRAME with a clean per-frame state. The FRAME_START is taken in
`u`, where the request in execution, if it is not a load, is complete (R98, R145; deduced, log 28); of the directory only
reference counts change in it, and of the contexts only commit-applied and lease-expired items. -/
def Obligations.NestedStartClosesOldFrame : Prop :=
  ∀ (s : State) (f w h : Word), 16 ≤ w.toNat → w.toNat ≤ 2048 → 16 ≤ h.toNat → h.toNat ≤ 2048 → InFrame s →
    ReceiverSound s →
    let u := fsMeets f w h s
    ∃ v t, exec (.fs f w h) s = .next t
      ∧ v.rx = { lock := .frame, geometry := some ⟨f, w.toNat, h.toNat⟩, lastFrame := some f, openLine := none,
                 expectedActive := 0, expectedBlank := 0, activeSeen := 0, blankSeen := 0, faulted := false,
                 lastFault := if s.rx.lock = .frame then
                     some (if openShort s then FaultKind.lineLength else FaultKind.nestedStart)
                   else s.rx.lastFault
                 watchdog := some s.status.settings.frameTimeout }
      ∧ v.counter .framesFaulted
          = (if s.rx.lock = .frame then min (s.counter .framesFaulted + 1) 4294967295 else s.counter .framesFaulted)
      ∧ (∃ pre, v.tx.sequence = pre ++ [.abortedFe, .fs f w h] ∧ pre.length = s.tx.sequence.length
          ∧ (openShort s = false → pre = s.tx.sequence))
      ∧ { v.tx with sequence := s.tx.sequence, state := s.tx.state } = s.tx
      ∧ v.tx.state
          = (if s.tx.state = .frame ∧ s.tx.sequence.any isFrameEnd = false then OutState.aborting else s.tx.state)
      ∧ v.agent.contexts = s.agent.contexts ∧ StreamFrame s v
      ∧ RequestCompleted v u ∧ { u.rx with lastFault := v.rx.lastFault } = v.rx ∧ u.tx = v.tx ∧ u.comp = v.comp
      ∧ t.layers.commits = [] ∧ FrameStartFrame ⟨f, w.toNat, h.toNat⟩ u t

/-- An FS out of range is discarded in HUNT (R96); in GAP, FRAME and RAW it opens a frame that is faulted at once and passes
in RAW, with no FRAME_START and no watchdog restart, an aborted FE before it where it cuts a frame (R100). -/
def Obligations.FsOutOfRangePassesInRaw : Prop :=
  ∀ (s : State) (f w h : Word), ¬(16 ≤ w.toNat ∧ w.toNat ≤ 2048 ∧ 16 ≤ h.toNat ∧ h.toNat ≤ 2048) → ReceiverSound s →
    (s.rx.lock = .hunt → exec (.fs f w h) s = .next s)
    ∧ (s.rx.lock ≠ .hunt →
      ∃ t, exec (.fs f w h) s = .next t
        ∧ t.rx = { lock := .raw, geometry := some ⟨f, w.toNat, h.toNat⟩, lastFrame := some f, openLine := none,
                   expectedActive := 0, expectedBlank := 0, activeSeen := 0, blankSeen := 0, faulted := true,
                   lastFault := some .geometry, watchdog := s.rx.watchdog }
        ∧ t.counter .framesFaulted
            = min (s.counter .framesFaulted + (if s.rx.lock = .frame then 2 else 1)) 4294967295
        ∧ (s.rx.lock = .gap → t.tx.sequence = s.tx.sequence ++ [.fs f w h])
        ∧ (InFrame s → ∃ pre, t.tx.sequence = pre ++ [.abortedFe, .fs f w h] ∧ pre.length = s.tx.sequence.length
            ∧ (openShort s = false → pre = s.tx.sequence))
        ∧ { t.tx with sequence := s.tx.sequence, state := s.tx.state } = s.tx
        ∧ t.comp.geometry = s.comp.geometry ∧ t.agent.contexts = s.agent.contexts ∧ StreamFrame s t)

/-- IDL changes nothing in any state (R93); in HUNT no LS, data byte or FE is taken (R96), and in GAP no LS or data byte
(R104). -/
def Obligations.ItemsOutsideFrameDiscarded : Prop :=
  (∀ s : State, exec .idl s = .next s)
  ∧ (∀ (s : State) (kind : LineKind) (index : Nat) (b : Byte), s.rx.lock = .hunt ∨ s.rx.lock = .gap →
      exec (.ls kind index) s = .next s ∧ exec (.dataByte b) s = .next s)
  ∧ ∀ (s : State) (a b : Word) (x : Bool), s.rx.lock = .hunt → exec (.fe a b x) s = .next s

/-- An LS in FRAME or RAW is taken (R101, R103): the line is open with no bytes and stands last in the output sequence. In
FRAME an expected LS counts; any other is the frame's first fault, LINE_INDEX, or LINE_LENGTH where the open line proved
short (R102), and the receiver is in RAW. Of the contexts only BUDGET items change. That the writes of a GLYPH_LOAD in
execution may have gone on (log 9), and that the agent may have come on with a RESET or a CONFIG_WRITE that is its next
request when the plan is taken (log 11), is the model's choice. -/
def Obligations.LsOpensLine : Prop :=
  ∀ (s : State) (kind : LineKind) (index : Nat), InFrame s → ReceiverSound s → DirectorySound s → RecordsInRange s →
    let u := (lsFinds kind index s).1
    ∃ t, exec (.ls kind index) s = .next t
      ∧ t.rx = { u.rx with
          openLine := some ⟨kind, index, 0⟩
          lock := if lsGood s kind index then .frame else .raw
          faulted := !lsGood s kind index
          lastFault := if s.rx.lock = .frame ∧ lsGood s kind index = false then
              some (if openShort s then FaultKind.lineLength else FaultKind.lineIndex)
            else u.rx.lastFault
          expectedActive := s.rx.expectedActive + (if lsGood s kind index ∧ kind = .active then 1 else 0)
          activeSeen := s.rx.activeSeen + (if lsGood s kind index ∧ kind = .active then 1 else 0)
          expectedBlank := s.rx.expectedBlank + (if lsGood s kind index ∧ kind = .blank then 1 else 0)
          blankSeen := s.rx.blankSeen + (if lsGood s kind index ∧ kind = .blank then 1 else 0) }
      ∧ t.counter .framesFaulted
          = (if s.rx.lock = .frame ∧ lsGood s kind index = false
             then min (u.counter .framesFaulted + 1) 4294967295 else u.counter .framesFaulted)
      ∧ (∃ pre l, t.tx.sequence = pre ++ [.line l] ∧ pre.length = s.tx.sequence.length ∧ l.kind = kind ∧ l.index = index
          ∧ (0 < lineBytes s → l = ⟨kind, index, .incomplete, []⟩ ∧ (openShort s = false → pre = s.tx.sequence)))
      ∧ { t.tx with sequence := s.tx.sequence } = s.tx
      ∧ (∀ src, { t.context src with budgetItem := none } = { u.context src with budgetItem := none })
      ∧ t.counter .framesGood = u.counter .framesGood ∧ LineFrame u t

/-- A data byte in FRAME or RAW (R102): with no line open it is the LINE_LENGTH fault in FRAME and is discarded; else it
belongs to the open line, and in FRAME the byte after the 3·W-th is the LINE_LENGTH fault. That the writes of a GLYPH_LOAD in
execution may have gone on is the model's choice (log 9). -/
def Obligations.DataByteCountedAndJudged : Prop :=
  ∀ (s : State) (b : Byte), InFrame s → ReceiverSound s →
    (s.rx.openLine = none → s.rx.lock = .raw → exec (.dataByte b) s = .next s)
    ∧ (s.rx.openLine = none → s.rx.lock = .frame →
      ∃ t, exec (.dataByte b) s = .next t
        ∧ t.rx = { s.rx with lock := .raw, lastFault := some .lineLength, faulted := true }
        ∧ t.counter .framesFaulted = min (s.counter .framesFaulted + 1) 4294967295
        ∧ (∀ c, c ≠ .framesFaulted → t.counter c = s.counter c)
        ∧ { t with rx := s.rx, status := { t.status with counters := s.status.counters } } = s)
    ∧ ∀ l, s.rx.openLine = some l →
      ∃ t, exec (.dataByte b) s = .next t
        ∧ t.rx = (if s.rx.lock = .frame ∧ lineBytes s < l.count + 1 then
              { s.rx with openLine := some { l with count := l.count + 1 }, lock := .raw, faulted := true,
                          lastFault := some .lineLength }
            else { s.rx with openLine := some { l with count := l.count + 1 } })
        ∧ t.counter .framesFaulted
            = (if s.rx.lock = .frame ∧ lineBytes s < l.count + 1
               then min (s.counter .framesFaulted + 1) 4294967295 else s.counter .framesFaulted)
        ∧ t.counter .framesGood = s.counter .framesGood ∧ t.agent.contexts = s.agent.contexts ∧ LineFrame s t

/-- An FE in FRAME or RAW joins the output sequence and closes the frame to GAP; in FRAME it is judged by its abort flag and
its counts, where a short open line has already faulted the frame. An FE in GAP is a stray FE (R104, R105, R118). -/
def Obligations.FeJudgedByFlagAndCounts : Prop :=
  ∀ (s : State) (a b : Word) (x : Bool), ReceiverSound s →
    (InFrame s →
      ∃ t, exec (.fe a b x) s = .next t
        ∧ t.rx.lock = .gap ∧ t.rx.openLine = none ∧ t.rx.watchdog = s.rx.watchdog ∧ t.rx.geometry = s.rx.geometry
        ∧ t.rx.lastFrame = s.rx.lastFrame
        ∧ t.rx.lastFault
            = (if s.rx.lock = .raw then s.rx.lastFault
              else if openShort s then some .lineLength
              else if x then some .aborted
              else if a.toNat = s.rx.activeSeen ∧ b.toNat = s.rx.blankSeen
                  ∧ some s.rx.activeSeen = s.rx.geometry.map (·.height) then s.rx.lastFault
              else some .frameLength)
        ∧ t.counter .framesGood
            = (if s.rx.lock = .frame ∧ openShort s = false ∧ x = false ∧ a.toNat = s.rx.activeSeen
                  ∧ b.toNat = s.rx.blankSeen ∧ some s.rx.activeSeen = s.rx.geometry.map (·.height)
               then min (s.counter .framesGood + 1) 4294967295 else s.counter .framesGood)
        ∧ t.counter .framesFaulted
            = (if s.rx.lock = .frame ∧ ¬(openShort s = false ∧ x = false ∧ a.toNat = s.rx.activeSeen
                  ∧ b.toNat = s.rx.blankSeen ∧ some s.rx.activeSeen = s.rx.geometry.map (·.height))
               then min (s.counter .framesFaulted + 1) 4294967295 else s.counter .framesFaulted)
        ∧ (∃ pre, t.tx.sequence = pre ++ [.fe a b x] ∧ pre.length = s.tx.sequence.length
            ∧ (openShort s = false → pre = s.tx.sequence))
        ∧ { t.tx with sequence := s.tx.sequence } = s.tx ∧ t.agent.contexts = s.agent.contexts ∧ StreamFrame s t)
    ∧ (s.rx.lock = .gap →
      ∃ t, exec (.fe a b x) s = .next t
        ∧ t.rx = { s.rx with lastFault := some .unexpectedEnd }
        ∧ t.counter .framesFaulted = min (s.counter .framesFaulted + 1) 4294967295
        ∧ (∀ c, c ≠ .framesFaulted → t.counter c = s.counter c)
        ∧ { t with rx := s.rx, status := { t.status with counters := s.status.counters } } = s)

/-- Signal loss, and the expiry of a running watchdog, drop the lock from FRAME, RAW and GAP (R106, R107, R108): the
receiver's state is cleared but for the last frame number and the last fault kind, LOCK_LOSSES counts 1, the compositor
keeps only the leaving slot, the open blank line's record is discarded, and mid-frame the cut line is replaced by an aborted
FE (R121). Of the contexts only LOCK items change, and of the transmitter only the sequence and the state. Tables, replies
and requests are untouched, the one in execution among them (R145). In HUNT signal loss changes nothing. -/
def Obligations.LockLossDropsToHunt : Prop :=
  (∀ s : State, s.rx.lock = .hunt → exec .signalLoss s = .next s)
  ∧ ∀ (s : State) (c : Instr), (c = .signalLoss ∨ c = .watchdogExpiry ∧ s.rx.watchdog.isSome) → s.rx.lock ≠ .hunt →
    ∃ t, exec c s = .next t
      ∧ t.rx = { lock := .hunt, geometry := none, lastFrame := s.rx.lastFrame, openLine := none, expectedActive := 0,
                 expectedBlank := 0, activeSeen := 0, blankSeen := 0, faulted := false, lastFault := s.rx.lastFault,
                 watchdog := none }
      ∧ t.comp = { geometry := none, plan := none, arriving := none, leaving := s.comp.leaving }
      ∧ t.sorter = { s.sorter with line := none }
      ∧ t.counter .lockLosses = min (s.counter .lockLosses + 1) 4294967295
      ∧ (∀ k, k ≠ .lockLosses → t.counter k = s.counter k)
      ∧ (s.rx.lock = .gap → t.tx = s.tx)
      ∧ (InFrame s → t.tx.sequence = s.tx.sequence.filter (fun it => !isIncomplete it) ++ [.abortedFe]
          ∧ t.tx.state
            = (if s.tx.state = .frame ∧ s.tx.sequence.any isFrameEnd = false then OutState.aborting else s.tx.state))
      ∧ { t.tx with sequence := s.tx.sequence, state := s.tx.state } = s.tx
      ∧ (∀ src, { t.context src with lockItem := none } = { s.context src with lockItem := none })
      ∧ { t with
          rx := s.rx, comp := s.comp, sorter := s.sorter, tx := s.tx
          status := { t.status with counters := s.status.counters }
          agent := { t.agent with contexts := s.agent.contexts } } = s

/-- A lock loss and a relock mark the LOCK item of the listener's context, where that context is ACTIVE (R109); no other
context's LOCK item changes, and with no listener, or an UNKNOWN one, none does (R171). A relock is marked in the receiver's part
`v` of its FS; a RESET of scope NODE in execution, which that FS finds completed before its FRAME_START, then clears the item
(R145, R158; deduced, log 28), and no other request does. -/
def Obligations.LockItemTellsLossAndRelock : Prop :=
  ∀ (s : State) (src : SourceId),
    let kept := s.status.settings.listener = some src ∧ (s.context src).state = .active
    (s.rx.lock ≠ .hunt →
      ∃ t, exec .signalLoss s = .next t
        ∧ (kept → (t.context src).lockItem
            = some { locked := false, cause := some .signal, frame := none
                     losses := match (s.context src).lockItem with
                       | none => 1
                       | some i => if i.losses < 255 then i.losses + 1 else 255 })
        ∧ (¬kept → t.context src = s.context src))
    ∧ (s.rx.lock ≠ .hunt → s.rx.watchdog.isSome →
      ∃ t, exec .watchdogExpiry s = .next t
        ∧ (kept → (t.context src).lockItem
            = some { locked := false, cause := some .watchdog, frame := none
                     losses := match (s.context src).lockItem with
                       | none => 1
                       | some i => if i.losses < 255 then i.losses + 1 else 255 })
        ∧ (¬kept → t.context src = s.context src))
    ∧ ∀ f w h : Word, 16 ≤ w.toNat → w.toNat ≤ 2048 → 16 ≤ h.toNat → h.toNat ≤ 2048 → s.rx.lock = .hunt →
      ∃ v t, exec (.fs f w h) s = .next t ∧ RequestCompleted v (fsMeets f w h s) ∧ v.agent.busy = s.agent.busy
        ∧ (kept → (v.context src).lockItem
            = some { locked := true, frame := some f
                     losses := match (s.context src).lockItem with
                       | none => 0
                       | some i => i.losses
                     cause := match (s.context src).lockItem with
                       | none => none
                       | some i => i.cause })
        ∧ (¬kept → (v.context src).lockItem = (s.context src).lockItem)
        ∧ ((t.context src).lockItem = (v.context src).lockItem
          ∨ ∃ p, s.agent.busy = some (.taken p .execute) ∧ packetKind p = kindReset ∧ field (packetPayload p) 0 1 = 1
            ∧ (t.context src).lockItem = none)

/-- The expiry of one layer, which the model lets stand alone as a command (log 6): like the FRAME_START it stands for it falls
between two requests or during a load's writes, in `u`, where the request in execution, if it is not a load, is complete (R145;
deduced, log 28). A layer that is then owned with remaining lease 1 becomes unowned, under HIDE its visible field becomes no in
both banks, its former owner's lease-expired item is marked and the first-expiry record written where empty (R85, R87, R88). Its
owner's context is ACTIVE then (R87, R152). That the command changes nothing for any other layer is the model's choice (log 1). -/
def Obligations.LeaseExpiryFreesLayer : Prop :=
  ∀ (s : State) (l : LayerId) (f : Word),
    let u := completeRequest s
    RequestCompleted s u
    ∧ (∀ src, (u.ownership l).owner = some src → (u.ownership l).remaining = 1 →
      ∃ t, exec (.leaseExpiry l f) s = .next t
        ∧ t.ownership l = ⟨none, 0, 0⟩ ∧ (∀ k, k ≠ l → t.ownership k = u.ownership k)
        ∧ (∀ k, t.pendingRecord k = hidden (decide (k = l) && hides u l) (u.pendingRecord k))
        ∧ (∀ k, t.activeRecord k = hidden (decide (k = l) && hides u l) (u.activeRecord k))
        ∧ t.layers.commits = u.layers.commits
        ∧ t.layers.firstExpiry = some (u.layers.firstExpiry.getD ⟨src, l, f⟩)
        ∧ ((u.context src).state = .active → t.context src
            = { u.context src with
                leaseItem := some ⟨(match (u.context src).leaseItem with
                  | none => 0
                  | some i => i.mask) ||| layerBit l, f⟩ })
        ∧ (∀ k, k ≠ src ∨ (u.context src).state = .unknown → t.context k = u.context k)
        ∧ (SourcesKnown s → (u.context src).state = .active)
        ∧ { t with layers := u.layers, agent := { t.agent with contexts := u.agent.contexts } } = u)
    ∧ ((u.ownership l).owner = none ∨ (u.ownership l).remaining ≠ 1 → exec (.leaseExpiry l f) s = .next s)

/-! ## The compositor -/

/-- The columns of R56: on a line `v` inside the frame, a column inside the frame is covered exactly where the record's
rectangle (R54, R55) and its clip contain the pixel. A FREE entry has the size 0 (R26). -/
def Obligations.CoverageIsTheVisibleRectangle : Prop :=
  ∀ (r : LayerRecord) (g : Option Glyph) (wAct hAct v u : Nat), v < hAct → u < wAct →
    ((∃ c, coverage r g wAct hAct v = some c ∧ c.1 ≤ u ∧ u ≤ c.2)
      ↔ (r.x ≤ (u : Int) ∧ (u : Int) < r.x + (extent r g).1 ∧ r.y ≤ (v : Int) ∧ (v : Int) < r.y + (extent r g).2
          ∧ ∀ c, r.clip = some c → c.x0 ≤ u ∧ u ≤ c.x1 ∧ c.y0 ≤ v ∧ v ≤ c.y1))

/-- At the LS of an active line that is planned (R52), the plan is taken (R53, R57 to R59, R63): its layers ascend, each is
a visible layer covering the line in the plan's columns, a READY or FILL candidate is planned exactly where its cost fits
into the line budget beside the planned layers above it, and the line reads the bytes that the planned costs count. An
active line taken in RAW or under FORCE_PASS gets no plan, and no layer is counted as left out. The snapshot is of the
tables as they stand, and after a RESET or pin reset of an ACTIVE bank without a visible layer (R22, R76, R77); only where
the agent's next request is a RESET or a CONFIG_WRITE may the agent's steps with it fall between the reads (R45, R53, R76);
where, and how many, the model leaves free (log 11). The budget is the one that the snapshot read (R59). A candidate is a
visible layer of opacity above 0 that covers the line, whatever the state of its entry (R57), and ready where that is READY;
that an entry found FREE covers with the size it had before is the model's choice (log 12). That each byte of the plan has the
value that the store holds after the LS, as the bytes of a line are gathered at its LS, is the model's choice (log 10), and so is
how far the writes of a load in execution have come by then (log 9). -/
def Obligations.LsTakesPlanWithinBudget : Prop :=
  (∀ (s : State) (geo : Geometry) (index : Nat), lsGood s .active index = true → s.comp.geometry = some geo →
      ReceiverSound s → DirectorySound s → RecordsInRange s →
      let x := (lsFinds .active index s).2
      s.status.settings.forcePass = false →
      ∃ t p, exec (.ls .active index) s = .next t ∧ t.comp.plan = some p ∧ p.line = index
        ∧ t.comp.arriving = some ⟨index, [], []⟩ ∧ t.comp.geometry = s.comp.geometry
        ∧ (p.entries.map (·.layer)).Pairwise (· < ·)
        ∧ (∀ e ∈ p.entries, ∃ c, candidate x geo index e.layer = some c ∧ ready c = true ∧ e = planEntry index c)
        ∧ (∀ l c, candidate x geo index l = some c → ready c = true →
            ((∃ e ∈ p.entries, e.layer = l)
              ↔ ((p.entries.filter (fun e => decide (l < e.layer))).map entryCost).sum + entryCost (planEntry index c)
                  ≤ x.budget))
        ∧ p.bytes.length = (p.entries.map entryCost).sum
        ∧ p.bytes.map (·.addr) = lineAddresses p.entries
        ∧ ∀ b ∈ p.bytes, b.value = storeByte t.glyphs b.addr)
  ∧ (∀ (s : State) (index : Nat), InFrame s → ReceiverSound s →
      let u := (lsFinds .active index s).1
      lsGood s .active index = false ∨ s.status.settings.forcePass = true →
      ∃ t, exec (.ls .active index) s = .next t ∧ t.comp.plan = none
        ∧ t.counter .linesNotReady = u.counter .linesNotReady ∧ t.counter .linesBudgetSkip = u.counter .linesBudgetSkip)
  ∧ (∀ (s : State) (kind : LineKind) (index : Nat),
      let u := (lsFinds kind index s).1
      let x := (lsFinds kind index s).2
      let reads := fun entries budget =>
        (⟨s.layers.activeBank, entries, s.glyphs.entries, budget, s.status.settings.forcePass⟩ : Snapshot)
      (x = reads s.glyphs.entries s.status.settings.lineBudget ∧ (u = s ∨ u = { s with freeDraws := s.freeDraws + 1 })
      ∨ ∃ v, SteppedAhead s v ∧ u = { v with freeDraws := s.freeDraws + 1 }
        ∧ (x = reads v.glyphs.entries v.status.settings.lineBudget
          ∨ x = reads s.glyphs.entries v.status.settings.lineBudget
          ∨ x = reads s.glyphs.entries s.status.settings.lineBudget))
      ∧ (TablesCleared s → ∀ geo v, candidates x geo v = []))
  ∧ ∀ (x : Snapshot) (geo : Geometry) (v : Nat) (l : LayerId),
      let r := x.record l
      ((candidate x geo v l).isSome = true ↔ r.visible = true ∧ r.opacity ≠ 0
          ∧ (coverage r (x.sized r.glyph) geo.width geo.height v).isSome = true)
      ∧ ∀ c, candidate x geo v l = some c →
          (ready c = true ↔ r.kind = .glyph → ∃ g, x.entry r.glyph = some g ∧ g.state = .ready)

/-- The layers that a plan leaves out are counted when it is taken: LINES_NOT_READY for each candidate whose entry is not
READY (R58), LINES_BUDGET_SKIP for each one skipped, which is each ready candidate that the plan has no entry for (R59,
R61), with the BUDGET item of an ACTIVE listener. With no listener, or an UNKNOWN one, no mark is kept, and no other context
changes (R62, R171). What the plan finds of a RESET or a CONFIG_WRITE that is the agent's next request is left free by the
model (log 11), and the size of an entry that a RESET has made FREE is its choice (log 12). -/
def Obligations.LsCountsLayersLeftOut : Prop :=
  ∀ (s : State) (geo : Geometry) (index : Nat), lsGood s .active index = true → s.comp.geometry = some geo →
    ReceiverSound s → DirectorySound s → RecordsInRange s → StatusInRange s →
    let u := (lsFinds .active index s).1
    let x := (lsFinds .active index s).2
    let skipped := (allot x.budget 0 (readyEntries x geo index)).2
    s.status.settings.forcePass = false →
    ∃ t p, exec (.ls .active index) s = .next t ∧ t.comp.plan = some p
      ∧ t.counter .linesNotReady
          = min (u.counter .linesNotReady + ((candidates x geo index).filter (fun c => !ready c)).length) 4294967295
      ∧ t.counter .linesBudgetSkip = min (u.counter .linesBudgetSkip + skipped.length) 4294967295
      ∧ skipped.Nodup
      ∧ (∀ l, l ∈ skipped ↔ (∃ c, candidate x geo index l = some c ∧ ready c = true) ∧ ∀ e ∈ p.entries, e.layer ≠ l)
      ∧ (∀ src, u.status.settings.listener = some src → (u.context src).state = .active →
          t.context src = { u.context src with
            budgetItem := if skipped = [] then (u.context src).budgetItem
              else some { frame := geo.frame, line := index
                          mask := (match (u.context src).budgetItem with
                            | none => 0
                            | some i => i.mask) ||| maskOf (fun l => skipped.contains l)
                          skips := min ((match (u.context src).budgetItem with
                            | none => 0
                            | some i => i.skips) + skipped.length) 65535 } })
      ∧ ∀ src, ¬(u.status.settings.listener = some src ∧ (u.context src).state = .active) →
          t.context src = u.context src

/-- The blend of R70: each channel is floor((A·s + (255 − A)·d + 127)/255) and lies from 0 to 255; A = 255 gives s, A = 0
gives d; the three channels use one A; and each layer of a plan blends over the result of the layers below it. -/
def Obligations.BlendFollowsItsFormula : Prop :=
  (∀ (alpha : Nat) (x d : Byte), alpha ≤ 255 →
    (blendChannel alpha x d).toNat = (alpha * x.toNat + (255 - alpha) * d.toNat + 127) / 255
    ∧ (alpha * x.toNat + (255 - alpha) * d.toNat + 127) / 255 ≤ 255)
  ∧ (∀ x d : Colour, blend 255 x d = x ∧ blend 0 x d = d)
  ∧ (∀ (alpha : Nat) (x d : Colour), blend alpha x d
      = ⟨blendChannel alpha x.r d.r, blendChannel alpha x.g d.g, blendChannel alpha x.b d.b⟩)
  ∧ ∀ (v u : Nat) (bytes : List FetchedByte) (below : List PlanEntry) (e : PlanEntry) (d : Colour),
      coversColumn u e = true →
      compositePixel ⟨v, below ++ [e], bytes⟩ u d
        = blend (entrySample bytes u e).2 (entrySample bytes u e).1 (compositePixel ⟨v, below, bytes⟩ u d)

/-- A planned FILL layer draws every pixel of its columns from the record's colour at the record's opacity; opacity 255
replaces the pixel, a lower one mixes by R70 (R66). A planned glyph pixel is read from the byte of its row that holds it, in
each format (R67, R68, R69): MONO, bit 7 − (gx mod 8); GRAY4, the high nibble at even columns; RGB16, two bytes, high byte
first, transparent where the key equals the pixel. -/
def Obligations.PixelSampledFromRecordAndGlyph : Prop :=
  (∀ (bytes : List FetchedByte) (u : Nat) (d : Colour) (e : PlanEntry), e.glyph = none → e.left ≤ u → u ≤ e.right →
      drawEntry bytes u d e = blend e.opacity.toNat e.colour d
      ∧ (e.opacity = 255 → drawEntry bytes u d e = e.colour))
  ∧ ∀ (bytes : List FetchedByte) (u : Nat) (e : PlanEntry) (g : PlanGlyph), e.glyph = some g → e.x ≤ (u : Int) →
      let gx := ((u : Int) - e.x).toNat / g.scaleH
      let row := g.firstBlock * 256 + g.row * g.stride
      (g.format = .mono → entrySample bytes u e
          = (e.colour, if (fetchedValue bytes (row + gx / 8)).getLsbD (7 - gx % 8) then e.opacity.toNat else 0))
      ∧ (g.format = .gray4 → entrySample bytes u e
          = (e.colour, e.opacity.toNat
              * (if gx % 2 = 0 then (fetchedValue bytes (row + gx / 2)).toNat / 16
                 else (fetchedValue bytes (row + gx / 2)).toNat % 16) / 15))
      ∧ (g.format = .rgb16 →
          let p := (fetchedValue bytes (row + 2 * gx)).toNat * 256 + (fetchedValue bytes (row + 2 * gx + 1)).toNat
          (entrySample bytes u e).1.r.toNat = p / 2048 * 8 + p / 2048 / 4
          ∧ (entrySample bytes u e).1.g.toNat = p / 32 % 64 * 4 + p / 32 % 64 / 16
          ∧ (entrySample bytes u e).1.b.toNat = p % 32 * 8 + p % 32 / 4
          ∧ (entrySample bytes u e).2 = (if g.key.map BitVec.toNat = some p then 0 else e.opacity.toNat))

/-- A pixel that no planned layer covers, or that every covering layer reaches with effective alpha 0, leaves with the value
it arrived with (R71). -/
def Obligations.TransparentLayersLeavePixel : Prop :=
  ∀ (p : Plan) (u : Nat) (d : Colour),
    (∀ e ∈ p.entries, coversColumn u e = true → (entrySample p.bytes u e).2 = 0) → compositePixel p u d = d

/-- A byte of an active line before its last joins the arriving line. Where the line has no plan, or the byte is the first or
second of its pixel, nothing else changes (R72, R74). The third byte of a pixel of a planned line adds the composited value
of the pixel, and the slot holds the values of the pixels received so far as the plan's bytes give them (R64, R65). While a
GLYPH_LOAD is in execution its writes may have gone on, and every byte of the plan has its old or its new value (R38, R46); how
far they have gone (log 9), and that the pixels received before stand as the bytes so read give them until the line is handed
over (log 10), is the model's choice. -/
def Obligations.DataByteDrawsItsPixel : Prop :=
  (∀ (s : State) (l : OpenLine) (a : Arriving) (b : Byte), InFrame s → s.rx.openLine = some l →
    l.kind = .active → l.count + 1 < lineBytes s → s.comp.arriving = some a →
    s.comp.plan = none ∨ (l.count + 1) % 3 ≠ 0 →
    exec (.dataByte b) s = .next { s with
      rx := { s.rx with openLine := some { l with count := l.count + 1 } }
      comp := { s.comp with arriving := some { a with received := a.received ++ [b] } } })
  ∧ ∀ (s : State) (l : OpenLine) (p : Plan) (a : Arriving) (b : Byte), InFrame s → s.rx.openLine = some l →
    l.kind = .active → l.count + 1 < lineBytes s → (l.count + 1) % 3 = 0 → s.comp.plan = some p →
    s.comp.arriving = some a → a.received.length = l.count → DrawnTo (l.count / 3) p a →
    ∃ t n q, exec (.dataByte b) s = .next t
      ∧ LoadWrittenTo n s t ∧ Reread s n p q
      ∧ t.comp = { s.comp with
          plan := some q
          arriving := some { a with
            received := a.received ++ [b], composited := drawnBytes q (a.received ++ [b]) ((l.count + 1) / 3) } }
      ∧ t.tx = s.tx ∧ t.sorter = s.sorter ∧ t.status = s.status ∧ { t.agent with busy := s.agent.busy } = s.agent

/-- The last byte of an active line hands it over (R72, R74): a line without a plan with its received bytes, a planned one
with the composited value of each of its pixels, drawn from the plan's bytes as they have been read by the hand-over (R64, R65):
each has its old or its new value where a GLYPH_LOAD writes it during the line (R46). The arriving slot and the plan are free
again. The line takes the leaving slot, or carries its pixels where the slot is taken or another line already waits for it
(log 15). How far the writes of a GLYPH_LOAD in execution have gone on is the model's choice (log 9). -/
def Obligations.FullActiveLineHandedOver : Prop :=
  ∀ (s : State) (l : OpenLine) (a : Arriving) (b : Byte), InFrame s → s.rx.openLine = some l → l.kind = .active →
    l.count + 1 = lineBytes s → s.comp.arriving = some a → a.received.length = l.count →
    ∃ t content, exec (.dataByte b) s = .next t
      ∧ (s.comp.plan = none → content = a.received ++ [b] ∧ t.agent = s.agent ∧ t.glyphs = s.glyphs)
      ∧ (∀ p, s.comp.plan = some p → DrawnTo (l.count / 3) p a →
          ∃ n q, LoadWrittenTo n s t ∧ Reread s n p q
            ∧ content = drawnBytes q (a.received ++ [b]) ((l.count + 1) / 3))
      ∧ t.comp.arriving = none ∧ t.comp.plan = none ∧ t.comp.geometry = s.comp.geometry
      ∧ (s.comp.leaving = none → s.tx.sequence.any isCarried = false →
          t.comp.leaving = some content
          ∧ t.tx = { s.tx with sequence := s.tx.sequence.map (completeItem .leaving) })
      ∧ (s.comp.leaving.isSome ∨ s.tx.sequence.any isCarried = true →
          t.comp.leaving = s.comp.leaving
          ∧ t.tx = { s.tx with sequence := s.tx.sequence.map (completeItem (.carried content)) })

/-- A short active line is handed over with its received bytes, whatever its plan, at the LS, the FE or the FS that finds it
short (R73, R74), ahead of what that item adds to the output sequence: it takes the leaving slot, or carries its bytes where
the slot is taken or another line already waits for it (log 15). A byte past the 3·W-th of a long line joins the line behind
what stands there, as received for an active line and as 0x00 for a blank one (R117), also where the rest of the line has
left already (log 14). -/
def Obligations.ShortAndLongLinesKeepTheirLength : Prop :=
  (∀ (s : State) (l : OpenLine) (a : Arriving) (c : Instr) (items : List OutItem), InFrame s → s.rx.openLine = some l →
    l.kind = .active → l.count < lineBytes s → s.comp.arriving = some a → EndsLine c items →
    ∃ t, exec c s = .next t ∧ t.comp.plan = none
      ∧ (∀ index, c = .ls .active index → t.comp.arriving = some ⟨index, [], []⟩)
      ∧ ((∀ index, c ≠ .ls .active index) → t.comp.arriving = none)
      ∧ (s.comp.leaving = none → s.tx.sequence.any isCarried = false →
          t.comp.leaving = some a.received
          ∧ t.tx.sequence = s.tx.sequence.map (completeItem .leaving) ++ items)
      ∧ (s.comp.leaving.isSome ∨ s.tx.sequence.any isCarried = true →
          t.comp.leaving = s.comp.leaving
          ∧ t.tx.sequence = s.tx.sequence.map (completeItem (.carried a.received)) ++ items))
  ∧ ∀ (s : State) (l : OpenLine) (b : Byte), InFrame s → s.rx.openLine = some l → lineBytes s ≤ l.count →
    ∃ t, exec (.dataByte b) s = .next t ∧ t.comp = s.comp ∧ t.sorter = s.sorter
      ∧ (∀ pre o, s.tx.sequence = pre ++ [.line o] →
          t.tx = { s.tx with
            sequence := pre ++ [.line { o with tail := o.tail ++ [if l.kind = .active then b else 0] }] })
      ∧ ∀ k i bytes, s.tx.sequence = [] → s.tx.lane = some (.line k i bytes) →
          t.tx = { s.tx with lane := some (.line k i (bytes ++ [if l.kind = .active then b else 0])) }

/-! ## The sorter -/

/-- The bytes of a blank line are scanned (R126 to R130). The last byte of a packet completes it: a bad CRC and an invalid
header drop it and count; else it joins the decision list with the decision that its destination gives against the node
address, and the scan goes on behind it. The byte at a start position: 0x00 ends the packet area, 0xC3 may begin a packet
(where the model keeps it is log 22), any other byte is a malformed start, which counts once and abandons the line; so is a
0xC3 that is the last byte of the data area, and any byte but 0x5A behind a 0xC3. Byte 6 of a packet is checked: a length
above 240, or a packet past the end of the data area, is a malformed start (R127). Once the area has ended or the line is
abandoned, bytes are ignored. -/
def Obligations.BlankLineBytesScanned : Prop :=
  (∀ (s : State) (l : OpenLine) (r : LineRecord) (b : Byte), InFrame s → s.rx.openLine = some l → l.kind = .blank →
      l.count + 1 < lineBytes s → s.sorter.line = some r → r.scan = .inPacket → 8 ≤ r.packet.length →
      (r.packet ++ [b]).length = packetLength (r.packet ++ [b]) + 9 →
      let p := r.packet ++ [b]
      let d := decided s.sorter.address p
      ∃ t q, exec (.dataByte b) s = .next t ∧ t.sorter = ⟨s.sorter.address, some q⟩
        ∧ q.bound = r.bound ∧ q.scanPos = r.scanPos + p.length ∧ q.packet = []
        ∧ q.scan = (if r.scanPos + p.length = r.bound then .ended else .seeking)
        ∧ (packetCrcGood p = false → q.decisions = r.decisions
            ∧ q.counts = { r.counts with badCrc := r.counts.badCrc + 1 })
        ∧ (packetCrcGood p = true → packetHeaderValid p = false → q.decisions = r.decisions
            ∧ q.counts = { r.counts with malformed := r.counts.malformed + 1 })
        ∧ (packetCrcGood p = true → packetHeaderValid p = true → q.decisions = r.decisions ++ [(p, d.1)]
            ∧ q.counts = { consumed := r.counts.consumed + (if d.1 = .forward then 0 else 1)
                           forwarded := r.counts.forwarded + (if d.1 = .consume then 0 else 1)
                           badCrc := r.counts.badCrc
                           malformed := r.counts.malformed + (if d.2 then 1 else 0) })
        ∧ t.agent = s.agent ∧ t.tx = s.tx ∧ t.status = s.status)
  ∧ (∀ (s : State) (l : OpenLine) (r : LineRecord) (b : Byte), InFrame s → s.rx.openLine = some l → l.kind = .blank →
      l.count + 1 < lineBytes s → s.sorter.line = some r → r.scan = .seeking → r.packet = [] → r.scanPos + 1 < r.bound →
      ∃ t q, exec (.dataByte b) s = .next t ∧ t.sorter = ⟨s.sorter.address, some q⟩
        ∧ q.bound = r.bound ∧ q.scanPos = r.scanPos ∧ q.decisions = r.decisions
        ∧ (b = 0x00 → q.scan = .ended ∧ q.counts = r.counts)
        ∧ (b = 0xC3 → q.scan = .seeking ∧ q.packet = [b] ∧ q.counts = r.counts)
        ∧ (b ≠ 0x00 → b ≠ 0xC3 → q.scan = .abandoned ∧ q.counts = { r.counts with malformed := r.counts.malformed + 1 })
        ∧ t.agent = s.agent ∧ t.tx = s.tx ∧ t.status = s.status)
  ∧ (∀ (s : State) (l : OpenLine) (r : LineRecord) (b : Byte), InFrame s → s.rx.openLine = some l → l.kind = .blank →
      l.count + 1 = lineBytes s → s.sorter.line = some r → r.scan = .seeking → r.packet = [] → r.scanPos + 1 = r.bound →
      ∃ t, exec (.dataByte b) s = .next t ∧ t.sorter = ⟨s.sorter.address, none⟩
        ∧ t.counter .pktMalformed
            = min (s.counter .pktMalformed + (r.counts.malformed + (if b = 0x00 then 0 else 1))) 4294967295)
  ∧ ∀ (s : State) (l : OpenLine) (r : LineRecord) (b : Byte), InFrame s → s.rx.openLine = some l → l.kind = .blank →
      l.count + 1 < lineBytes s → s.sorter.line = some r →
      let p := r.packet ++ [b]
      let malformed := fun q : LineRecord =>
        q = { r with scan := .abandoned, packet := [], counts := { r.counts with malformed := r.counts.malformed + 1 } }
      ∃ t q, exec (.dataByte b) s = .next t ∧ t.sorter = ⟨s.sorter.address, some q⟩
        ∧ (r.scan = .seeking → r.packet = [0xC3] → b = 0x5A → q = { r with scan := .inPacket, packet := p })
        ∧ (r.scan = .seeking → r.packet = [0xC3] → b ≠ 0x5A → malformed q)
        ∧ (r.scan = .inPacket → p.length = 7 → 240 < b.toNat ∨ r.bound < r.scanPos + (b.toNat + 9) → malformed q)
        ∧ (r.scan = .inPacket → p.length = 7 → b.toNat ≤ 240 → r.scanPos + (b.toNat + 9) ≤ r.bound →
            q = { r with packet := p })
        ∧ (r.scan = .inPacket → p.length < 7 ∨ 7 < p.length ∧ p.length ≠ packetLength p + 9 → q = { r with packet := p })
        ∧ (r.scan = .ended ∨ r.scan = .abandoned → q = r)
        ∧ t.agent = s.agent ∧ t.tx = s.tx ∧ t.status = s.status

/-- A blank line is closed by its 3·W-th byte, or short at the LS, the FE or the FS that ends it (R131, R133, R134). With `r`
the record at the end of the line's input (its bound lowered to the bytes received, and a packet not ended a malformed
start), the consumed packets join the inbound queue up to its four places in order and the rest are counted in REQ_OVERFLOW,
the forwarded packets go to the transmitter's line ahead of what the item adds to the output sequence, the line's counts go
to Node Status, and the record ends. An FS in range then finds the request in execution complete before its FRAME_START, unless
it is a load (R145; deduced, log 28). -/
def Obligations.BlankLineCloseHandsOff : Prop :=
  (∀ (s : State) (l : OpenLine) (r0 : LineRecord) (b : Byte), InFrame s → s.rx.openLine = some l → l.kind = .blank →
    l.count + 1 = lineBytes s → s.sorter.line = some r0 → s.agent.inbound.length ≤ 4 →
    let r := endRecord (l.count + 1) (scanByte s.sorter.address b r0)
    ∃ t, exec (.dataByte b) s = .next t
      ∧ t.sorter = ⟨s.sorter.address, none⟩
      ∧ t.agent = { s.agent with inbound := (s.agent.inbound ++ consumedPackets r).take 4 }
      ∧ t.tx = { s.tx with sequence := s.tx.sequence.map (completeItem (.blank (forwardedPackets r) r.bound)) }
      ∧ t.counter .pktConsumed = min (s.counter .pktConsumed + r.counts.consumed) 4294967295
      ∧ t.counter .pktForwarded = min (s.counter .pktForwarded + r.counts.forwarded) 4294967295
      ∧ t.counter .pktBadCrc = min (s.counter .pktBadCrc + r.counts.badCrc) 4294967295
      ∧ t.counter .pktMalformed = min (s.counter .pktMalformed + r.counts.malformed) 4294967295
      ∧ (s.counter .reqOverflow ≤ 4294967295 → t.counter .reqOverflow
          = min (s.counter .reqOverflow + (s.agent.inbound.length + (consumedPackets r).length - 4)) 4294967295)
      ∧ t.layers = s.layers ∧ t.glyphs = s.glyphs ∧ t.comp = s.comp ∧ t.relay = s.relay
      ∧ t.status.settings = s.status.settings)
  ∧ (∀ (s : State) (l : OpenLine) (r0 : LineRecord) (c : Instr) (items : List OutItem), InFrame s →
    s.rx.openLine = some l → l.kind = .blank → l.count < lineBytes s → s.sorter.line = some r0 →
    s.agent.inbound.length ≤ 4 → EndsLine c items →
    let r := endRecord l.count r0
    ∃ v t, exec c s = .next t
      ∧ v.sorter.address = s.sorter.address
      ∧ (∀ index, c = .ls .blank index → t.sorter.line = some (newLineRecord (lineBytes s)))
      ∧ ((∀ index, c ≠ .ls .blank index) → t.sorter.line = none)
      ∧ t.agent.inbound = (s.agent.inbound ++ consumedPackets r).take 4
      ∧ t.tx.sequence = s.tx.sequence.map (completeItem (.blank (forwardedPackets r) r.bound)) ++ items
      ∧ v.counter .pktConsumed = min (s.counter .pktConsumed + r.counts.consumed) 4294967295
      ∧ v.counter .pktForwarded = min (s.counter .pktForwarded + r.counts.forwarded) 4294967295
      ∧ v.counter .pktBadCrc = min (s.counter .pktBadCrc + r.counts.badCrc) 4294967295
      ∧ v.counter .pktMalformed = min (s.counter .pktMalformed + r.counts.malformed) 4294967295
      ∧ (s.counter .reqOverflow ≤ 4294967295 → v.counter .reqOverflow
          = min (s.counter .reqOverflow + (s.agent.inbound.length + (consumedPackets r).length - 4)) 4294967295)
      ∧ v.agent.busy = s.agent.busy
      ∧ (∀ f w h, c = .fs f w h → fsInRange w h = true → RequestCompleted v (fsMeets f w h s)
          ∧ t.status = (fsMeets f w h s).status ∧ t.sorter = (fsMeets f w h s).sorter)
      ∧ ((∀ f w h, c = .fs f w h → fsInRange w h = false) → v = t))
  ∧ ∀ (received : Nat) (r0 : LineRecord),
    let r := endRecord received r0
    r.bound = min r0.bound received ∧ r.scanPos = r0.scanPos ∧ r.decisions = r0.decisions
    ∧ (r0.scan = .inPacket ∨ r0.scan = .seeking ∧ r0.packet ≠ [] →
        r.scan = .abandoned ∧ r.counts = { r0.counts with malformed := r0.counts.malformed + 1 })
    ∧ (r0.scan = .ended ∨ r0.scan = .abandoned ∨ r0.scan = .seeking ∧ r0.packet = [] →
        r.scan = r0.scan ∧ r.counts = r0.counts)

/-- Every packet that the part builds closes with its CRC and passes the relay's checks (R128, R138, R161), so a node
upstream relays it. -/
def Obligations.SealedPacketsPassRelayCheck : Prop :=
  ∀ (origin : Byte) (dest : SourceId) (seq kind : Byte) (payload : List Byte), payload.length ≤ 240 →
    returnPacketGood (sealPacket origin dest seq kind payload) = true
    ∧ (sealPacket origin dest seq kind payload).length = payload.length + 9
    ∧ packetSource (sealPacket origin dest seq kind payload) = dest
    ∧ packetPayload (sealPacket origin dest seq kind payload) = payload

/-! ## Requests of the layer table -/

/-- CLAIM (R80, R81): refused for an empty mask, a lease outside 1 to 4095, or a layer of another source; else every layer
of the mask is owned by the requester with the lease named, and no other layer changes. -/
def Obligations.ClaimGrantsAllOrNothing : Prop :=
  ∀ (s : State) (p : Packet) (rest : List Packet), Takes kindClaim p rest s → (packetPayload p).length = 4 →
    Fresh (requestOf p) s →
    let src := packetSource p
    let mask : Word := BitVec.ofNat 16 (field (packetPayload p) 0 2)
    let lease := field (packetPayload p) 2 2
    let mine := maskOf (fun l => namesLayer mask l && decide ((s.ownership l).owner = some src))
    let others := maskOf (fun l => namesLayer mask l && (s.ownership l).owner.isSome
      && !decide ((s.ownership l).owner = some src))
    ∃ t, exec .claim s = .next t
      ∧ Answered s (requestOf p) rest
          (if mask = 0 then ⟨.field, [1]⟩
           else if lease = 0 ∨ 4095 < lease then ⟨.field, [2]⟩
           else if others ≠ 0 then ⟨.claimed, maskBytes others⟩
           else ⟨.ok, maskBytes mask ++ maskBytes (mask &&& ~~~mine) ++ maskBytes mine ++ beBytes 2 lease⟩) t
      ∧ (∀ l, t.ownership l
          = if mask ≠ 0 ∧ 1 ≤ lease ∧ lease ≤ 4095 ∧ others = 0 ∧ namesLayer mask l = true then ⟨some src, lease, lease⟩
            else s.ownership l)
      ∧ OnlyAgentAndRelay { s with layers := { s.layers with ownership := t.layers.ownership } } t

/-- RELEASE (R82): refused for an empty mask; else each layer of the mask that the requester owns becomes unowned, the reply
names it in the released mask, and nothing else of the tables changes. -/
def Obligations.ReleaseFreesOwnedLayers : Prop :=
  ∀ (s : State) (p : Packet) (rest : List Packet), Takes kindRelease p rest s → (packetPayload p).length = 2 →
    Fresh (requestOf p) s →
    let src := packetSource p
    let mask : Word := BitVec.ofNat 16 (field (packetPayload p) 0 2)
    let mine := maskOf (fun l => namesLayer mask l && decide ((s.ownership l).owner = some src))
    ∃ t, exec .release s = .next t
      ∧ Answered s (requestOf p) rest
          (if mask = 0 then ⟨.field, [1]⟩ else ⟨.ok, maskBytes mine ++ maskBytes (mask &&& ~~~mine)⟩) t
      ∧ (∀ l, t.ownership l
          = if namesLayer mask l = true ∧ (s.ownership l).owner = some src then ⟨none, 0, 0⟩ else s.ownership l)
      ∧ OnlyAgentAndRelay { s with layers := { s.layers with ownership := t.layers.ownership } } t

/-- LAYER_WRITE (R9, R10, R7): its checks in order; a write that passes them replaces the PENDING record of its layer,
renews the lease, and moves the reference counts from the old record's entry to the new one's. -/
def Obligations.LayerWriteReplacesPendingRecord : Prop :=
  ∀ (s : State) (p : Packet) (rest : List Packet), Takes kindLayerWrite p rest s →
    layerWriteLengthOk (packetPayload p) = true → Fresh (requestOf p) s →
    (15 < field (packetPayload p) 0 1 →
      ∃ t, exec .layerWrite s = .next t ∧ Answered s (requestOf p) rest ⟨.field, [1]⟩ t ∧ OnlyAgentAndRelay s t)
    ∧ ∀ l : LayerId, field (packetPayload p) 0 1 = l.val →
      let owner := (s.ownership l).owner
      let raw := resultingRecord (s.pendingRecord l) (packetPayload p)
      let new := recordOfRaw raw
      let named := new.kind = .glyph ∧ s.entry new.glyph = none
      ∃ t, exec .layerWrite s = .next t
        ∧ Answered s (requestOf p) rest
            (if layerPresenceInvalid (packetPayload p) = true then ⟨.field, [2]⟩
             else if owner ≠ some (packetSource p) then ⟨.notOwner, beBytes 1 l.val ++ sourceByte owner⟩
             else match firstBadField raw with
               | some f => ⟨.field, beBytes 1 f⟩
               | none =>
                 if new.kind = .glyph ∧ s.entry new.glyph = none then
                   ⟨.noGlyph, beBytes 1 l.val ++ beBytes 1 new.glyph.val⟩
                 else ⟨.ok, beBytes 1 l.val ++ beBytes 2 (s.ownership l).length⟩) t
        ∧ (layerPresenceInvalid (packetPayload p) = false → owner = some (packetSource p) → firstBadField raw = none →
            ¬named →
            t.pendingRecord l = new ∧ (∀ k, k ≠ l → t.pendingRecord k = s.pendingRecord k)
            ∧ t.ownership l = { s.ownership l with remaining := (s.ownership l).length }
            ∧ (∀ k, k ≠ l → t.ownership k = s.ownership k)
            ∧ (∀ e, t.entry e = (s.entry e).map (fun g => { g with
                refs := if contribution (s.pendingRecord l) = contribution new then g.refs
                  else g.refs - (if contribution (s.pendingRecord l) = some e then 1 else 0)
                    + (if contribution new = some e then 1 else 0) }))
            ∧ OnlyAgentAndRelay { s with
                layers := { s.layers with pendingBank := t.layers.pendingBank, ownership := t.layers.ownership }
                glyphs := { s.glyphs with entries := t.glyphs.entries } } t)
        ∧ (layerPresenceInvalid (packetPayload p) = true ∨ owner ≠ some (packetSource p) ∨ firstBadField raw ≠ none
            ∨ named → OnlyAgentAndRelay s t)

/-- LAYER_READ (R12, R142): the bank is checked before the layer; the reply holds the record of the bank named and the
ownership fields, 36 bytes, and no table changes. -/
def Obligations.LayerReadReportsRecord : Prop :=
  ∀ (s : State) (p : Packet) (rest : List Packet), Takes kindLayerRead p rest s → (packetPayload p).length = 2 →
    Fresh (requestOf p) s →
    let bank := field (packetPayload p) 0 1
    let index := field (packetPayload p) 1 1
    (1 < bank → ∃ t, exec .layerRead s = .next t ∧ Answered s (requestOf p) rest ⟨.field, [1]⟩ t ∧ OnlyAgentAndRelay s t)
    ∧ (bank ≤ 1 → 15 < index →
      ∃ t, exec .layerRead s = .next t ∧ Answered s (requestOf p) rest ⟨.field, [2]⟩ t ∧ OnlyAgentAndRelay s t)
    ∧ ∀ l : LayerId, bank ≤ 1 → index = l.val →
      let data := beBytes 1 bank ++ beBytes 1 l.val
        ++ recordImage (if bank = 0 then s.pendingRecord l else s.activeRecord l) ++ sourceByte (s.ownership l).owner
        ++ beBytes 2 (s.ownership l).length ++ beBytes 2 (s.ownership l).remaining
      ∃ t, exec .layerRead s = .next t ∧ Answered s (requestOf p) rest ⟨.ok, data⟩ t ∧ OnlyAgentAndRelay s t
        ∧ data.length = 36

/-- COMMIT addressed to the node (R14): refused for an empty mask or a layer that the source does not own; else its entry
is appended or replaced in place, and the reply carries the mask, the number of entries and the superseded tag. COMMIT to the
broadcast address (R15, R149): the owned part of its mask is armed where it names a layer; there is no reply, and no context
is read or changed. -/
def Obligations.CommitArmsEntry : Prop :=
  (∀ (s : State) (p : Packet) (rest : List Packet), Takes kindCommit p rest s → (packetPayload p).length = 4 →
      Fresh (requestOf p) s → CommitsSound s →
      let src := packetSource p
      let tag : Word := BitVec.ofNat 16 (field (packetPayload p) 0 2)
      let mask : Word := BitVec.ofNat 16 (field (packetPayload p) 2 2)
      let missing := maskOf (fun l => namesLayer mask l && !decide ((s.ownership l).owner = some src))
      let commits := if mask = 0 ∨ missing ≠ 0 then s.layers.commits else armed ⟨src, tag, mask⟩ s.layers.commits
      ∃ t, exec .commit s = .next t
        ∧ Answered s (requestOf p) rest
            (if mask = 0 then ⟨.field, [2]⟩
             else if missing ≠ 0 then ⟨.notOwner, maskBytes missing⟩
             else ⟨.ok, maskBytes mask ++ beBytes 1 commits.length
                ++ optionalPart 2 ((s.layers.commits.find? (fun e => decide (e.source = src))).map
                    (fun e => maskBytes e.tag))⟩) t
        ∧ OnlyAgentAndRelay { s with layers := { s.layers with commits := commits } } t)
  ∧ ∀ (s : State) (p : Packet) (rest : List Packet), TakesBroadcast kindCommit p rest s →
      (packetPayload p).length = 4 → CommitsSound s →
      let src := packetSource p
      let tag : Word := BitVec.ofNat 16 (field (packetPayload p) 0 2)
      let mask := BitVec.ofNat 16 (field (packetPayload p) 2 2)
        &&& maskOf (fun l => decide ((s.ownership l).owner = some src))
      exec .commit s = .next { finished rest s with
        layers := { s.layers with
          commits := if mask = 0 then s.layers.commits else armed ⟨src, tag, mask⟩ s.layers.commits } }

/-! ## Requests of the glyph directory -/

/-- GLYPH_DEFINE (R32, R33, R34): its checks in order; NO_SPACE with its reason; else the lowest FREE entry becomes LOADING
over the lowest run of free blocks that fits, and the blocks of the run are marked. That the OK reply carries the first block
as a plain field of 2 bytes is deduced (log 18). -/
def Obligations.GlyphDefineTakesFirstFit : Prop :=
  ∀ (s : State) (p : Packet) (rest : List Packet), Takes kindGlyphDefine p rest s → (packetPayload p).length = 5 →
    Fresh (requestOf p) s →
    let code := field (packetPayload p) 0 1
    let w := field (packetPayload p) 1 2
    let h := field (packetPayload p) 3 2
    let refused := fun a => ∃ t, exec .glyphDefine s = .next t ∧ Answered s (requestOf p) rest a t
      ∧ OnlyAgentAndRelay s t
    (2 < code → refused ⟨.field, [1]⟩)
    ∧ ∀ f, formatOfCode code = some f →
      let stride := (w * bitsPerPixel f + 7) / 8
      let size := stride * h
      let blocks := (size + 255) / 256
      (w = 0 ∨ 1024 < w → refused ⟨.field, [2]⟩)
      ∧ (1 ≤ w → w ≤ 1024 → h = 0 ∨ 1024 < h ∨ 131072 < size → refused ⟨.field, [3]⟩)
      ∧ (1 ≤ w → w ≤ 1024 → 1 ≤ h → h ≤ 1024 → size ≤ 131072 →
        ((∀ e, s.entry e ≠ none) → refused ⟨.noSpace, [0] ++ beBytes 2 blocks ++ summaryBytes s.glyphs⟩)
        ∧ ((∃ e, s.entry e = none) → (∀ first, ¬RunFree s first blocks) →
            refused ⟨.noSpace, [1] ++ beBytes 2 blocks ++ summaryBytes s.glyphs⟩)
        ∧ ∀ (e : GlyphId) (first : Nat), s.entry e = none → (∀ e', e' < e → s.entry e' ≠ none) →
            RunFree s first blocks → (∀ first', first' < first → ¬RunFree s first' blocks) →
            ∃ t, exec .glyphDefine s = .next t
              ∧ Answered s (requestOf p) rest
                  ⟨.ok, beBytes 1 e.val ++ beBytes 2 stride ++ beBytes 3 size ++ beBytes 2 first ++ beBytes 2 blocks⟩ t
              ∧ t.entry e
                  = some { state := .loading, owner := packetSource p, format := f, width := w, height := h,
                           stride := stride, size := size, firstBlock := first, blockCount := blocks, loaded := 0,
                           refs := 0 }
              ∧ (∀ e', e' ≠ e → t.entry e' = s.entry e')
              ∧ (∀ k : Fin 512, t.glyphs.blockMap[k]
                  = if first ≤ k.val ∧ k.val < first + blocks then some e else s.glyphs.blockMap[k])
              ∧ t.glyphs.bytes = s.glyphs.bytes
              ∧ OnlyAgentAndRelay { s with
                  glyphs := { s.glyphs with entries := t.glyphs.entries, blockMap := t.glyphs.blockMap } } t)

/-- GLYPH_LOAD (R35, R38): its checks in order; a load that passes them starts with no byte written, and the agent stays BUSY
with it while its bytes are written from the entry's first byte plus the offset. -/
def Obligations.GlyphLoadCheckedThenStarted : Prop :=
  ∀ (s : State) (p : Packet) (rest : List Packet), Takes kindGlyphLoad p rest s → 5 ≤ (packetPayload p).length →
    (packetPayload p).length ≤ 240 → Fresh (requestOf p) s →
    let index := glyphOf (field (packetPayload p) 0 1)
    let offset := field (packetPayload p) 1 3
    let data := (packetPayload p).drop 4
    let refused := fun a => ∃ t, exec .glyphLoad s = .next t ∧ Answered s (requestOf p) rest a t ∧ OnlyAgentAndRelay s t
    (s.entry index = none → refused ⟨.noGlyph, beBytes 1 index.val⟩)
    ∧ ∀ g, s.entry index = some g →
      (g.owner ≠ packetSource p → refused ⟨.notOwner, beBytes 1 index.val ++ beBytes 1 g.owner.val⟩)
      ∧ (g.owner = packetSource p → g.state = .loading → offset ≠ g.loaded →
          refused ⟨.offset, beBytes 1 index.val ++ beBytes 3 g.loaded⟩)
      ∧ (g.owner = packetSource p → (g.state = .loading → offset = g.loaded) → g.size < offset + data.length →
          refused ⟨.length, beBytes 1 index.val ++ beBytes 3 g.size ++ beBytes 3 g.loaded⟩)
      ∧ (g.owner = packetSource p → (g.state = .loading → offset = g.loaded) → offset + data.length ≤ g.size →
          exec .glyphLoad s = .next { finished rest s with agent := { (finished rest s).agent with
            busy := some (.load { source := packetSource p, seq := packetSeq p, index := index, offset := offset, data := data,
                                  base := g.firstBlock * 256 + offset, written := 0 }) } })

/-- The end of a load, carried through to its reply (R36, R37, R38, R46): all its bytes stand in the store and no other byte
changes, the loaded count and the state of its entry are updated, the reply reports them, and the agent is IDLE. A byte of a
planned line that this command writes keeps its old value or takes the new one. That the bytes not yet written enter the store at
this command (log 9), and that the pixels that the line has by then stand as its bytes so read give them (log 10), is the model's
choice. The directory update and the reply may also come by two commands, with other events between (R145, log 28). That the command
changes nothing with no load to end, and none whose reply is due, is the model's choice (log 1). -/
def Obligations.GlyphLoadCompleteWritesStore : Prop :=
  (∀ (s : State) (run : LoadRun) (g : Glyph), nextExtent s = .replied → s.agent.busy = some (.load run) →
    DirectorySound s → s.entry run.index = some g →
    let after : Glyph := if g.state = .ready then g else
      { g with loaded := run.offset + run.data.length,
               state := if run.offset + run.data.length = g.size then .ready else .loading }
    ∃ t, exec .glyphLoadComplete s = .next t
      ∧ Answered s ⟨run.source, run.seq, 0x31, []⟩ s.agent.inbound
          ⟨.ok, beBytes 1 run.index.val ++ beBytes 3 after.loaded
            ++ (if after.state = .ready then [2] else [1])⟩ t
      ∧ t.entry run.index = some after ∧ (∀ e, e ≠ run.index → t.entry e = s.entry e)
      ∧ (∀ a, Memory.read? t.glyphs.bytes a
          = if run.base ≤ a ∧ a < run.base + run.data.length then run.data[a - run.base]?
            else Memory.read? s.glyphs.bytes a)
      ∧ t.glyphs.blockMap = s.glyphs.blockMap ∧ t.glyphs.epoch = s.glyphs.epoch
      ∧ LineReread s run.data.length s.comp t.comp
      ∧ OnlyAgentAndRelay { s with glyphs := t.glyphs, comp := t.comp, freeDraws := t.freeDraws } t)
  ∧ (∀ (s : State) (run : LoadRun) (es : List Config.Extent), s.agent.busy = some (.load run) → DirectorySound s →
    ∃ u a, exec .glyphLoadComplete { s with extents := .acted :: es } = .next u
      ∧ u.agent = { s.agent with busy := some (.acted ⟨run.source, run.seq, 0x31, []⟩ (.executed a)) }
      ∧ u.relay = s.relay
      ∧ exec .glyphLoadComplete { u with extents := .replied :: es }
        = exec .glyphLoadComplete { s with extents := .replied :: es })
  ∧ ∀ s : State, (∀ run, s.agent.busy ≠ some (.load run)) → nextExtent s ≠ .replied ∨ s.agent.busy = none →
      exec .glyphLoadComplete s = .next { s with extents := s.extents.tail }

/-- GLYPH_DELETE (R39): its checks in order; else the entry is FREE and its blocks are free, and the store bytes stay. That the
OK reply carries the first block as a plain field of 2 bytes is deduced (log 18). -/
def Obligations.GlyphDeleteFreesEntry : Prop :=
  ∀ (s : State) (p : Packet) (rest : List Packet), Takes kindGlyphDelete p rest s → (packetPayload p).length = 1 →
    Fresh (requestOf p) s → DirectorySound s →
    let index := glyphOf (field (packetPayload p) 0 1)
    let refused := fun a => ∃ t, exec .glyphDelete s = .next t ∧ Answered s (requestOf p) rest a t ∧ OnlyAgentAndRelay s t
    (s.entry index = none → refused ⟨.noGlyph, beBytes 1 index.val⟩)
    ∧ ∀ g, s.entry index = some g →
      (g.owner ≠ packetSource p → refused ⟨.notOwner, beBytes 1 index.val ++ beBytes 1 g.owner.val⟩)
      ∧ (g.owner = packetSource p → 0 < g.refs → refused ⟨.inUse, beBytes 1 index.val ++ beBytes 1 g.refs⟩)
      ∧ (g.owner = packetSource p → g.refs = 0 →
        ∃ t, exec .glyphDelete s = .next t
          ∧ Answered s (requestOf p) rest
              ⟨.ok, beBytes 1 index.val ++ beBytes 2 g.firstBlock ++ beBytes 2 g.blockCount ++ summaryBytes t.glyphs⟩ t
          ∧ t.entry index = none ∧ (∀ e, e ≠ index → t.entry e = s.entry e)
          ∧ (∀ k : Fin 512, t.glyphs.blockMap[k]
              = if s.glyphs.blockMap[k] = some index then none else s.glyphs.blockMap[k])
          ∧ t.glyphs.bytes = s.glyphs.bytes
          ∧ OnlyAgentAndRelay { s with
              glyphs := { s.glyphs with entries := t.glyphs.entries, blockMap := t.glyphs.blockMap } } t)

/-- GLYPH_QUERY (R41, R26): OK for every index, with the entry's fields, or the FREE values, and the store summary; no state
of the directory or the store changes. That the first block is an optional part of the reply is deduced (log 18). -/
def Obligations.GlyphQueryReportsEntry : Prop :=
  ∀ (s : State) (p : Packet) (rest : List Packet), Takes kindGlyphQuery p rest s → (packetPayload p).length = 1 →
    Fresh (requestOf p) s →
    let index := glyphOf (field (packetPayload p) 0 1)
    ∃ t, exec .glyphQuery s = .next t ∧ OnlyAgentAndRelay s t
      ∧ Answered s (requestOf p) rest
          ⟨.ok, beBytes 1 index.val
            ++ (match s.entry index with
              | none => [0, 0xFF, 0xFF] ++ List.replicate 18 0
              | some g =>
                (if g.state = .loading then [1] else [2]) ++ beBytes 1 g.owner.val ++ beBytes 1 (formatCode g.format)
                  ++ beBytes 2 g.width ++ beBytes 2 g.height ++ beBytes 2 g.stride ++ beBytes 3 g.size
                  ++ [1] ++ beBytes 2 g.firstBlock ++ beBytes 2 g.blockCount ++ beBytes 3 g.loaded ++ beBytes 1 g.refs)
            ++ summaryBytes s.glyphs⟩ t

/-! ## Requests of the node -/

/-- ASSIGN (R136): an address of 0 or above 62 is answered FIELD; else the node address is the new one, the reply carries
the previous and the new address, and it leaves with the new one as its origin. IDENTIFY (R172): it changes no state outside
the agent and the relay and is answered OK with the 15 identity bytes. -/
def Obligations.AssignSetsAddressIdentifyReportsIdentity : Prop :=
  (∀ (s : State) (p : Packet) (rest : List Packet), Takes kindAssign p rest s → (packetPayload p).length = 1 →
    Fresh (requestOf p) s →
    let new := field (packetPayload p) 0 1
    (new = 0 ∨ 63 ≤ new →
      ∃ t, exec .assign s = .next t ∧ Answered s (requestOf p) rest ⟨.field, [1]⟩ t ∧ OnlyAgentAndRelay s t)
    ∧ (1 ≤ new → new ≤ 62 →
      ∃ t, exec .assign s = .next t
        ∧ Answered s (requestOf p) rest ⟨.ok, [s.sorter.address, BitVec.ofNat 8 new]⟩ t
        ∧ OnlyAgentAndRelay { s with sorter := { s.sorter with address := BitVec.ofNat 8 new } } t))
  ∧ ∀ (s : State) (p : Packet) (rest : List Packet), Takes kindIdentify p rest s → packetPayload p = [] →
    Fresh (requestOf p) s →
    ∃ t, exec .identify s = .next t ∧ OnlyAgentAndRelay s t
      ∧ Answered s (requestOf p) rest ⟨.ok, [0x5A, 0x04, 0x12, 3, 16, 1, 0, 2, 0, 1, 0, 8, 4, 8, 4]⟩ t

/-- CONFIG_WRITE (R170): the first field that fails its check is named and no setting changes; else each named setting takes
its value, the others keep theirs, and the reply carries the whole record. Before the reply is placed the settings have changed
and its source's context has not (R171). -/
def Obligations.ConfigWriteReplacesNamedSettings : Prop :=
  (∀ (s : State) (p : Packet) (rest : List Packet), Takes kindConfigWrite p rest s →
    configLengthOk (packetPayload p) = true → Fresh (requestOf p) s →
    let v := configField (packetPayload p)
    let old := s.status.settings
    let bad : Option Byte :=
      if 32 ≤ (packetByte (packetPayload p) 0).toNat then some 1
      else if (v 0).any (fun n => decide (n < 256) || decide (4096 < n)) then some 2
      else if (v 1).any (fun n => decide (n = 0)) then some 3
      else if (v 2).any (fun n => decide (1 < n)) then some 4
      else if (v 3).any (fun n => decide (7 < n) && !decide (n = 255)) then some 5
      else if (v 4).any (fun n => decide (1 < n)) then some 6
      else none
    (∀ f, bad = some f →
      ∃ t, exec .configWrite s = .next t ∧ Answered s (requestOf p) rest ⟨.field, [f]⟩ t ∧ OnlyAgentAndRelay s t)
    ∧ (bad = none →
      ∃ t st, exec .configWrite s = .next t ∧ Answered s (requestOf p) rest ⟨.ok, settingsBytes st⟩ t
        ∧ OnlyAgentAndRelay { s with status := { s.status with settings := st } } t
        ∧ st.lineBudget = (v 0).getD old.lineBudget ∧ st.frameTimeout = (v 1).getD old.frameTimeout
        ∧ (v 2 = none → st.expiryAction = old.expiryAction) ∧ (v 2 = some 0 → st.expiryAction = .hide)
        ∧ (v 2 = some 1 → st.expiryAction = .keep)
        ∧ (v 3 = none → st.listener = old.listener) ∧ (v 3 = some 255 → st.listener = none)
        ∧ (∀ k : SourceId, v 3 = some k.val → st.listener = some k)
        ∧ (v 4 = none → st.forcePass = old.forcePass) ∧ (v 4 = some 0 → st.forcePass = false)
        ∧ (v 4 = some 1 → st.forcePass = true)))
  ∧ ∀ (s u : State) (p : Packet), nextExtent s = .acted → s.agent.busy = some (.taken p .execute) →
      packetKind p = kindConfigWrite → packetBroadcast p = false → exec .configWrite s = .next u →
      u.agent.contexts = s.agent.contexts ∧ OnlyAgentAndRelay { s with status := u.status } u
      ∧ (configBadField (packetPayload p) = none →
          u.status.settings.listener = ((configField (packetPayload p) 3).map listenerOf).getD s.status.settings.listener)

/-- STATUS_READ (R173, R174, R175): clear options with an unknown bit are answered FIELD; else the reply carries the
snapshot, 64 + 3·n bytes, as it stood before the clears, and then bit 0 clears the counters and bit 1 the first-expiry
record. -/
def Obligations.StatusReadSnapshotsThenClears : Prop :=
  ∀ (s : State) (p : Packet) (rest : List Packet), Takes kindStatusRead p rest s → (packetPayload p).length = 1 →
    Fresh (requestOf p) s →
    let options := packetByte (packetPayload p) 0
    let snapshot := beBytes 1 (lockCode s.rx.lock) ++ beBytes 1 (faultCode s.rx.lastFault)
      ++ optionalPart 2 (s.rx.lastFrame.map maskBytes) ++ [s.sorter.address] ++ beBytes 1 s.layers.commits.length
      ++ s.layers.commits.flatMap (fun c => beBytes 1 c.source.val ++ maskBytes c.mask)
      ++ optionalPart 4 (s.layers.firstExpiry.map
          (fun f => beBytes 1 f.source.val ++ beBytes 1 f.layer.val ++ maskBytes f.frame))
      ++ s.status.counters.toList.flatMap (beBytes 4)
    (4 ≤ options.toNat →
      ∃ t, exec .statusRead s = .next t ∧ Answered s (requestOf p) rest ⟨.field, [1]⟩ t ∧ OnlyAgentAndRelay s t)
    ∧ (options.toNat < 4 →
      ∃ t, exec .statusRead s = .next t ∧ Answered s (requestOf p) rest ⟨.ok, snapshot⟩ t
        ∧ snapshot.length = 64 + 3 * s.layers.commits.length
        ∧ (∀ c, t.counter c = if options.getLsbD 0 then 0 else s.counter c)
        ∧ t.layers.firstExpiry = (if options.getLsbD 1 then none else s.layers.firstExpiry)
        ∧ OnlyAgentAndRelay { s with
            status := { s.status with counters := t.status.counters }
            layers := { s.layers with firstExpiry := t.layers.firstExpiry } } t)

/-- The counters (R177): an increment of k sets a counter to the sum, or to 4294967295 where the sum is above it, and leaves
the other counters; and no command lowers a counter but a STATUS_READ with bit 0 set, a RESET of scope NODE and pin reset,
each of which sets it to 0; an FS, or the expiry of a layer, that finds such a request taken carries it through before its
FRAME_START (R145, log 28). An LS that finds the agent come on with a RESET of scope NODE (log 11) then counts the layers
that its plan leaves out. -/
def Obligations.CountersSaturateUntilCleared : Prop :=
  (∀ (s : State) (c : Counter) (k : Nat),
    (bump c k s).counter c = (if s.counter c + k ≤ 4294967295 then s.counter c + k else 4294967295)
    ∧ ∀ d, d ≠ c → (bump c k s).counter d = s.counter d)
  ∧ ∀ (s t : State) (i : Instr) (c : Counter), exec i s = .next t → s.counter c ≤ 4294967295 →
    (s.counter c ≤ t.counter c ∧ t.counter c ≤ 4294967295)
    ∨ t.counter c = 0 ∧ (i = .pinReset
        ∨ (i = .statusRead ∧ ∃ p rest, InHand p .execute rest s ∧ nextExtent s ≠ .taken
            ∧ packetKind p = kindStatusRead ∧ (packetByte (packetPayload p) 0).getLsbD 0 = true)
        ∨ (i = .resetNode ∧ ∃ p rest, InHand p .execute rest s ∧ nextExtent s ≠ .taken
            ∧ packetKind p = kindReset ∧ field (packetPayload p) 0 1 = 1)
        ∨ (((∃ f w h, i = .fs f w h) ∨ ∃ l f, i = .leaseExpiry l f) ∧ ∃ p, s.agent.busy = some (.taken p .execute)
            ∧ (packetKind p = kindStatusRead ∧ (packetByte (packetPayload p) 0).getLsbD 0 = true
              ∨ packetKind p = kindReset ∧ field (packetPayload p) 0 1 = 1)))
    ∨ ∃ kind index p rest, i = .ls kind index ∧ InHand p .execute rest s ∧ packetKind p = kindReset
        ∧ field (packetPayload p) 0 1 = 1 ∧ (lsFinds kind index s).1.status = NodeStatus.reset
        ∧ t.counter c ≤ (if c = .linesNotReady ∨ c = .linesBudgetSkip then 16 else 0)

/-- RESET of scope TABLES (R24, R49, R157): the tables are cleared, with the commit-applied and lease-expired items of every
context, and all else is kept; addressed it is answered, broadcast it is not (R149). A scope that is neither is answered
FIELD where it is addressed, and changes nothing where it is broadcast, by either row (log 4). -/
def Obligations.ResetTablesClearsTables : Prop :=
  ∀ (s : State) (p : Packet) (rest : List Packet), (packetPayload p).length = 1 →
    (∀ c, c = Instr.resetTables ∨ c = Instr.resetNode → Takes kindReset p rest s → Fresh (requestOf p) s →
      1 < field (packetPayload p) 0 1 →
      ∃ t, exec c s = .next t ∧ Answered s (requestOf p) rest ⟨.field, [1]⟩ t ∧ OnlyAgentAndRelay s t)
    ∧ (∀ c, c = Instr.resetTables ∨ c = Instr.resetNode → TakesBroadcast kindReset p rest s →
      1 < field (packetPayload p) 0 1 →
      exec c s = .next (finished rest s))
    ∧ (field (packetPayload p) 0 1 = 0 →
      let kept := { s with agent := { s.agent with
        contexts := mapVec (fun c => { c with commitItem := none, leaseItem := none }) s.agent.contexts } }
      (Takes kindReset p rest s → Fresh (requestOf p) s →
        ∃ t, exec .resetTables s = .next t ∧ Answered kept (requestOf p) rest ⟨.ok, [0]⟩ t ∧ TablesCleared t
          ∧ t.layers.firstExpiry = s.layers.firstExpiry ∧ t.glyphs.bytes = s.glyphs.bytes
          ∧ t.glyphs.epoch = s.glyphs.epoch
          ∧ OnlyAgentAndRelay { kept with layers := t.layers, glyphs := t.glyphs } t)
      ∧ (TakesBroadcast kindReset p rest s →
        ∃ t, exec .resetTables s = .next t ∧ TablesCleared t
          ∧ t.layers.firstExpiry = s.layers.firstExpiry ∧ t.glyphs.bytes = s.glyphs.bytes
          ∧ t.glyphs.epoch = s.glyphs.epoch
          ∧ t = { finished rest kept with layers := t.layers, glyphs := t.glyphs }))

/-- RESET of scope NODE (R24, R49, R157, R158, R179): beside the tables, settings, counters, first-expiry record and last
fault kind return to their reset values and every context to UNKNOWN, with the notes of packets on their way cleared; then
the requester's context is that of an executed request. Broadcast, it is not answered. -/
def Obligations.ResetNodeClearsNode : Prop :=
  ∀ (s : State) (p : Packet) (rest : List Packet), (packetPayload p).length = 1 → field (packetPayload p) 0 1 = 1 →
    let cleared := fun t : State => TablesCleared t ∧ t.layers.firstExpiry = none ∧ t.glyphs.bytes = s.glyphs.bytes
      ∧ t.glyphs.epoch = s.glyphs.epoch ∧ t.status.settings = Settings.default ∧ (∀ c, t.counter c = 0)
      ∧ t.rx = { s.rx with lastFault := none } ∧ t.agent.inbound = rest ∧ t.agent.busy = none
      ∧ t.agent.lastServed = 7 ∧ t.agent.granted = (s.agent.granted && s.agent.busy.isSome)
      ∧ t.extents = s.extents.tail ∧ relayTraffic t = relayTraffic s
      ∧ t.relay.receiving = s.relay.receiving ∧ t.relay.lane = s.relay.lane
      ∧ { t with agent := s.agent, relay := s.relay, layers := s.layers, glyphs := s.glyphs, status := s.status,
                 rx := s.rx, extents := s.extents } = s
    (Takes kindReset p rest s → Fresh (requestOf p) s →
      let reply := replyPacket s.sorter.address (requestOf p) ⟨.ok, [1]⟩
      ∃ t, exec .resetNode s = .next t ∧ cleared t
        ∧ ownTraffic t = (ownTraffic s).map (fun q => { q with note := false }) ++ [⟨reply, .reply, true⟩]
        ∧ ∀ src, t.context src
            = if src = packetSource p then
                { Context.empty with state := .active, lastSeq := some (packetSeq p), cached := some reply,
                                     cachedQueued := true }
              else Context.empty)
    ∧ (TakesBroadcast kindReset p rest s →
      ∃ t, exec .resetNode s = .next t ∧ cleared t
        ∧ ownTraffic t = (ownTraffic s).map (fun q => { q with note := false })
        ∧ ∀ src, t.context src = Context.empty)

/-! ## The request agent -/

/-- A request of an unknown kind is answered KIND, and one of the wrong length LENGTH, with no result data; neither is
executed, cached or remembered (R148). A broadcast of the wrong length is discarded (R149). That a RESET of the wrong length
is answered or discarded by either RESET row is deduced (log 4). -/
def Obligations.RequestsTurnedAwayUncached : Prop :=
  (∀ (s : State) (p : Packet) (rest : List Packet), nextExtent s = .replied → InHand p (.refused .kind) rest s →
    packetBroadcast p = false → packetKind p ∉ requestKinds →
    ∃ t, exec .unknownKind s = .next t ∧ AnsweredUncached s (requestOf p) rest .kind t ∧ OnlyAgentAndRelay s t)
  ∧ (∀ (s : State) (c : Instr) (p : Packet) (rest : List Packet), nextExtent s = .replied → Serves c p →
    InHand p (.refused .length) rest s → packetBroadcast p = false →
    lengthAccepted (packetKind p) (packetPayload p) = false →
    ∃ t, exec c s = .next t ∧ AnsweredUncached s (requestOf p) rest .length t ∧ OnlyAgentAndRelay s t)
  ∧ ∀ (s : State) (c : Instr) (p : Packet) (rest : List Packet), nextExtent s ≠ .taken → c ∈ broadcastRows →
    Serves c p → InHand p .discarded rest s → packetBroadcast p = true →
    lengthAccepted (packetKind p) (packetPayload p) = false → exec c s = .next (finished rest s)

/-- A duplicate is counted and not executed (R151): where a copy of the cached reply was on its way when it was taken, it is
discarded and its place released (R144); else the cached reply is placed again, unchanged, and its mark set. That a duplicate
RESET whose scope is neither is answered by either RESET row is deduced (log 4). -/
def Obligations.DuplicatesAnsweredFromCache : Prop :=
  ∀ (s : State) (c : Instr) (p : Packet) (rest : List Packet) (copy : Option Packet), nextExtent s = .replied → Serves c p →
    InHand p (.duplicate copy) rest s → packetBroadcast p = false →
    lengthAccepted (packetKind p) (packetPayload p) = true → ¬Fresh (requestOf p) s →
    (s.agent.busy = none →
      copy = if (s.context (packetSource p)).cachedQueued then none else (s.context (packetSource p)).cached) →
    ∃ t, exec c s = .next t
      ∧ t.counter .reqDuplicate = min (s.counter .reqDuplicate + 1) 4294967295
      ∧ (∀ k, k ≠ .reqDuplicate → t.counter k = s.counter k)
      ∧ (copy = none → { t with status := { t.status with counters := s.status.counters } } = finished rest s
          ∧ freePlaces t = 8 - s.agent.replies.length)
      ∧ (∀ q, copy = some q → AnsweredAgain s (requestOf p) rest q t)
      ∧ OnlyAgentAndRelay { s with status := { s.status with counters := t.status.counters } } t

/-- A request holds the agent from its taking to its reply, and other events may fall between (R144, R145). Taken, it is judged
by the checks of R148 and R151, or R149, and nothing else happens. Its own action then leaves the agent's queues and marks, and
the relay, as they are, but for what a RESET clears of them; a request that is not to be executed has none. Its reply is placed
at the end, and nothing else happens then. A command that carries it further does what two commands do one after the other. A
row of another request leaves the request in execution alone, and takes none. A FRAME_START falls between two requests, or during
a load's writes: after an FS in range no other request is in execution, where it is one that some row executes. How far a command
comes is the sender's choice (log 28), and that a row without its occasion changes nothing is the model's (log 1); that an FS
finds the request carried to its completion is deduced (log 28). -/
def Obligations.RequestHeldFromTakingToReply : Prop :=
  (∀ (s : State) (c : Instr) (p : Packet) (rest : List Packet), nextExtent s = .taken → s.agent.busy = none →
    s.agent.inbound = p :: rest → (packetBroadcast p = true ∨ canReserve s = true) → RowOf c (requestOf p) →
    (packetBroadcast p = true → c ∈ broadcastRows) →
    ∃ j, exec c s = .next { finished rest s with agent := { (finished rest s).agent with busy := some (.taken p j) } }
      ∧ (packetBroadcast p = true →
          j = if lengthAccepted (packetKind p) (packetPayload p) then .execute else .discarded)
      ∧ (packetBroadcast p = false →
          (c = .unknownKind → j = .refused .kind)
          ∧ (c ≠ .unknownKind → lengthAccepted (packetKind p) (packetPayload p) = false → j = .refused .length)
          ∧ (lengthAccepted (packetKind p) (packetPayload p) = true →
              (Fresh (requestOf p) s → j = .execute)
              ∧ (¬Fresh (requestOf p) s → j = .duplicate
                  (if (s.context (packetSource p)).cachedQueued then none else (s.context (packetSource p)).cached)))))
  ∧ (∀ (s u : State) (c : Instr) (p : Packet) (j : Judgement), nextExtent s = .acted → s.agent.busy = some (.taken p j) →
    RowOf c (requestOf p) → (packetBroadcast p = true → c ∈ broadcastRows) → exec c s = .next u →
      (j = .execute → packetBroadcast p = true → u.agent.busy = none)
      ∧ (j = .execute → packetBroadcast p = false → c ≠ .unknownKind →
          (∃ a, u.agent.busy = some (.acted (requestOf p) (.executed a)))
          ∨ c = .glyphLoad ∧ ∃ run, u.agent.busy = some (.load run))
      ∧ (j = .execute → c ≠ .resetTables → c ≠ .resetNode →
          u.agent = { s.agent with busy := u.agent.busy } ∧ u.relay = s.relay)
      ∧ (∀ st, j = .refused st → u = { s with
          extents := s.extents.tail
          agent := { s.agent with busy := some (.acted (requestOf p) (.refused st)) } })
      ∧ (j = .discarded → u = { s with extents := s.extents.tail, agent := { s.agent with busy := none } })
      ∧ ∀ copy, j = .duplicate copy →
          u.counter .reqDuplicate = min (s.counter .reqDuplicate + 1) 4294967295
          ∧ (∀ k, k ≠ .reqDuplicate → u.counter k = s.counter k)
          ∧ { u with status := { u.status with counters := s.status.counters } } = { s with
              extents := s.extents.tail
              agent := { s.agent with busy := copy.map (fun q => .acted (requestOf p) (.copied q)) } })
  ∧ (∀ (s : State) (c : Instr) (r : Request) (due : DueReply), nextExtent s = .replied →
    s.agent.busy = some (.acted r due) → (RowOf c r ∨ c = .glyphLoadComplete ∧ r.kind = kindGlyphLoad) →
    ∃ t, exec c s = .next t ∧ OnlyAgentAndRelay s t
      ∧ match due with
        | .executed a => Answered s r s.agent.inbound a t
        | .refused st => AnsweredUncached s r s.agent.inbound st t
        | .copied q => AnsweredAgain s r s.agent.inbound q t)
  ∧ (∀ (s u : State) (c : Instr) (es : List Config.Extent), c ∈ requestRows →
    (exec c { s with extents := .taken :: es } = .next u → ∀ e, e ≠ Config.Extent.taken →
      exec c { s with extents := e :: es } = exec c { u with extents := e :: es })
    ∧ (exec c { s with extents := .acted :: es } = .next u →
      exec c { s with extents := .replied :: es }
        = if u.agent.busy = none then .next u else exec c { u with extents := .replied :: es }))
  ∧ (∀ (s : State) (c : Instr) (x : Execution), c ∈ requestRows → s.agent.busy = some x →
    (match x with
      | .taken p _ => nextExtent s = .taken ∨ ¬RowOf c (requestOf p)
      | .load _ => True
      | .acted r _ => nextExtent s ≠ .replied ∨ ¬RowOf c r) →
    exec c s = .next { s with extents := s.extents.tail })
  ∧ ∀ (s t : State) (f w h : Word), fsInRange w h = true →
    (∀ p j, s.agent.busy = some (.taken p j) →
      (packetBroadcast p = true → ∃ c ∈ broadcastRows, RowOf c (requestOf p))
      ∧ (j = .execute → packetKind p ∈ requestKinds)) →
    exec (.fs f w h) s = .next t → BetweenRequests t

/-- The notice builder (R147, R155, R156): with a free place that is not left to the agent it serves the first eligible source
after the last one served, clears that context's items, sets its outstanding mark, raises its notice sequence, and its notice
stands last among the node's own packets. Of two or more free places it leaves one to an agent that wants it. The agent takes
an addressed request where a place is free and either no source is eligible or the builder has left it that place. That the
builder's command without such a place or source, and a request's command that the agent cannot take, leave the state as it
is, is the model's choice (log 1); that the place left stays the agent's is deduced (log 5). -/
def Obligations.NoticeBuiltInTurn : Prop :=
  (∀ (s : State) (d : SourceId), eligible s (s.agent.lastServed + 1 + d) = true →
    (∀ d', d' < d → eligible s (s.agent.lastServed + 1 + d') = false) → 1 ≤ freePlaces s →
    (s.agent.granted = true → wantsPlace s = true → 2 ≤ freePlaces s) →
    let src := s.agent.lastServed + 1 + d
    let c := s.context src
    ∃ t, exec .noticeBuild s = .next t
      ∧ ownTraffic t = ownTraffic s
          ++ [⟨sealPacket s.sorter.address src c.noticeSeq 0x81 (noticePayload c), .notice, true⟩]
      ∧ relayTraffic t = relayTraffic s ∧ t.relay.receiving = s.relay.receiving ∧ t.relay.lane = s.relay.lane
      ∧ t.context src = { c with commitItem := none, leaseItem := none, lockItem := none, budgetItem := none,
                                 noticeOutstanding := true, noticeSeq := c.noticeSeq + 1 }
      ∧ (∀ k, k ≠ src → t.context k = s.context k)
      ∧ t.agent.lastServed = src ∧ t.agent.inbound = s.agent.inbound ∧ t.agent.busy = s.agent.busy
      ∧ (t.agent.granted = true ↔ wantsPlace s = true ∧ 2 ≤ freePlaces s)
      ∧ (wantsPlace s = true → 2 ≤ freePlaces s → canReserve t = true)
      ∧ 5 ≤ (noticePayload c).length ∧ (noticePayload c).length ≤ 27
      ∧ OnlyAgentAndRelay s t ∧ t.extents = s.extents)
  ∧ (∀ s : State, freePlaces s = 0 ∨ (s.agent.granted = true ∧ wantsPlace s = true ∧ freePlaces s ≤ 1)
      ∨ (∀ src, eligible s src = false) → exec .noticeBuild s = .next s)
  ∧ (∀ s : State, canReserve s = true
      ↔ 1 ≤ freePlaces s ∧ ((∀ src, eligible s src = false) ∨ s.agent.granted = true))
  ∧ ∀ (s : State) (c : Instr) (p : Packet), s.agent.busy = none → s.agent.inbound.head? = some p →
      packetBroadcast p = false → canReserve s = false → c ∈ requestRows →
      exec c s = .next { s with extents := s.extents.tail }

/-! ## The transmitter -/

/-- The FS, FE or aborted FE at the head leaves, and IDL in IDLE (R113, R114, R118, R119, R120): an FS opens the output
frame, which is to be aborted where the first FE behind it is an aborted one, and clears the counts sent; an FE closes it; an
aborted FE carries the counts sent with its abort flag set. The latch of what left is the model's own (log 16). -/
def Obligations.TransmitterSendsMarkers : Prop :=
  (∀ (s : State) (f w h : Word) (rest : List OutItem), s.tx.sequence = .fs f w h :: rest →
    exec .fsSent s = .next { s with tx := {
      state := if s.tx.state = .idle then
          (if rest.find? isFrameEnd = some .abortedFe then .aborting else .frame) else s.tx.state
      sequence := rest, activeSent := 0, blankSent := 0, lane := some (.fs f w h) } })
  ∧ (∀ (s : State) (a b : Word) (x : Bool) (rest : List OutItem), s.tx.sequence = .fe a b x :: rest →
    exec .feSent s = .next { s with tx := { s.tx with state := .idle, sequence := rest, lane := some (.fe a b x) } })
  ∧ (∀ (s : State) (rest : List OutItem), s.tx.sequence = .abortedFe :: rest →
    exec .feSent s = .next { s with tx := { s.tx with
      state := .idle, sequence := rest
      lane := some (.fe (BitVec.ofNat 16 s.tx.activeSent) (BitVec.ofNat 16 s.tx.blankSent) true) } })
  ∧ ∀ s : State, s.tx.state = .idle → (∀ f w h, s.tx.sequence.head? ≠ some (.fs f w h)) →
    exec .idlSent s = .next { s with tx := { s.tx with lane := some .idl } }

/-- A complete line at the head that is no long line still open leaves with its LS fields and its payload (R115, R116, R117):
the leaving slot's content, its carried pixels, or its packets and 0x00 to the end of its data area, and then what a long
line added. The count of its kind rises to 65535 at most. A slot that held it is free, or taken by the next line where that
one waits with its pixels (R72). How lines wait for the slot (log 15), when a long line leaves (log 14) and the latch of what
left (log 16) are the model's choices. -/
def Obligations.LineSentLeavesWhole : Prop :=
  ∀ (s : State) (l : OutLine) (rest : List OutItem), s.tx.sequence = .line l :: rest → l.payload ≠ .incomplete →
    (rest ≠ [] ∨ longLineOpen s = false) →
    let head := match l.payload with
      | .incomplete => []
      | .leaving => s.comp.leaving.getD []
      | .carried bytes => bytes
      | .blank packets area => packets.flatten ++ List.replicate (area - packets.flatten.length) 0
    let slot := if l.payload = .leaving then none else s.comp.leaving
    ∃ t, exec .lineSent s = .next t
      ∧ t.tx.lane = some (.line l.kind l.index (head ++ l.tail)) ∧ t.tx.state = s.tx.state
      ∧ t.tx.activeSent = (if l.kind = .active then min (s.tx.activeSent + 1) 65535 else s.tx.activeSent)
      ∧ t.tx.blankSent = (if l.kind = .blank then min (s.tx.blankSent + 1) 65535 else s.tx.blankSent)
      ∧ { t with tx := s.tx, comp := { t.comp with leaving := s.comp.leaving } } = s
      ∧ ((slot.isSome ∨ promoteFirst rest = none) → t.tx.sequence = rest ∧ t.comp.leaving = slot)
      ∧ ∀ (before after : List OutItem) (k : OutLine) (bytes : List Byte), slot = none →
          rest = before ++ .line k :: after → (∀ it ∈ before, ∀ j, it ≠ .line j) → k.payload = .carried bytes →
          t.tx.sequence = before ++ .line { k with payload := .leaving } :: after ∧ t.comp.leaving = some bytes

/-! ## The return relay -/

/-- Reception on the return lane (R161, R162): a start begins a packet and its bytes join it; at its end a bad packet is
dropped and counted, a good one joins the relayed packets behind those there, or is dropped and counted where the FIFO is
full; signal loss cuts it. With none in reception signal loss changes nothing. That a start during reception begins afresh
is the model's choice (log 17). -/
def Obligations.ReturnLaneReception : Prop :=
  (∀ s : State, exec .returnPacketStart s = .next { s with relay := { s.relay with receiving := some [] } })
  ∧ (∀ (s : State) (b : Byte) (bytes : List Byte), s.relay.receiving = some bytes →
      exec (.returnPacketByte b) s = .next { s with relay := { s.relay with receiving := some (bytes ++ [b]) } })
  ∧ (∀ s : State, s.relay.receiving = none → exec .returnSignalLoss s = .next s)
  ∧ ∀ (s : State) (p : Packet), s.relay.receiving = some p →
    (∀ c, c = Instr.returnSignalLoss ∨ c = .returnPacketEnd ∧ returnPacketGood p = false →
      ∃ t, exec c s = .next t
        ∧ t.counter .relayBadCrc = min (s.counter .relayBadCrc + 1) 4294967295
        ∧ (∀ k, k ≠ .relayBadCrc → t.counter k = s.counter k)
        ∧ { t with status := { t.status with counters := s.status.counters } }
            = { s with relay := { s.relay with receiving := none } })
    ∧ (returnPacketGood p = true → s.relay.fifo.length < 4 →
      ∃ t, exec .returnPacketEnd s = .next t ∧ relayTraffic t = relayTraffic s ++ [p] ∧ ownTraffic t = ownTraffic s
        ∧ t.relay.receiving = none ∧ t.relay.lane = s.relay.lane
        ∧ (s.relay.sending.isSome → t.relay.sending = s.relay.sending ∧ t.relay.lastServed = s.relay.lastServed)
        ∧ { t with relay := s.relay, agent := { t.agent with replies := s.agent.replies } } = s)
    ∧ (returnPacketGood p = true → 4 ≤ s.relay.fifo.length →
      ∃ t, exec .returnPacketEnd s = .next t
        ∧ t.counter .relayOverflow = min (s.counter .relayOverflow + 1) 4294967295
        ∧ (∀ k, k ≠ .relayOverflow → t.counter k = s.counter k)
        ∧ { t with status := { t.status with counters := s.status.counters } }
            = { s with relay := { s.relay with receiving := none } })

/-- Lane-free (R163, R164, R165): the packet in sending has left; a note it carries clears its mark in its destination's
context; and the arbiter selects the next packet by its table. The latch of what left is the model's own (log 16). -/
def Obligations.LaneFreeSelectsNext : Prop :=
  ∀ (s : State) (x : Sending), s.relay.sending = some x →
    ∃ t, exec .laneFree s = .next t ∧ t.relay.lane = some (sentPacket x) ∧ t.relay.receiving = s.relay.receiving
      ∧ (∀ src, t.context src
          = match x with
            | .relayed _ => s.context src
            | .own q =>
              if q.note = true ∧ packetSource q.packet = src then
                (match q.cls with
                  | .reply => { s.context src with cachedQueued := false }
                  | .notice => { s.context src with noticeOutstanding := false })
              else s.context src)
      ∧ (∀ q fifo, s.relay.fifo = q :: fifo → s.agent.replies = [] ∨ s.relay.lastServed = .reply →
          t.relay.sending = some (.relayed q) ∧ t.relay.fifo = fifo ∧ t.relay.lastServed = .relay
          ∧ t.agent.replies = s.agent.replies)
      ∧ (∀ q replies, s.agent.replies = q :: replies → s.relay.fifo = [] ∨ s.relay.lastServed = .relay →
          t.relay.sending = some (.own q) ∧ t.agent.replies = replies ∧ t.relay.lastServed = .reply
          ∧ t.relay.fifo = s.relay.fifo)
      ∧ (s.relay.fifo = [] → s.agent.replies = [] →
          t.relay.sending = none ∧ t.relay.fifo = [] ∧ t.agent.replies = [] ∧ t.relay.lastServed = s.relay.lastServed)
      ∧ { t with relay := s.relay, agent := { t.agent with contexts := s.agent.contexts, replies := s.agent.replies } } = s

/-! ## What every step keeps -/

/-- State.reset has every property that the statements below say a step keeps. What they say of a store with nothing listed
(log 8) and of the model's own fields (logs 5 and 9) rests on the model's choices. -/
def Obligations.ResetMeetsEveryKeptProperty : Prop :=
  StoreCanonical State.reset ∧ QueuesBounded State.reset ∧ LeasesSound State.reset ∧ CommitsSound State.reset
  ∧ SourcesKnown State.reset
  ∧ RecordsInRange State.reset ∧ StatusInRange State.reset ∧ ReferencesCounted State.reset ∧ DirectorySound State.reset
  ∧ ContextsSound State.reset ∧ NotesSound State.reset ∧ ReceiverSound State.reset ∧ LinesSound State.reset

/-- Every step keeps the glyph store in its canonical form, inside its 131072 addresses (R30). -/
def Obligations.StoreStaysCanonical : Prop := ∀ s t : State, StoreCanonical s → step s = .next t → StoreCanonical t

/-- Every step keeps the queues within their places: at most 4 requests, 8 packets and reservations, 4 relayed packets
(R143, R146, R162), with a free place as long as one is left to the agent, and an agent that wants it (R147; that the place
stays the agent's is deduced, log 5). The arbiter begins a send wherever a packet waits: the lane is FREE only with both
queues empty (R164). -/
def Obligations.QueuesStayBounded : Prop := ∀ s t : State, QueuesBounded s → step s = .next t → QueuesBounded t

/-- Every step keeps the ownership fields of every layer in agreement, and the commit list with at most one entry a source,
each naming a layer (R78, R13); and the context of every owner, and of every source of an armed commit, stays ACTIVE, or its
first request has been executed and the reply that makes it ACTIVE is due (R87, R150, R152). -/
def Obligations.LeasesAndCommitsStaySound : Prop :=
  (∀ s t : State, LeasesSound s ∧ CommitsSound s → step s = .next t → LeasesSound t ∧ CommitsSound t)
  ∧ ∀ s t : State, SourcesKnown s → step s = .next t → SourcesKnown t

/-- Every step keeps every layer record, setting, counter and the node address within its range (R3, R135, R169, R177). -/
def Obligations.ValuesStayInRange : Prop :=
  ∀ s t : State, RecordsInRange s ∧ StatusInRange s → step s = .next t → RecordsInRange t ∧ StatusInRange t

/-- Every step keeps each entry's reference count equal to the number of records of both banks that name it, and no record
names a FREE entry (R43). -/
def Obligations.ReferencesStayCounted : Prop :=
  ∀ s t : State, ReferencesCounted s → step s = .next t → ReferencesCounted t

/-- With a sound directory and records in range no command stops the part (the one stop of the model is log 19), and every
step keeps both: the block map gives each block to the one entry whose run holds it, entries agree with their formats, a load
stays inside its glyph, and a plan reads inside the store (R26, R29, R30, R35, R64). That the data bytes that a load has
written so far stand in the store (R38) is about the model's own field (log 9). -/
def Obligations.SoundDirectoryNeverStops : Prop :=
  ∀ s : State, DirectorySound s → RecordsInRange s → ∃ t, step s = .next t ∧ DirectorySound t ∧ RecordsInRange t

/-- Every step keeps each context's marks in agreement with the packets on their way: a mark is set exactly while one packet
carries its note; and UNKNOWN contexts stay empty (R150, R152, R156, R165). -/
def Obligations.NotesStaySound : Prop :=
  ∀ s t : State, ContextsSound s ∧ NotesSound s → step s = .next t → ContextsSound t ∧ NotesSound t

/-- Every step keeps the receiver's fields in agreement with its lock state: the watchdog runs exactly outside HUNT, a frame
in FRAME is unfaulted and in range, one in RAW is faulted (R95, R105, R106, R108). -/
def Obligations.ReceiverStaysSound : Prop :=
  ∀ s t : State, ReceiverSound s → StatusInRange s → step s = .next t → ReceiverSound t

/-- Every step keeps the line in progress in agreement across receiver, compositor, sorter and transmitter, and the leaving
slot with exactly one line of the output sequence, or empty (R72, R112, R115, R125). That the values drawn of a planned line by
then are those of the plan's bytes as they stand (R65, R72) is how the model holds them (log 10). -/
def Obligations.LinesStaySound : Prop := ∀ s t : State, LinesSound s → step s = .next t → LinesSound t

end
end

