-- ==== Sys2Proof/Laws/State.lean ====
section
/-! SUPPORT. Which fields of State each operation leaves alone: one lemma an operation, used field by field by simp. -/

namespace Sys2Proof.Machine

/-! ## Updates of one block -/

@[simp] theorem State.modifyContext_frame (src : SourceId) (f : Context → Context) (s : State) :
    (State.modifyContext src f s).pending = s.pending ∧ (State.modifyContext src f s).extents = s.extents ∧
    (State.modifyContext src f s).rx = s.rx ∧ (State.modifyContext src f s).sorter = s.sorter ∧
    (State.modifyContext src f s).layers = s.layers ∧ (State.modifyContext src f s).glyphs = s.glyphs ∧
    (State.modifyContext src f s).comp = s.comp ∧ (State.modifyContext src f s).tx = s.tx ∧
    (State.modifyContext src f s).relay = s.relay ∧ (State.modifyContext src f s).status = s.status ∧
    (State.modifyContext src f s).freeDraws = s.freeDraws := by
  exact ⟨rfl, rfl, rfl, rfl, rfl, rfl, rfl, rfl, rfl, rfl, rfl⟩

@[simp] theorem State.setOwnership_frame (l : LayerId) (o : Ownership) (s : State) :
    (State.setOwnership l o s).pending = s.pending ∧ (State.setOwnership l o s).extents = s.extents ∧
    (State.setOwnership l o s).rx = s.rx ∧ (State.setOwnership l o s).sorter = s.sorter ∧
    (State.setOwnership l o s).agent = s.agent ∧ (State.setOwnership l o s).glyphs = s.glyphs ∧
    (State.setOwnership l o s).comp = s.comp ∧ (State.setOwnership l o s).tx = s.tx ∧
    (State.setOwnership l o s).relay = s.relay ∧ (State.setOwnership l o s).status = s.status ∧
    (State.setOwnership l o s).freeDraws = s.freeDraws := by
  exact ⟨rfl, rfl, rfl, rfl, rfl, rfl, rfl, rfl, rfl, rfl, rfl⟩

@[simp] theorem State.modifyEntry_frame (e : GlyphId) (f : Option Glyph → Option Glyph) (s : State) :
    (State.modifyEntry e f s).pending = s.pending ∧ (State.modifyEntry e f s).extents = s.extents ∧
    (State.modifyEntry e f s).rx = s.rx ∧ (State.modifyEntry e f s).sorter = s.sorter ∧
    (State.modifyEntry e f s).agent = s.agent ∧ (State.modifyEntry e f s).layers = s.layers ∧
    (State.modifyEntry e f s).comp = s.comp ∧ (State.modifyEntry e f s).tx = s.tx ∧
    (State.modifyEntry e f s).relay = s.relay ∧ (State.modifyEntry e f s).status = s.status ∧
    (State.modifyEntry e f s).freeDraws = s.freeDraws := by
  exact ⟨rfl, rfl, rfl, rfl, rfl, rfl, rfl, rfl, rfl, rfl, rfl⟩

@[simp] theorem bump_frame (c : Counter) (k : Nat) (s : State) :
    (bump c k s).pending = s.pending ∧ (bump c k s).extents = s.extents ∧ (bump c k s).rx = s.rx ∧
    (bump c k s).sorter = s.sorter ∧ (bump c k s).agent = s.agent ∧ (bump c k s).layers = s.layers ∧
    (bump c k s).glyphs = s.glyphs ∧ (bump c k s).comp = s.comp ∧ (bump c k s).tx = s.tx ∧
    (bump c k s).relay = s.relay ∧ (bump c k s).freeDraws = s.freeDraws := by
  exact ⟨rfl, rfl, rfl, rfl, rfl, rfl, rfl, rfl, rfl, rfl, rfl⟩

@[simp] theorem clearCounters_frame (s : State) :
    (clearCounters s).pending = s.pending ∧ (clearCounters s).extents = s.extents ∧ (clearCounters s).rx = s.rx ∧
    (clearCounters s).sorter = s.sorter ∧ (clearCounters s).agent = s.agent ∧ (clearCounters s).layers = s.layers ∧
    (clearCounters s).glyphs = s.glyphs ∧ (clearCounters s).comp = s.comp ∧ (clearCounters s).tx = s.tx ∧
    (clearCounters s).relay = s.relay ∧ (clearCounters s).freeDraws = s.freeDraws := by
  exact ⟨rfl, rfl, rfl, rfl, rfl, rfl, rfl, rfl, rfl, rfl, rfl⟩

@[simp] theorem strayEnd_frame (s : State) :
    (strayEnd s).pending = s.pending ∧ (strayEnd s).extents = s.extents ∧ (strayEnd s).sorter = s.sorter ∧
    (strayEnd s).agent = s.agent ∧ (strayEnd s).layers = s.layers ∧ (strayEnd s).glyphs = s.glyphs ∧
    (strayEnd s).comp = s.comp ∧ (strayEnd s).tx = s.tx ∧ (strayEnd s).relay = s.relay ∧
    (strayEnd s).freeDraws = s.freeDraws := by
  exact ⟨rfl, rfl, rfl, rfl, rfl, rfl, rfl, rfl, rfl, rfl⟩

@[simp] theorem markContext_frame (src : SourceId) (f : Context → Context) (s : State) :
    (markContext src f s).pending = s.pending ∧ (markContext src f s).extents = s.extents ∧
    (markContext src f s).rx = s.rx ∧ (markContext src f s).sorter = s.sorter ∧
    (markContext src f s).layers = s.layers ∧ (markContext src f s).glyphs = s.glyphs ∧
    (markContext src f s).comp = s.comp ∧ (markContext src f s).tx = s.tx ∧ (markContext src f s).relay = s.relay ∧
    (markContext src f s).status = s.status ∧ (markContext src f s).freeDraws = s.freeDraws := by
  exact ⟨rfl, rfl, rfl, rfl, rfl, rfl, rfl, rfl, rfl, rfl, rfl⟩

@[simp] theorem markCommitApplied_frame (src : SourceId) (tag frame mask : Word) (s : State) :
    (markCommitApplied src tag frame mask s).pending = s.pending ∧
    (markCommitApplied src tag frame mask s).extents = s.extents ∧
    (markCommitApplied src tag frame mask s).rx = s.rx ∧ (markCommitApplied src tag frame mask s).sorter = s.sorter ∧
    (markCommitApplied src tag frame mask s).layers = s.layers ∧
    (markCommitApplied src tag frame mask s).glyphs = s.glyphs ∧
    (markCommitApplied src tag frame mask s).comp = s.comp ∧ (markCommitApplied src tag frame mask s).tx = s.tx ∧
    (markCommitApplied src tag frame mask s).relay = s.relay ∧
    (markCommitApplied src tag frame mask s).status = s.status ∧
    (markCommitApplied src tag frame mask s).freeDraws = s.freeDraws := by
  exact ⟨rfl, rfl, rfl, rfl, rfl, rfl, rfl, rfl, rfl, rfl, rfl⟩

@[simp] theorem markLeaseExpired_frame (src : SourceId) (l : LayerId) (frame : Word) (s : State) :
    (markLeaseExpired src l frame s).pending = s.pending ∧ (markLeaseExpired src l frame s).extents = s.extents ∧
    (markLeaseExpired src l frame s).rx = s.rx ∧ (markLeaseExpired src l frame s).sorter = s.sorter ∧
    (markLeaseExpired src l frame s).layers = s.layers ∧ (markLeaseExpired src l frame s).glyphs = s.glyphs ∧
    (markLeaseExpired src l frame s).comp = s.comp ∧ (markLeaseExpired src l frame s).tx = s.tx ∧
    (markLeaseExpired src l frame s).relay = s.relay ∧ (markLeaseExpired src l frame s).status = s.status ∧
    (markLeaseExpired src l frame s).freeDraws = s.freeDraws := by
  exact ⟨rfl, rfl, rfl, rfl, rfl, rfl, rfl, rfl, rfl, rfl, rfl⟩

@[simp] theorem appendItem_frame (it : OutItem) (s : State) :
    (appendItem it s).pending = s.pending ∧ (appendItem it s).extents = s.extents ∧ (appendItem it s).rx = s.rx ∧
    (appendItem it s).sorter = s.sorter ∧ (appendItem it s).agent = s.agent ∧ (appendItem it s).layers = s.layers ∧
    (appendItem it s).glyphs = s.glyphs ∧ (appendItem it s).comp = s.comp ∧ (appendItem it s).relay = s.relay ∧
    (appendItem it s).status = s.status ∧ (appendItem it s).freeDraws = s.freeDraws := by
  exact ⟨rfl, rfl, rfl, rfl, rfl, rfl, rfl, rfl, rfl, rfl, rfl⟩

@[simp] theorem appendAbortedFe_frame (s : State) :
    (appendAbortedFe s).pending = s.pending ∧ (appendAbortedFe s).extents = s.extents ∧
    (appendAbortedFe s).rx = s.rx ∧ (appendAbortedFe s).sorter = s.sorter ∧ (appendAbortedFe s).agent = s.agent ∧
    (appendAbortedFe s).layers = s.layers ∧ (appendAbortedFe s).glyphs = s.glyphs ∧
    (appendAbortedFe s).comp = s.comp ∧ (appendAbortedFe s).relay = s.relay ∧ (appendAbortedFe s).status = s.status ∧
    (appendAbortedFe s).freeDraws = s.freeDraws := by
  exact ⟨rfl, rfl, rfl, rfl, rfl, rfl, rfl, rfl, rfl, rfl, rfl⟩

@[simp] theorem appendLine_frame (kind : LineKind) (index : Nat) (s : State) :
    (appendLine kind index s).pending = s.pending ∧ (appendLine kind index s).extents = s.extents ∧
    (appendLine kind index s).rx = s.rx ∧ (appendLine kind index s).sorter = s.sorter ∧
    (appendLine kind index s).agent = s.agent ∧ (appendLine kind index s).layers = s.layers ∧
    (appendLine kind index s).glyphs = s.glyphs ∧ (appendLine kind index s).comp = s.comp ∧
    (appendLine kind index s).relay = s.relay ∧ (appendLine kind index s).status = s.status ∧
    (appendLine kind index s).freeDraws = s.freeDraws := by
  exact ⟨rfl, rfl, rfl, rfl, rfl, rfl, rfl, rfl, rfl, rfl, rfl⟩

@[simp] theorem completeLine_frame (p : Payload) (s : State) :
    (completeLine p s).pending = s.pending ∧ (completeLine p s).extents = s.extents ∧ (completeLine p s).rx = s.rx ∧
    (completeLine p s).sorter = s.sorter ∧ (completeLine p s).agent = s.agent ∧
    (completeLine p s).layers = s.layers ∧ (completeLine p s).glyphs = s.glyphs ∧ (completeLine p s).comp = s.comp ∧
    (completeLine p s).relay = s.relay ∧ (completeLine p s).status = s.status ∧
    (completeLine p s).freeDraws = s.freeDraws := by
  exact ⟨rfl, rfl, rfl, rfl, rfl, rfl, rfl, rfl, rfl, rfl, rfl⟩

@[simp] theorem removeCutLine_frame (s : State) :
    (removeCutLine s).pending = s.pending ∧ (removeCutLine s).extents = s.extents ∧ (removeCutLine s).rx = s.rx ∧
    (removeCutLine s).sorter = s.sorter ∧ (removeCutLine s).agent = s.agent ∧ (removeCutLine s).layers = s.layers ∧
    (removeCutLine s).glyphs = s.glyphs ∧ (removeCutLine s).comp = s.comp ∧ (removeCutLine s).relay = s.relay ∧
    (removeCutLine s).status = s.status ∧ (removeCutLine s).freeDraws = s.freeDraws := by
  exact ⟨rfl, rfl, rfl, rfl, rfl, rfl, rfl, rfl, rfl, rfl, rfl⟩

@[simp] theorem sendEnd_frame (it : SentItem) (rest : List OutItem) (s : State) :
    (sendEnd it rest s).pending = s.pending ∧ (sendEnd it rest s).extents = s.extents ∧
    (sendEnd it rest s).rx = s.rx ∧ (sendEnd it rest s).sorter = s.sorter ∧ (sendEnd it rest s).agent = s.agent ∧
    (sendEnd it rest s).layers = s.layers ∧ (sendEnd it rest s).glyphs = s.glyphs ∧
    (sendEnd it rest s).comp = s.comp ∧ (sendEnd it rest s).relay = s.relay ∧ (sendEnd it rest s).status = s.status ∧
    (sendEnd it rest s).freeDraws = s.freeDraws := by
  exact ⟨rfl, rfl, rfl, rfl, rfl, rfl, rfl, rfl, rfl, rfl, rfl⟩

@[simp] theorem renew_frame (l : LayerId) (s : State) :
    (renew l s).pending = s.pending ∧ (renew l s).extents = s.extents ∧ (renew l s).rx = s.rx ∧
    (renew l s).sorter = s.sorter ∧ (renew l s).agent = s.agent ∧ (renew l s).glyphs = s.glyphs ∧
    (renew l s).comp = s.comp ∧ (renew l s).tx = s.tx ∧ (renew l s).relay = s.relay ∧ (renew l s).status = s.status ∧
    (renew l s).freeDraws = s.freeDraws := by
  exact ⟨rfl, rfl, rfl, rfl, rfl, rfl, rfl, rfl, rfl, rfl, rfl⟩

@[simp] theorem hideLayer_frame (l : LayerId) (s : State) :
    (hideLayer l s).pending = s.pending ∧ (hideLayer l s).extents = s.extents ∧ (hideLayer l s).rx = s.rx ∧
    (hideLayer l s).sorter = s.sorter ∧ (hideLayer l s).agent = s.agent ∧ (hideLayer l s).glyphs = s.glyphs ∧
    (hideLayer l s).comp = s.comp ∧ (hideLayer l s).tx = s.tx ∧ (hideLayer l s).relay = s.relay ∧
    (hideLayer l s).status = s.status ∧ (hideLayer l s).freeDraws = s.freeDraws := by
  exact ⟨rfl, rfl, rfl, rfl, rfl, rfl, rfl, rfl, rfl, rfl, rfl⟩

@[simp] theorem arm_frame (c : CommitEntry) (s : State) :
    (arm c s).pending = s.pending ∧ (arm c s).extents = s.extents ∧ (arm c s).rx = s.rx ∧
    (arm c s).sorter = s.sorter ∧ (arm c s).agent = s.agent ∧ (arm c s).glyphs = s.glyphs ∧ (arm c s).comp = s.comp ∧
    (arm c s).tx = s.tx ∧ (arm c s).relay = s.relay ∧ (arm c s).status = s.status ∧
    (arm c s).freeDraws = s.freeDraws := by
  exact ⟨rfl, rfl, rfl, rfl, rfl, rfl, rfl, rfl, rfl, rfl, rfl⟩

@[simp] theorem resetLayerTable_frame (s : State) :
    (resetLayerTable s).pending = s.pending ∧ (resetLayerTable s).extents = s.extents ∧
    (resetLayerTable s).rx = s.rx ∧ (resetLayerTable s).sorter = s.sorter ∧ (resetLayerTable s).agent = s.agent ∧
    (resetLayerTable s).glyphs = s.glyphs ∧ (resetLayerTable s).comp = s.comp ∧ (resetLayerTable s).tx = s.tx ∧
    (resetLayerTable s).relay = s.relay ∧ (resetLayerTable s).status = s.status ∧
    (resetLayerTable s).freeDraws = s.freeDraws := by
  exact ⟨rfl, rfl, rfl, rfl, rfl, rfl, rfl, rfl, rfl, rfl, rfl⟩

@[simp] theorem takeEntry_frame (e : GlyphId) (g : Glyph) (s : State) :
    (takeEntry e g s).pending = s.pending ∧ (takeEntry e g s).extents = s.extents ∧ (takeEntry e g s).rx = s.rx ∧
    (takeEntry e g s).sorter = s.sorter ∧ (takeEntry e g s).agent = s.agent ∧ (takeEntry e g s).layers = s.layers ∧
    (takeEntry e g s).comp = s.comp ∧ (takeEntry e g s).tx = s.tx ∧ (takeEntry e g s).relay = s.relay ∧
    (takeEntry e g s).status = s.status ∧ (takeEntry e g s).freeDraws = s.freeDraws := by
  exact ⟨rfl, rfl, rfl, rfl, rfl, rfl, rfl, rfl, rfl, rfl, rfl⟩

@[simp] theorem freeEntry_frame (e : GlyphId) (g : Glyph) (s : State) :
    (freeEntry e g s).pending = s.pending ∧ (freeEntry e g s).extents = s.extents ∧ (freeEntry e g s).rx = s.rx ∧
    (freeEntry e g s).sorter = s.sorter ∧ (freeEntry e g s).agent = s.agent ∧ (freeEntry e g s).layers = s.layers ∧
    (freeEntry e g s).comp = s.comp ∧ (freeEntry e g s).tx = s.tx ∧ (freeEntry e g s).relay = s.relay ∧
    (freeEntry e g s).status = s.status ∧ (freeEntry e g s).freeDraws = s.freeDraws := by
  exact ⟨rfl, rfl, rfl, rfl, rfl, rfl, rfl, rfl, rfl, rfl, rfl⟩

@[simp] theorem resetDirectory_frame (s : State) :
    (resetDirectory s).pending = s.pending ∧ (resetDirectory s).extents = s.extents ∧ (resetDirectory s).rx = s.rx ∧
    (resetDirectory s).sorter = s.sorter ∧ (resetDirectory s).agent = s.agent ∧
    (resetDirectory s).layers = s.layers ∧ (resetDirectory s).comp = s.comp ∧ (resetDirectory s).tx = s.tx ∧
    (resetDirectory s).relay = s.relay ∧ (resetDirectory s).status = s.status ∧
    (resetDirectory s).freeDraws = s.freeDraws := by
  exact ⟨rfl, rfl, rfl, rfl, rfl, rfl, rfl, rfl, rfl, rfl, rfl⟩

@[simp] theorem writeLoadTo_frame (n : Nat) (run : LoadRun) (s : State) :
    (writeLoadTo n run s).pending = s.pending ∧ (writeLoadTo n run s).extents = s.extents ∧
    (writeLoadTo n run s).rx = s.rx ∧ (writeLoadTo n run s).sorter = s.sorter ∧
    (writeLoadTo n run s).layers = s.layers ∧ (writeLoadTo n run s).tx = s.tx ∧
    (writeLoadTo n run s).relay = s.relay ∧ (writeLoadTo n run s).status = s.status := by
  exact ⟨rfl, rfl, rfl, rfl, rfl, rfl, rfl, rfl⟩

@[simp] theorem enqueue_frame (q : Queued) (s : State) :
    (enqueue q s).pending = s.pending ∧ (enqueue q s).extents = s.extents ∧ (enqueue q s).rx = s.rx ∧
    (enqueue q s).sorter = s.sorter ∧ (enqueue q s).layers = s.layers ∧ (enqueue q s).glyphs = s.glyphs ∧
    (enqueue q s).comp = s.comp ∧ (enqueue q s).tx = s.tx ∧ (enqueue q s).relay = s.relay ∧
    (enqueue q s).status = s.status ∧ (enqueue q s).freeDraws = s.freeDraws := by
  exact ⟨rfl, rfl, rfl, rfl, rfl, rfl, rfl, rfl, rfl, rfl, rfl⟩

@[simp] theorem mapNotes_frame (f : Queued → Queued) (s : State) :
    (mapNotes f s).pending = s.pending ∧ (mapNotes f s).extents = s.extents ∧ (mapNotes f s).rx = s.rx ∧
    (mapNotes f s).sorter = s.sorter ∧ (mapNotes f s).layers = s.layers ∧ (mapNotes f s).glyphs = s.glyphs ∧
    (mapNotes f s).comp = s.comp ∧ (mapNotes f s).tx = s.tx ∧ (mapNotes f s).status = s.status ∧
    (mapNotes f s).freeDraws = s.freeDraws := by
  exact ⟨rfl, rfl, rfl, rfl, rfl, rfl, rfl, rfl, rfl, rfl⟩

@[simp] theorem serve_frame (src : SourceId) (s : State) :
    (serve src s).pending = s.pending ∧ (serve src s).extents = s.extents ∧ (serve src s).rx = s.rx ∧
    (serve src s).sorter = s.sorter ∧ (serve src s).layers = s.layers ∧ (serve src s).glyphs = s.glyphs ∧
    (serve src s).comp = s.comp ∧ (serve src s).tx = s.tx ∧ (serve src s).relay = s.relay ∧
    (serve src s).status = s.status ∧ (serve src s).freeDraws = s.freeDraws := by
  exact ⟨rfl, rfl, rfl, rfl, rfl, rfl, rfl, rfl, rfl, rfl, rfl⟩

@[simp] theorem emptyFirstExpiry_frame (s : State) :
    (emptyFirstExpiry s).pending = s.pending ∧ (emptyFirstExpiry s).extents = s.extents ∧
    (emptyFirstExpiry s).rx = s.rx ∧ (emptyFirstExpiry s).sorter = s.sorter ∧ (emptyFirstExpiry s).agent = s.agent ∧
    (emptyFirstExpiry s).glyphs = s.glyphs ∧ (emptyFirstExpiry s).comp = s.comp ∧ (emptyFirstExpiry s).tx = s.tx ∧
    (emptyFirstExpiry s).relay = s.relay ∧ (emptyFirstExpiry s).status = s.status ∧
    (emptyFirstExpiry s).freeDraws = s.freeDraws := by
  exact ⟨rfl, rfl, rfl, rfl, rfl, rfl, rfl, rfl, rfl, rfl, rfl⟩

@[simp] theorem receiveByte_frame (b : Byte) (s : State) :
    (receiveByte b s).pending = s.pending ∧ (receiveByte b s).extents = s.extents ∧ (receiveByte b s).rx = s.rx ∧
    (receiveByte b s).sorter = s.sorter ∧ (receiveByte b s).agent = s.agent ∧ (receiveByte b s).layers = s.layers ∧
    (receiveByte b s).glyphs = s.glyphs ∧ (receiveByte b s).tx = s.tx ∧ (receiveByte b s).relay = s.relay ∧
    (receiveByte b s).status = s.status ∧ (receiveByte b s).freeDraws = s.freeDraws := by
  exact ⟨rfl, rfl, rfl, rfl, rfl, rfl, rfl, rfl, rfl, rfl, rfl⟩

@[simp] theorem clearArriving_frame (s : State) :
    (clearArriving s).pending = s.pending ∧ (clearArriving s).extents = s.extents ∧ (clearArriving s).rx = s.rx ∧
    (clearArriving s).sorter = s.sorter ∧ (clearArriving s).agent = s.agent ∧ (clearArriving s).layers = s.layers ∧
    (clearArriving s).glyphs = s.glyphs ∧ (clearArriving s).tx = s.tx ∧ (clearArriving s).relay = s.relay ∧
    (clearArriving s).status = s.status ∧ (clearArriving s).freeDraws = s.freeDraws := by
  exact ⟨rfl, rfl, rfl, rfl, rfl, rfl, rfl, rfl, rfl, rfl, rfl⟩

@[simp] theorem occupyArriving_frame (index : Nat) (s : State) :
    (occupyArriving index s).pending = s.pending ∧ (occupyArriving index s).extents = s.extents ∧
    (occupyArriving index s).rx = s.rx ∧ (occupyArriving index s).sorter = s.sorter ∧
    (occupyArriving index s).agent = s.agent ∧ (occupyArriving index s).layers = s.layers ∧
    (occupyArriving index s).glyphs = s.glyphs ∧ (occupyArriving index s).tx = s.tx ∧
    (occupyArriving index s).relay = s.relay ∧ (occupyArriving index s).status = s.status ∧
    (occupyArriving index s).freeDraws = s.freeDraws := by
  exact ⟨rfl, rfl, rfl, rfl, rfl, rfl, rfl, rfl, rfl, rfl, rfl⟩

@[simp] theorem frameStartCompositor_frame (geo : Geometry) (s : State) :
    (frameStartCompositor geo s).pending = s.pending ∧ (frameStartCompositor geo s).extents = s.extents ∧
    (frameStartCompositor geo s).rx = s.rx ∧ (frameStartCompositor geo s).sorter = s.sorter ∧
    (frameStartCompositor geo s).agent = s.agent ∧ (frameStartCompositor geo s).layers = s.layers ∧
    (frameStartCompositor geo s).glyphs = s.glyphs ∧ (frameStartCompositor geo s).tx = s.tx ∧
    (frameStartCompositor geo s).relay = s.relay ∧ (frameStartCompositor geo s).status = s.status ∧
    (frameStartCompositor geo s).freeDraws = s.freeDraws := by
  exact ⟨rfl, rfl, rfl, rfl, rfl, rfl, rfl, rfl, rfl, rfl, rfl⟩

@[simp] theorem discardCompositor_frame (s : State) :
    (discardCompositor s).pending = s.pending ∧ (discardCompositor s).extents = s.extents ∧
    (discardCompositor s).rx = s.rx ∧ (discardCompositor s).sorter = s.sorter ∧
    (discardCompositor s).agent = s.agent ∧ (discardCompositor s).layers = s.layers ∧
    (discardCompositor s).glyphs = s.glyphs ∧ (discardCompositor s).tx = s.tx ∧
    (discardCompositor s).relay = s.relay ∧ (discardCompositor s).status = s.status ∧
    (discardCompositor s).freeDraws = s.freeDraws := by
  exact ⟨rfl, rfl, rfl, rfl, rfl, rfl, rfl, rfl, rfl, rfl, rfl⟩

@[simp] theorem sendCounts_frame (c : LineCounts) (s : State) :
    (sendCounts c s).pending = s.pending ∧ (sendCounts c s).extents = s.extents ∧ (sendCounts c s).rx = s.rx ∧
    (sendCounts c s).sorter = s.sorter ∧ (sendCounts c s).agent = s.agent ∧ (sendCounts c s).layers = s.layers ∧
    (sendCounts c s).glyphs = s.glyphs ∧ (sendCounts c s).comp = s.comp ∧ (sendCounts c s).tx = s.tx ∧
    (sendCounts c s).relay = s.relay ∧ (sendCounts c s).freeDraws = s.freeDraws := by
  simp [sendCounts]

@[simp] theorem beginBlank_frame (bound : Nat) (s : State) :
    (beginBlank bound s).pending = s.pending ∧ (beginBlank bound s).extents = s.extents ∧
    (beginBlank bound s).rx = s.rx ∧ (beginBlank bound s).agent = s.agent ∧ (beginBlank bound s).layers = s.layers ∧
    (beginBlank bound s).glyphs = s.glyphs ∧ (beginBlank bound s).comp = s.comp ∧ (beginBlank bound s).tx = s.tx ∧
    (beginBlank bound s).relay = s.relay ∧ (beginBlank bound s).status = s.status ∧
    (beginBlank bound s).freeDraws = s.freeDraws := by
  exact ⟨rfl, rfl, rfl, rfl, rfl, rfl, rfl, rfl, rfl, rfl, rfl⟩

@[simp] theorem cutBlank_frame (s : State) :
    (cutBlank s).pending = s.pending ∧ (cutBlank s).extents = s.extents ∧ (cutBlank s).rx = s.rx ∧
    (cutBlank s).agent = s.agent ∧ (cutBlank s).layers = s.layers ∧ (cutBlank s).glyphs = s.glyphs ∧
    (cutBlank s).comp = s.comp ∧ (cutBlank s).tx = s.tx ∧ (cutBlank s).relay = s.relay ∧
    (cutBlank s).status = s.status ∧ (cutBlank s).freeDraws = s.freeDraws := by
  exact ⟨rfl, rfl, rfl, rfl, rfl, rfl, rfl, rfl, rfl, rfl, rfl⟩

@[simp] theorem setLock_frame (l : LockState) (s : State) :
    (setLock l s).pending = s.pending ∧ (setLock l s).extents = s.extents ∧ (setLock l s).sorter = s.sorter ∧
    (setLock l s).agent = s.agent ∧ (setLock l s).layers = s.layers ∧ (setLock l s).glyphs = s.glyphs ∧
    (setLock l s).comp = s.comp ∧ (setLock l s).tx = s.tx ∧ (setLock l s).relay = s.relay ∧
    (setLock l s).status = s.status ∧ (setLock l s).freeDraws = s.freeDraws := by
  exact ⟨rfl, rfl, rfl, rfl, rfl, rfl, rfl, rfl, rfl, rfl, rfl⟩

@[simp] theorem openFrame_frame (frame w h : Word) (s : State) :
    (openFrame frame w h s).pending = s.pending ∧ (openFrame frame w h s).extents = s.extents ∧
    (openFrame frame w h s).sorter = s.sorter ∧ (openFrame frame w h s).agent = s.agent ∧
    (openFrame frame w h s).layers = s.layers ∧ (openFrame frame w h s).glyphs = s.glyphs ∧
    (openFrame frame w h s).comp = s.comp ∧ (openFrame frame w h s).tx = s.tx ∧
    (openFrame frame w h s).relay = s.relay ∧ (openFrame frame w h s).status = s.status ∧
    (openFrame frame w h s).freeDraws = s.freeDraws := by
  exact ⟨rfl, rfl, rfl, rfl, rfl, rfl, rfl, rfl, rfl, rfl, rfl⟩

@[simp] theorem startWatchdog_frame (s : State) :
    (startWatchdog s).pending = s.pending ∧ (startWatchdog s).extents = s.extents ∧
    (startWatchdog s).sorter = s.sorter ∧ (startWatchdog s).agent = s.agent ∧ (startWatchdog s).layers = s.layers ∧
    (startWatchdog s).glyphs = s.glyphs ∧ (startWatchdog s).comp = s.comp ∧ (startWatchdog s).tx = s.tx ∧
    (startWatchdog s).relay = s.relay ∧ (startWatchdog s).status = s.status ∧
    (startWatchdog s).freeDraws = s.freeDraws := by
  exact ⟨rfl, rfl, rfl, rfl, rfl, rfl, rfl, rfl, rfl, rfl, rfl⟩

@[simp] theorem cutFrame_frame (s : State) :
    (cutFrame s).pending = s.pending ∧ (cutFrame s).extents = s.extents ∧ (cutFrame s).rx = s.rx ∧
    (cutFrame s).sorter = s.sorter ∧ (cutFrame s).agent = s.agent ∧ (cutFrame s).layers = s.layers ∧
    (cutFrame s).glyphs = s.glyphs ∧ (cutFrame s).comp = s.comp ∧ (cutFrame s).relay = s.relay ∧
    (cutFrame s).status = s.status ∧ (cutFrame s).freeDraws = s.freeDraws := by
  exact ⟨rfl, rfl, rfl, rfl, rfl, rfl, rfl, rfl, rfl, rfl, rfl⟩

@[simp] theorem dropLock_frame (s : State) :
    (dropLock s).pending = s.pending ∧ (dropLock s).extents = s.extents ∧ (dropLock s).sorter = s.sorter ∧
    (dropLock s).agent = s.agent ∧ (dropLock s).layers = s.layers ∧ (dropLock s).glyphs = s.glyphs ∧
    (dropLock s).comp = s.comp ∧ (dropLock s).tx = s.tx ∧ (dropLock s).relay = s.relay ∧
    (dropLock s).status = s.status ∧ (dropLock s).freeDraws = s.freeDraws := by
  exact ⟨rfl, rfl, rfl, rfl, rfl, rfl, rfl, rfl, rfl, rfl, rfl⟩

/-! ## Operations with cases -/

@[simp] theorem firstFault_frame (k : FaultKind) (s : State) :
    (firstFault k s).pending = s.pending ∧ (firstFault k s).extents = s.extents ∧
    (firstFault k s).sorter = s.sorter ∧ (firstFault k s).agent = s.agent ∧ (firstFault k s).layers = s.layers ∧
    (firstFault k s).glyphs = s.glyphs ∧ (firstFault k s).comp = s.comp ∧ (firstFault k s).tx = s.tx ∧
    (firstFault k s).relay = s.relay ∧ (firstFault k s).freeDraws = s.freeDraws := by
  unfold firstFault; split <;> simp

@[simp] theorem markListener_frame (f : Context → Context) (s : State) :
    (markListener f s).pending = s.pending ∧ (markListener f s).extents = s.extents ∧ (markListener f s).rx = s.rx ∧
    (markListener f s).sorter = s.sorter ∧ (markListener f s).layers = s.layers ∧
    (markListener f s).glyphs = s.glyphs ∧ (markListener f s).comp = s.comp ∧ (markListener f s).tx = s.tx ∧
    (markListener f s).relay = s.relay ∧ (markListener f s).status = s.status ∧
    (markListener f s).freeDraws = s.freeDraws := by
  unfold markListener; split <;> simp

@[simp] theorem markLoss_frame (cause : LossCause) (s : State) :
    (markLoss cause s).pending = s.pending ∧ (markLoss cause s).extents = s.extents ∧ (markLoss cause s).rx = s.rx ∧
    (markLoss cause s).sorter = s.sorter ∧ (markLoss cause s).layers = s.layers ∧
    (markLoss cause s).glyphs = s.glyphs ∧ (markLoss cause s).comp = s.comp ∧ (markLoss cause s).tx = s.tx ∧
    (markLoss cause s).relay = s.relay ∧ (markLoss cause s).status = s.status ∧
    (markLoss cause s).freeDraws = s.freeDraws := by
  simp [markLoss]

@[simp] theorem markRelock_frame (frame : Word) (s : State) :
    (markRelock frame s).pending = s.pending ∧ (markRelock frame s).extents = s.extents ∧
    (markRelock frame s).rx = s.rx ∧ (markRelock frame s).sorter = s.sorter ∧
    (markRelock frame s).layers = s.layers ∧ (markRelock frame s).glyphs = s.glyphs ∧
    (markRelock frame s).comp = s.comp ∧ (markRelock frame s).tx = s.tx ∧ (markRelock frame s).relay = s.relay ∧
    (markRelock frame s).status = s.status ∧ (markRelock frame s).freeDraws = s.freeDraws := by
  simp [markRelock]

@[simp] theorem markBudget_frame (frame : Word) (line : Nat) (l : LayerId) (s : State) :
    (markBudget frame line l s).pending = s.pending ∧ (markBudget frame line l s).extents = s.extents ∧
    (markBudget frame line l s).rx = s.rx ∧ (markBudget frame line l s).sorter = s.sorter ∧
    (markBudget frame line l s).layers = s.layers ∧ (markBudget frame line l s).glyphs = s.glyphs ∧
    (markBudget frame line l s).comp = s.comp ∧ (markBudget frame line l s).tx = s.tx ∧
    (markBudget frame line l s).relay = s.relay ∧ (markBudget frame line l s).status = s.status ∧
    (markBudget frame line l s).freeDraws = s.freeDraws := by
  simp [markBudget]

@[simp] theorem sendRelayed_frame (s : State) :
    (sendRelayed s).pending = s.pending ∧ (sendRelayed s).extents = s.extents ∧ (sendRelayed s).rx = s.rx ∧
    (sendRelayed s).sorter = s.sorter ∧ (sendRelayed s).layers = s.layers ∧ (sendRelayed s).glyphs = s.glyphs ∧
    (sendRelayed s).comp = s.comp ∧ (sendRelayed s).tx = s.tx ∧ (sendRelayed s).status = s.status ∧
    (sendRelayed s).freeDraws = s.freeDraws := by
  unfold sendRelayed; split <;> simp

@[simp] theorem sendReply_frame (s : State) :
    (sendReply s).pending = s.pending ∧ (sendReply s).extents = s.extents ∧ (sendReply s).rx = s.rx ∧
    (sendReply s).sorter = s.sorter ∧ (sendReply s).layers = s.layers ∧ (sendReply s).glyphs = s.glyphs ∧
    (sendReply s).comp = s.comp ∧ (sendReply s).tx = s.tx ∧ (sendReply s).status = s.status ∧
    (sendReply s).freeDraws = s.freeDraws := by
  unfold sendReply; split <;> simp

@[simp] theorem arbitrate_frame (s : State) :
    (arbitrate s).pending = s.pending ∧ (arbitrate s).extents = s.extents ∧ (arbitrate s).rx = s.rx ∧
    (arbitrate s).sorter = s.sorter ∧ (arbitrate s).layers = s.layers ∧ (arbitrate s).glyphs = s.glyphs ∧
    (arbitrate s).comp = s.comp ∧ (arbitrate s).tx = s.tx ∧ (arbitrate s).status = s.status ∧
    (arbitrate s).freeDraws = s.freeDraws := by
  unfold arbitrate; (repeat' split) <;> simp

@[simp] theorem offerToFifo_frame (p : Packet) (s : State) :
    (offerToFifo p s).pending = s.pending ∧ (offerToFifo p s).extents = s.extents ∧ (offerToFifo p s).rx = s.rx ∧
    (offerToFifo p s).sorter = s.sorter ∧ (offerToFifo p s).layers = s.layers ∧ (offerToFifo p s).glyphs = s.glyphs ∧
    (offerToFifo p s).comp = s.comp ∧ (offerToFifo p s).tx = s.tx ∧ (offerToFifo p s).freeDraws = s.freeDraws := by
  unfold offerToFifo; split <;> simp

@[simp] theorem completeSend_frame (x : Sending) (s : State) :
    (completeSend x s).pending = s.pending ∧ (completeSend x s).extents = s.extents ∧ (completeSend x s).rx = s.rx ∧
    (completeSend x s).sorter = s.sorter ∧ (completeSend x s).layers = s.layers ∧
    (completeSend x s).glyphs = s.glyphs ∧ (completeSend x s).comp = s.comp ∧ (completeSend x s).tx = s.tx ∧
    (completeSend x s).relay = s.relay ∧ (completeSend x s).status = s.status ∧
    (completeSend x s).freeDraws = s.freeDraws := by
  unfold completeSend; (repeat' split) <;> simp

@[simp] theorem placeHandedOver_frame (bytes : List Byte) (s : State) :
    (placeHandedOver bytes s).pending = s.pending ∧ (placeHandedOver bytes s).extents = s.extents ∧
    (placeHandedOver bytes s).rx = s.rx ∧ (placeHandedOver bytes s).sorter = s.sorter ∧
    (placeHandedOver bytes s).agent = s.agent ∧ (placeHandedOver bytes s).layers = s.layers ∧
    (placeHandedOver bytes s).glyphs = s.glyphs ∧ (placeHandedOver bytes s).relay = s.relay ∧
    (placeHandedOver bytes s).status = s.status ∧ (placeHandedOver bytes s).freeDraws = s.freeDraws := by
  unfold placeHandedOver; split <;> simp

@[simp] theorem extendOutLine_frame (b : Byte) (s : State) :
    (extendOutLine b s).pending = s.pending ∧ (extendOutLine b s).extents = s.extents ∧
    (extendOutLine b s).rx = s.rx ∧ (extendOutLine b s).sorter = s.sorter ∧ (extendOutLine b s).agent = s.agent ∧
    (extendOutLine b s).layers = s.layers ∧ (extendOutLine b s).glyphs = s.glyphs ∧
    (extendOutLine b s).comp = s.comp ∧ (extendOutLine b s).relay = s.relay ∧ (extendOutLine b s).status = s.status ∧
    (extendOutLine b s).freeDraws = s.freeDraws := by
  unfold extendOutLine; split <;> simp

@[simp] theorem promote_frame (s : State) :
    (promote s).pending = s.pending ∧ (promote s).extents = s.extents ∧ (promote s).rx = s.rx ∧
    (promote s).sorter = s.sorter ∧ (promote s).agent = s.agent ∧ (promote s).layers = s.layers ∧
    (promote s).glyphs = s.glyphs ∧ (promote s).relay = s.relay ∧ (promote s).status = s.status ∧
    (promote s).freeDraws = s.freeDraws := by
  unfold promote; split <;> simp

@[simp] theorem sendLine_frame (l : OutLine) (rest : List OutItem) (s : State) :
    (sendLine l rest s).pending = s.pending ∧ (sendLine l rest s).extents = s.extents ∧
    (sendLine l rest s).rx = s.rx ∧ (sendLine l rest s).sorter = s.sorter ∧ (sendLine l rest s).agent = s.agent ∧
    (sendLine l rest s).layers = s.layers ∧ (sendLine l rest s).glyphs = s.glyphs ∧
    (sendLine l rest s).relay = s.relay ∧ (sendLine l rest s).status = s.status ∧
    (sendLine l rest s).freeDraws = s.freeDraws := by
  simp [sendLine]

@[simp] theorem addRef_frame (e : Option GlyphId) (s : State) :
    (addRef e s).pending = s.pending ∧ (addRef e s).extents = s.extents ∧ (addRef e s).rx = s.rx ∧
    (addRef e s).sorter = s.sorter ∧ (addRef e s).agent = s.agent ∧ (addRef e s).layers = s.layers ∧
    (addRef e s).comp = s.comp ∧ (addRef e s).tx = s.tx ∧ (addRef e s).relay = s.relay ∧
    (addRef e s).status = s.status ∧ (addRef e s).freeDraws = s.freeDraws := by
  unfold addRef; split <;> simp

@[simp] theorem dropRef_frame (e : Option GlyphId) (s : State) :
    (dropRef e s).pending = s.pending ∧ (dropRef e s).extents = s.extents ∧ (dropRef e s).rx = s.rx ∧
    (dropRef e s).sorter = s.sorter ∧ (dropRef e s).agent = s.agent ∧ (dropRef e s).layers = s.layers ∧
    (dropRef e s).comp = s.comp ∧ (dropRef e s).tx = s.tx ∧ (dropRef e s).relay = s.relay ∧
    (dropRef e s).status = s.status ∧ (dropRef e s).freeDraws = s.freeDraws := by
  unfold dropRef; split <;> simp

@[simp] theorem adjustRefs_frame (old new : LayerRecord) (s : State) :
    (adjustRefs old new s).pending = s.pending ∧ (adjustRefs old new s).extents = s.extents ∧
    (adjustRefs old new s).rx = s.rx ∧ (adjustRefs old new s).sorter = s.sorter ∧
    (adjustRefs old new s).agent = s.agent ∧ (adjustRefs old new s).layers = s.layers ∧
    (adjustRefs old new s).comp = s.comp ∧ (adjustRefs old new s).tx = s.tx ∧
    (adjustRefs old new s).relay = s.relay ∧ (adjustRefs old new s).status = s.status ∧
    (adjustRefs old new s).freeDraws = s.freeDraws := by
  unfold adjustRefs; split <;> simp

@[simp] theorem replacePending_frame (l : LayerId) (r : LayerRecord) (s : State) :
    (replacePending l r s).pending = s.pending ∧ (replacePending l r s).extents = s.extents ∧
    (replacePending l r s).rx = s.rx ∧ (replacePending l r s).sorter = s.sorter ∧
    (replacePending l r s).agent = s.agent ∧ (replacePending l r s).comp = s.comp ∧
    (replacePending l r s).tx = s.tx ∧ (replacePending l r s).relay = s.relay ∧
    (replacePending l r s).status = s.status ∧ (replacePending l r s).freeDraws = s.freeDraws := by
  simp [replacePending]

@[simp] theorem replaceActive_frame (l : LayerId) (r : LayerRecord) (s : State) :
    (replaceActive l r s).pending = s.pending ∧ (replaceActive l r s).extents = s.extents ∧
    (replaceActive l r s).rx = s.rx ∧ (replaceActive l r s).sorter = s.sorter ∧
    (replaceActive l r s).agent = s.agent ∧ (replaceActive l r s).comp = s.comp ∧ (replaceActive l r s).tx = s.tx ∧
    (replaceActive l r s).relay = s.relay ∧ (replaceActive l r s).status = s.status ∧
    (replaceActive l r s).freeDraws = s.freeDraws := by
  simp [replaceActive]

@[simp] theorem recordFirstExpiry_frame (src : SourceId) (l : LayerId) (frame : Word) (s : State) :
    (recordFirstExpiry src l frame s).pending = s.pending ∧ (recordFirstExpiry src l frame s).extents = s.extents ∧
    (recordFirstExpiry src l frame s).rx = s.rx ∧ (recordFirstExpiry src l frame s).sorter = s.sorter ∧
    (recordFirstExpiry src l frame s).agent = s.agent ∧ (recordFirstExpiry src l frame s).glyphs = s.glyphs ∧
    (recordFirstExpiry src l frame s).comp = s.comp ∧ (recordFirstExpiry src l frame s).tx = s.tx ∧
    (recordFirstExpiry src l frame s).relay = s.relay ∧ (recordFirstExpiry src l frame s).status = s.status ∧
    (recordFirstExpiry src l frame s).freeDraws = s.freeDraws := by
  unfold recordFirstExpiry; split <;> simp

@[simp] theorem expireLayer_frame (action : ExpiryAction) (src : SourceId) (l : LayerId) (frame : Word) (s : State) :
    (expireLayer action src l frame s).pending = s.pending ∧ (expireLayer action src l frame s).extents = s.extents ∧
    (expireLayer action src l frame s).rx = s.rx ∧ (expireLayer action src l frame s).sorter = s.sorter ∧
    (expireLayer action src l frame s).glyphs = s.glyphs ∧ (expireLayer action src l frame s).comp = s.comp ∧
    (expireLayer action src l frame s).tx = s.tx ∧ (expireLayer action src l frame s).relay = s.relay ∧
    (expireLayer action src l frame s).status = s.status ∧
    (expireLayer action src l frame s).freeDraws = s.freeDraws := by
  cases action <;> simp [expireLayer]

@[simp] theorem placeReply_frame (r : Request) (a : Answer) (s : State) :
    (placeReply r a s).pending = s.pending ∧ (placeReply r a s).extents = s.extents ∧ (placeReply r a s).rx = s.rx ∧
    (placeReply r a s).sorter = s.sorter ∧ (placeReply r a s).layers = s.layers ∧
    (placeReply r a s).glyphs = s.glyphs ∧ (placeReply r a s).comp = s.comp ∧ (placeReply r a s).tx = s.tx ∧
    (placeReply r a s).status = s.status ∧ (placeReply r a s).freeDraws = s.freeDraws := by
  simp [placeReply]

@[simp] theorem placeUncached_frame (r : Request) (st : Status) (s : State) :
    (placeUncached r st s).pending = s.pending ∧ (placeUncached r st s).extents = s.extents ∧
    (placeUncached r st s).rx = s.rx ∧ (placeUncached r st s).sorter = s.sorter ∧
    (placeUncached r st s).layers = s.layers ∧ (placeUncached r st s).glyphs = s.glyphs ∧
    (placeUncached r st s).comp = s.comp ∧ (placeUncached r st s).tx = s.tx ∧
    (placeUncached r st s).status = s.status ∧ (placeUncached r st s).freeDraws = s.freeDraws := by
  simp [placeUncached]

@[simp] theorem release_frame (s : State) :
    (release s).pending = s.pending ∧ (release s).extents = s.extents ∧ (release s).rx = s.rx ∧
    (release s).sorter = s.sorter ∧ (release s).layers = s.layers ∧ (release s).glyphs = s.glyphs ∧
    (release s).comp = s.comp ∧ (release s).tx = s.tx ∧ (release s).relay = s.relay ∧ (release s).status = s.status ∧
    (release s).freeDraws = s.freeDraws := by
  exact ⟨rfl, rfl, rfl, rfl, rfl, rfl, rfl, rfl, rfl, rfl, rfl⟩

@[simp] theorem hold_frame (r : Request) (due : DueReply) (s : State) :
    (hold r due s).pending = s.pending ∧ (hold r due s).extents = s.extents ∧ (hold r due s).rx = s.rx ∧
    (hold r due s).sorter = s.sorter ∧ (hold r due s).layers = s.layers ∧ (hold r due s).glyphs = s.glyphs ∧
    (hold r due s).comp = s.comp ∧ (hold r due s).tx = s.tx ∧ (hold r due s).relay = s.relay ∧
    (hold r due s).status = s.status ∧ (hold r due s).freeDraws = s.freeDraws := by
  exact ⟨rfl, rfl, rfl, rfl, rfl, rfl, rfl, rfl, rfl, rfl, rfl⟩

@[simp] theorem placeCopy_frame (r : Request) (q : Packet) (s : State) :
    (placeCopy r q s).pending = s.pending ∧ (placeCopy r q s).extents = s.extents ∧ (placeCopy r q s).rx = s.rx ∧
    (placeCopy r q s).sorter = s.sorter ∧ (placeCopy r q s).layers = s.layers ∧ (placeCopy r q s).glyphs = s.glyphs ∧
    (placeCopy r q s).comp = s.comp ∧ (placeCopy r q s).tx = s.tx ∧ (placeCopy r q s).status = s.status ∧
    (placeCopy r q s).freeDraws = s.freeDraws := by
  simp [placeCopy]

@[simp] theorem placeDue_frame (r : Request) (due : DueReply) (s : State) :
    (placeDue r due s).pending = s.pending ∧ (placeDue r due s).extents = s.extents ∧ (placeDue r due s).rx = s.rx ∧
    (placeDue r due s).sorter = s.sorter ∧ (placeDue r due s).layers = s.layers ∧
    (placeDue r due s).glyphs = s.glyphs ∧ (placeDue r due s).comp = s.comp ∧ (placeDue r due s).tx = s.tx ∧
    (placeDue r due s).status = s.status ∧ (placeDue r due s).freeDraws = s.freeDraws := by
  cases due <;> simp [placeDue]

@[simp] theorem replyRequest_frame (serves : Request → Bool) (s : State) :
    (replyRequest serves s).pending = s.pending ∧ (replyRequest serves s).extents = s.extents ∧
    (replyRequest serves s).rx = s.rx ∧ (replyRequest serves s).sorter = s.sorter ∧
    (replyRequest serves s).layers = s.layers ∧ (replyRequest serves s).glyphs = s.glyphs ∧
    (replyRequest serves s).comp = s.comp ∧ (replyRequest serves s).tx = s.tx ∧
    (replyRequest serves s).status = s.status ∧ (replyRequest serves s).freeDraws = s.freeDraws := by
  unfold replyRequest; (repeat' split) <;> simp

@[simp] theorem statusClears_frame (options : Byte) (s : State) :
    (statusClears options s).pending = s.pending ∧ (statusClears options s).extents = s.extents ∧
    (statusClears options s).rx = s.rx ∧ (statusClears options s).sorter = s.sorter ∧
    (statusClears options s).agent = s.agent ∧ (statusClears options s).glyphs = s.glyphs ∧
    (statusClears options s).comp = s.comp ∧ (statusClears options s).tx = s.tx ∧
    (statusClears options s).relay = s.relay ∧ (statusClears options s).freeDraws = s.freeDraws := by
  unfold statusClears; (repeat' split) <;> simp

@[simp] theorem skipLayer_frame (geo : Geometry) (v : Nat) (s : State) (l : LayerId) :
    (skipLayer geo v s l).pending = s.pending ∧ (skipLayer geo v s l).extents = s.extents ∧
    (skipLayer geo v s l).rx = s.rx ∧ (skipLayer geo v s l).sorter = s.sorter ∧
    (skipLayer geo v s l).layers = s.layers ∧ (skipLayer geo v s l).glyphs = s.glyphs ∧
    (skipLayer geo v s l).comp = s.comp ∧ (skipLayer geo v s l).tx = s.tx ∧ (skipLayer geo v s l).relay = s.relay ∧
    (skipLayer geo v s l).freeDraws = s.freeDraws := by
  simp [skipLayer]

@[simp] theorem advanceLoad_frame (s : State) :
    (advanceLoad s).pending = s.pending ∧ (advanceLoad s).extents = s.extents ∧ (advanceLoad s).rx = s.rx ∧
    (advanceLoad s).sorter = s.sorter ∧ (advanceLoad s).layers = s.layers ∧ (advanceLoad s).tx = s.tx ∧
    (advanceLoad s).relay = s.relay ∧ (advanceLoad s).status = s.status := by
  unfold advanceLoad; (repeat' split) <;> simp

@[simp] theorem drawPixel_frame (u : Nat) (s : State) :
    (drawPixel u s).pending = s.pending ∧ (drawPixel u s).extents = s.extents ∧ (drawPixel u s).rx = s.rx ∧
    (drawPixel u s).sorter = s.sorter ∧ (drawPixel u s).agent = s.agent ∧ (drawPixel u s).layers = s.layers ∧
    (drawPixel u s).glyphs = s.glyphs ∧ (drawPixel u s).tx = s.tx ∧ (drawPixel u s).relay = s.relay ∧
    (drawPixel u s).status = s.status ∧ (drawPixel u s).freeDraws = s.freeDraws := by
  unfold drawPixel; split <;> simp

@[simp] theorem drawCompleted_frame (n : Nat) (s : State) :
    (drawCompleted n s).pending = s.pending ∧ (drawCompleted n s).extents = s.extents ∧
    (drawCompleted n s).rx = s.rx ∧ (drawCompleted n s).sorter = s.sorter ∧ (drawCompleted n s).layers = s.layers ∧
    (drawCompleted n s).tx = s.tx ∧ (drawCompleted n s).relay = s.relay ∧ (drawCompleted n s).status = s.status := by
  unfold drawCompleted; split <;> simp

@[simp] theorem handOver_frame (s : State) :
    (handOver s).pending = s.pending ∧ (handOver s).extents = s.extents ∧ (handOver s).rx = s.rx ∧
    (handOver s).sorter = s.sorter ∧ (handOver s).agent = s.agent ∧ (handOver s).layers = s.layers ∧
    (handOver s).glyphs = s.glyphs ∧ (handOver s).relay = s.relay ∧ (handOver s).status = s.status ∧
    (handOver s).freeDraws = s.freeDraws := by
  simp [handOver]

@[simp] theorem handOverShort_frame (s : State) :
    (handOverShort s).pending = s.pending ∧ (handOverShort s).extents = s.extents ∧ (handOverShort s).rx = s.rx ∧
    (handOverShort s).sorter = s.sorter ∧ (handOverShort s).agent = s.agent ∧ (handOverShort s).layers = s.layers ∧
    (handOverShort s).glyphs = s.glyphs ∧ (handOverShort s).relay = s.relay ∧ (handOverShort s).status = s.status ∧
    (handOverShort s).freeDraws = s.freeDraws := by
  simp [handOverShort]

@[simp] theorem activeByte_frame (b : Byte) (n full : Nat) (s : State) :
    (activeByte b n full s).pending = s.pending ∧ (activeByte b n full s).extents = s.extents ∧
    (activeByte b n full s).rx = s.rx ∧ (activeByte b n full s).sorter = s.sorter ∧
    (activeByte b n full s).layers = s.layers ∧ (activeByte b n full s).relay = s.relay ∧
    (activeByte b n full s).status = s.status := by
  unfold activeByte; (repeat' split) <;> simp

@[simp] theorem offerRequest_frame (s : State) (p : Packet) :
    (offerRequest s p).pending = s.pending ∧ (offerRequest s p).extents = s.extents ∧ (offerRequest s p).rx = s.rx ∧
    (offerRequest s p).sorter = s.sorter ∧ (offerRequest s p).layers = s.layers ∧
    (offerRequest s p).glyphs = s.glyphs ∧ (offerRequest s p).comp = s.comp ∧ (offerRequest s p).tx = s.tx ∧
    (offerRequest s p).relay = s.relay ∧ (offerRequest s p).freeDraws = s.freeDraws := by
  unfold offerRequest; split <;> simp

@[simp] theorem faultToRaw_frame (k : FaultKind) (s : State) :
    (faultToRaw k s).pending = s.pending ∧ (faultToRaw k s).extents = s.extents ∧
    (faultToRaw k s).sorter = s.sorter ∧ (faultToRaw k s).agent = s.agent ∧ (faultToRaw k s).layers = s.layers ∧
    (faultToRaw k s).glyphs = s.glyphs ∧ (faultToRaw k s).comp = s.comp ∧ (faultToRaw k s).tx = s.tx ∧
    (faultToRaw k s).relay = s.relay ∧ (faultToRaw k s).freeDraws = s.freeDraws := by
  unfold faultToRaw; split <;> simp

end Sys2Proof.Machine
end

