-- ==== Sys2Proof/Laws/Ops.lean ====
section
/-! SUPPORT. What the shared operations do: indexed updates, masks, the counters, and the glyph store as a memory. -/

namespace Sys2Proof.Machine

/-! ## Indexed collections -/

theorem modifyVec_get {α : Type} {n : Nat} (v : Vector α n) (i j : Fin n) (f : α → α) :
    (modifyVec v i f)[j.val] = if j = i then f v[j.val] else v[j.val] := by
  unfold modifyVec
  by_cases h : i.val = j.val
  · obtain rfl : i = j := Fin.ext h
    simp
  · have h' : j ≠ i := fun e => h (by rw [e])
    simp [h, h']

@[simp] theorem modifyVec_self {α : Type} {n : Nat} (v : Vector α n) (i : Fin n) (f : α → α) :
    (modifyVec v i f)[i.val] = f v[i.val] := by simp [modifyVec_get]

theorem modifyVec_other {α : Type} {n : Nat} (v : Vector α n) (i j : Fin n) (f : α → α) (h : j ≠ i) :
    (modifyVec v i f)[j.val] = v[j.val] := by simp [modifyVec_get, h]

@[simp] theorem mapVec_get {α β : Type} {n : Nat} (f : α → β) (v : Vector α n) (i : Nat) (h : i < n) :
    (mapVec f v)[i] = f v[i] := by
  simp [mapVec, Vector.toList]

theorem mem_layerIds (l : LayerId) : l ∈ layerIds := by revert l; decide

theorem mem_sourceIds (k : SourceId) : k ∈ sourceIds := by revert k; decide

theorem layerIds_nodup : layerIds.Nodup := by decide

/-! ## Parts of State -/

theorem context_modifyContext (src k : SourceId) (f : Context → Context) (s : State) :
    (s.modifyContext src f).context k = if k = src then f (s.context k) else s.context k := by
  simp [State.modifyContext, State.context, modifyVec_get]

theorem ownership_setOwnership (l k : LayerId) (o : Ownership) (s : State) :
    (s.setOwnership l o).ownership k = if k = l then o else s.ownership k := by
  simp [State.setOwnership, State.ownership, modifyVec_get]

theorem entry_modifyEntry (e k : GlyphId) (f : Option Glyph → Option Glyph) (s : State) :
    (s.modifyEntry e f).entry k = if k = e then f (s.entry k) else s.entry k := by
  simp [State.modifyEntry, State.entry, modifyVec_get]

theorem context_congr {s t : State} (h : t.agent.contexts = s.agent.contexts) (k : SourceId) :
    t.context k = s.context k := by simp [State.context, h]

theorem ownership_congr {s t : State} (h : t.layers.ownership = s.layers.ownership) (l : LayerId) :
    t.ownership l = s.ownership l := by simp [State.ownership, h]

theorem entry_congr {s t : State} (h : t.glyphs.entries = s.glyphs.entries) (e : GlyphId) : t.entry e = s.entry e := by
  simp [State.entry, h]

theorem pendingRecord_congr {s t : State} (h : t.layers.pendingBank = s.layers.pendingBank) (l : LayerId) :
    t.pendingRecord l = s.pendingRecord l := by simp [State.pendingRecord, h]

theorem activeRecord_congr {s t : State} (h : t.layers.activeBank = s.layers.activeBank) (l : LayerId) :
    t.activeRecord l = s.activeRecord l := by simp [State.activeRecord, h]

theorem counter_congr {s t : State} (h : t.status.counters = s.status.counters) (c : Counter) :
    t.counter c = s.counter c := by simp [State.counter, h]

/-! ## Counters (R177) -/

theorem saturate_eq (c k : Nat) : saturate c k = min (c + k) 4294967295 := by
  unfold saturate Config.counterMax
  split <;> omega

theorem saturate_le (c k : Nat) : saturate c k ≤ 4294967295 := by rw [saturate_eq]; omega

theorem counterIndex_injective {a b : Counter} (h : a.index = b.index) : a = b := by
  cases a <;> cases b <;> first | rfl | exact absurd h (by decide)

theorem counter_bump (a c : Counter) (k : Nat) (s : State) :
    (bump c k s).counter a = if a = c then saturate (s.counter a) k else s.counter a := by
  by_cases h : a = c
  · subst h; simp [bump, State.counter]
  · have h' : a.index ≠ c.index := fun e => h (counterIndex_injective e)
    simp [bump, State.counter, h, modifyVec_get, h']

@[simp] theorem bump_settings (c : Counter) (k : Nat) (s : State) :
    (bump c k s).status.settings = s.status.settings := rfl

/-! ## Masks -/

theorem namesLayer_layerBit (l k : LayerId) : namesLayer (layerBit l) k = decide (k = l) := by
  revert l k; decide

@[simp] theorem namesLayer_and (a b : Word) (l : LayerId) : namesLayer (a &&& b) l = (namesLayer a l && namesLayer b l) := by
  simp [namesLayer]

@[simp] theorem namesLayer_or (a b : Word) (l : LayerId) : namesLayer (a ||| b) l = (namesLayer a l || namesLayer b l) := by
  simp [namesLayer]

@[simp] theorem namesLayer_not (a : Word) (l : LayerId) : namesLayer (~~~a) l = !namesLayer a l := by
  simp [namesLayer]

@[simp] theorem namesLayer_zero (l : LayerId) : namesLayer 0#16 l = false := by
  simp [namesLayer]

/-- Masks that name the same layers are equal. -/
theorem mask_ext {a b : Word} (h : ∀ l, namesLayer a l = namesLayer b l) : a = b := by
  apply BitVec.eq_of_getLsbD_eq
  intro i hi
  exact h ⟨i, hi⟩

theorem namesLayer_foldl (p : LayerId → Bool) (ls : List LayerId) (m : Word) (l : LayerId) :
    namesLayer (ls.foldl (fun m l => if p l then m ||| layerBit l else m) m) l
      = (namesLayer m l || (ls.contains l && p l)) := by
  induction ls generalizing m with
  | nil => simp
  | cons k ls ih =>
    simp only [List.foldl_cons, ih, List.contains_cons]
    have e' : (l == k) = decide (l = k) := by rw [Bool.eq_iff_iff]; simp
    rw [e']
    by_cases h : p k <;> by_cases e : l = k <;> simp_all [namesLayer_layerBit]

@[simp] theorem namesLayer_maskOf (p : LayerId → Bool) (l : LayerId) : namesLayer (maskOf p) l = p l := by
  have h := namesLayer_foldl p layerIds 0#16 l
  have m : layerIds.contains l = true := by simpa using mem_layerIds l
  rw [maskOf, h, m]
  simp

theorem mask_eq_zero_iff (m : Word) : m = 0 ↔ ∀ l, namesLayer m l = false :=
  ⟨fun h l => by subst h; simp [namesLayer], fun h => mask_ext (fun l => by rw [h l]; simp [namesLayer])⟩

@[simp] theorem namesLayer_ownedMask (s : State) (src : SourceId) (l : LayerId) :
    namesLayer (s.ownedMask src) l = decide ((s.ownership l).owner = some src) := by
  rw [State.ownedMask, namesLayer_maskOf, Bool.eq_iff_iff]
  simp

@[simp] theorem namesLayer_takenMask (s : State) (l : LayerId) :
    namesLayer s.takenMask l = (s.ownership l).owner.isSome := by
  simp [State.takenMask]

/-! ## The glyph store (R30) -/

theorem read_write (a a' : Nat) (b : Byte) (mem : List Host.Cell) :
    Memory.read? (Memory.write a b mem) a' = if a' = a then some b else Memory.read? mem a' := by
  induction mem with
  | nil => simp [Memory.write, Memory.read?, eq_comm]
  | cons c mem ih =>
    obtain ⟨k, v⟩ := c
    unfold Memory.write
    split
    · by_cases h : a' = a
      · subst h; simp [Memory.read?]
      · have : a ≠ a' := fun e => h e.symm
        simp [Memory.read?, h, this]
    · split
      · rename_i h1 h2
        subst h2
        by_cases h : a' = a
        · subst h; simp [Memory.read?]
        · have : a ≠ a' := fun e => h e.symm
          simp [Memory.read?, h, this]
      · rename_i h1 h2
        by_cases h : k = a'
        · subst h
          have : k ≠ a := fun e => h2 e.symm
          simp [Memory.read?, this]
        · simp [Memory.read?, h, ih]

theorem read_writeSpan (a a' : Nat) (bs : List Byte) (mem : List Host.Cell) :
    Memory.read? (Memory.writeSpan a bs mem) a'
      = if a ≤ a' ∧ a' < a + bs.length then bs[a' - a]? else Memory.read? mem a' := by
  induction bs generalizing a mem with
  | nil =>
    simp only [Memory.writeSpan, List.length_nil, Nat.add_zero]
    split
    · omega
    · rfl
  | cons b bs ih =>
    simp only [Memory.writeSpan, ih, read_write, List.length_cons]
    by_cases h : a' = a
    · subst h
      have h1 : ¬(a' + 1 ≤ a' ∧ a' < a' + 1 + bs.length) := by omega
      simp only [h1, if_false]
      simp
    · by_cases h1 : a + 1 ≤ a' ∧ a' < a + 1 + bs.length
      · have h2 : a ≤ a' ∧ a' < a + (bs.length + 1) := by omega
        have h3 : a' - a = (a' - (a + 1)) + 1 := by omega
        rw [if_pos h1, if_pos h2, h3]
        rfl
      · have h2 : ¬(a ≤ a' ∧ a' < a + (bs.length + 1)) := by omega
        rw [if_neg h1, if_neg h2, if_neg h]

theorem wfFrom_write (lo a : Nat) (b : Byte) (mem : List Host.Cell) (hlo : lo ≤ a) (ha : a < Config.storeBytes)
    (h : Memory.wfFrom lo mem = true) : Memory.wfFrom lo (Memory.write a b mem) = true := by
  induction mem generalizing lo with
  | nil => simp [Memory.write, Memory.wfFrom, hlo, ha]
  | cons c mem ih =>
    obtain ⟨k, v⟩ := c
    simp only [Memory.wfFrom, Bool.and_eq_true, decide_eq_true_eq] at h
    unfold Memory.write
    split
    · rename_i h1
      simp only [Memory.wfFrom, Bool.and_eq_true, decide_eq_true_eq]
      exact ⟨⟨hlo, ha⟩, ⟨h1, h.1.2⟩, h.2⟩
    · split
      · rename_i h1 h2
        subst h2
        simp [Memory.wfFrom, hlo, ha, h.2]
      · rename_i h1 h2
        simp only [Memory.wfFrom, Bool.and_eq_true, decide_eq_true_eq]
        exact ⟨h.1, ih (k + 1) (by omega) h.2⟩

/-- Writing inside the store keeps the canonical form. -/
theorem wf_write (a : Nat) (b : Byte) (mem : List Host.Cell) (ha : a < Config.storeBytes) (h : Memory.wf mem = true) :
    Memory.wf (Memory.write a b mem) = true := wfFrom_write 0 a b mem (Nat.zero_le a) ha h

/-- Writing a span inside the store keeps the canonical form. -/
theorem wf_writeSpan (a : Nat) (bs : List Byte) (mem : List Host.Cell) (ha : a + bs.length ≤ Config.storeBytes)
    (h : Memory.wf mem = true) : Memory.wf (Memory.writeSpan a bs mem) = true := by
  induction bs generalizing a mem with
  | nil => exact h
  | cons b bs ih =>
    simp only [List.length_cons] at ha
    exact ih (a + 1) _ (by omega) (wf_write a b mem (by omega) h)

theorem wf_reset : Memory.wf State.reset.glyphs.bytes = true := rfl

/-- An address above the first entries of a canonical store reads as undefined. -/
theorem read_below (lo a : Nat) (mem : List Host.Cell) (h : Memory.wfFrom lo mem = true) (ha : a < lo) :
    Memory.read? mem a = none := by
  induction mem generalizing lo with
  | nil => rfl
  | cons c mem ih =>
    obtain ⟨k, v⟩ := c
    simp only [Memory.wfFrom, Bool.and_eq_true, decide_eq_true_eq] at h
    have : k ≠ a := by omega
    simp [Memory.read?, this, ih (k + 1) h.2 (by omega)]

/-- Canonical stores that read alike are equal data. -/
theorem store_ext (lo : Nat) (m n : List Host.Cell) (hm : Memory.wfFrom lo m = true) (hn : Memory.wfFrom lo n = true)
    (h : ∀ a, Memory.read? m a = Memory.read? n a) : m = n := by
  induction m generalizing n lo with
  | nil =>
    cases n with
    | nil => rfl
    | cons d n =>
      have := h d.1
      simp [Memory.read?] at this
  | cons c m ih =>
    obtain ⟨k, v⟩ := c
    simp only [Memory.wfFrom, Bool.and_eq_true, decide_eq_true_eq] at hm
    cases n with
    | nil =>
      have := h k
      simp [Memory.read?] at this
    | cons d n =>
      obtain ⟨j, w⟩ := d
      simp only [Memory.wfFrom, Bool.and_eq_true, decide_eq_true_eq] at hn
      have hk : k = j := by
        rcases Nat.lt_trichotomy k j with hlt | he | hlt
        · have := h k
          have h1 : j ≠ k := by omega
          simp [Memory.read?, h1, read_below (j + 1) k n hn.2 (by omega)] at this
        · exact he
        · have := h j
          have h1 : k ≠ j := by omega
          simp [Memory.read?, h1, read_below (k + 1) j m hm.2 (by omega)] at this
      subst hk
      have hv : v = w := by
        have := h k
        simpa [Memory.read?] using this
      subst hv
      congr 1
      apply ih (k + 1) n hm.2 hn.2
      intro a
      have := h a
      by_cases ha : k = a
      · subst ha
        rw [read_below (k + 1) k m hm.2 (by omega), read_below (k + 1) k n hn.2 (by omega)]
      · simpa [Memory.read?, ha] using this

end Sys2Proof.Machine
end

