-- ==== Sys2Proof/Laws/Relay.lean ====
section
/-! SUPPORT. What the arbiter and the notes do to the packets on their way. -/

namespace Sys2Proof.Machine

/-- A selection moves a packet from a queue into sending, so what waits to leave stays as it is. -/
@[simp] theorem arbitrate_ownTraffic (s : State) : ownTraffic (arbitrate s) = ownTraffic s := by
  unfold arbitrate
  split
  · rfl
  · rename_i h
    split
    · rfl
    · unfold sendRelayed
      split
      · rfl
      · simp [ownTraffic, h]
    · unfold sendReply
      split
      · rfl
      · rename_i h'
        simp [ownTraffic, h, h']

@[simp] theorem arbitrate_relayTraffic (s : State) : relayTraffic (arbitrate s) = relayTraffic s := by
  unfold arbitrate
  split
  · rfl
  · rename_i h
    split
    · rfl
    · unfold sendRelayed
      split
      · rfl
      · rename_i h'
        simp [relayTraffic, h, h']
    · unfold sendReply
      split
      · rfl
      · simp [relayTraffic, h]

/-- A selection changes neither the contexts nor the requests, nor what is being received. -/
@[simp] theorem arbitrate_rest (s : State) :
    (arbitrate s).agent.contexts = s.agent.contexts ∧ (arbitrate s).agent.inbound = s.agent.inbound ∧
    (arbitrate s).agent.busy = s.agent.busy ∧ (arbitrate s).agent.lastServed = s.agent.lastServed ∧
    (arbitrate s).agent.granted = s.agent.granted ∧
    (arbitrate s).relay.receiving = s.relay.receiving ∧ (arbitrate s).relay.lane = s.relay.lane := by
  unfold arbitrate sendRelayed sendReply
  (repeat' split) <;> simp

/-- A selection never lengthens a queue. -/
theorem arbitrate_queues (s : State) :
    (arbitrate s).agent.replies.length ≤ s.agent.replies.length ∧
    (arbitrate s).relay.fifo.length ≤ s.relay.fifo.length := by
  unfold arbitrate sendRelayed sendReply
  (repeat' split) <;> simp_all

/-- With a packet in sending the arbiter does nothing. -/
theorem arbitrate_busy (s : State) (h : s.relay.sending.isSome) : arbitrate s = s := by
  unfold arbitrate
  split
  · rfl
  · simp_all

@[simp] theorem arbitrate_context (s : State) (k : SourceId) : (arbitrate s).context k = s.context k :=
  context_congr (by simp) k

@[simp] theorem modifyContext_rest (src : SourceId) (f : Context → Context) (s : State) :
    (s.modifyContext src f).agent.inbound = s.agent.inbound ∧ (s.modifyContext src f).agent.busy = s.agent.busy ∧
    (s.modifyContext src f).agent.replies = s.agent.replies ∧
    (s.modifyContext src f).agent.lastServed = s.agent.lastServed ∧
    (s.modifyContext src f).agent.granted = s.agent.granted := ⟨rfl, rfl, rfl, rfl, rfl⟩

@[simp] theorem modifyContext_ownTraffic (src : SourceId) (f : Context → Context) (s : State) :
    ownTraffic (s.modifyContext src f) = ownTraffic s := rfl

@[simp] theorem modifyContext_relayTraffic (src : SourceId) (f : Context → Context) (s : State) :
    relayTraffic (s.modifyContext src f) = relayTraffic s := rfl

@[simp] theorem enqueue_rest (q : Queued) (s : State) :
    (enqueue q s).agent.inbound = s.agent.inbound ∧ (enqueue q s).agent.busy = s.agent.busy ∧
    (enqueue q s).agent.contexts = s.agent.contexts ∧ (enqueue q s).agent.lastServed = s.agent.lastServed ∧
    (enqueue q s).agent.granted = s.agent.granted ∧ (enqueue q s).agent.replies = s.agent.replies ++ [q] :=
  ⟨rfl, rfl, rfl, rfl, rfl, rfl⟩

@[simp] theorem enqueue_ownTraffic (q : Queued) (s : State) : ownTraffic (enqueue q s) = ownTraffic s ++ [q] := by
  simp [ownTraffic]

@[simp] theorem enqueue_relayTraffic (q : Queued) (s : State) : relayTraffic (enqueue q s) = relayTraffic s := rfl

@[simp] theorem enqueue_context (q : Queued) (s : State) (k : SourceId) : (enqueue q s).context k = s.context k := rfl

@[simp] theorem mapNotes_rest (f : Queued → Queued) (s : State) :
    (mapNotes f s).agent.inbound = s.agent.inbound ∧ (mapNotes f s).agent.busy = s.agent.busy ∧
    (mapNotes f s).agent.contexts = s.agent.contexts ∧ (mapNotes f s).agent.lastServed = s.agent.lastServed ∧
    (mapNotes f s).agent.granted = s.agent.granted ∧
    (mapNotes f s).relay.receiving = s.relay.receiving ∧ (mapNotes f s).relay.lane = s.relay.lane ∧
    (mapNotes f s).relay.fifo = s.relay.fifo ∧ (mapNotes f s).relay.lastServed = s.relay.lastServed :=
  ⟨rfl, rfl, rfl, rfl, rfl, rfl, rfl, rfl, rfl⟩

@[simp] theorem mapNotes_ownTraffic (f : Queued → Queued) (s : State) :
    ownTraffic (mapNotes f s) = (ownTraffic s).map f := by
  unfold ownTraffic mapNotes
  rcases h : s.relay.sending with _ | (p | q) <;> simp [mapSending]

@[simp] theorem mapNotes_relayTraffic (f : Queued → Queued) (s : State) :
    relayTraffic (mapNotes f s) = relayTraffic s := by
  unfold relayTraffic mapNotes
  rcases h : s.relay.sending with _ | (p | q) <;> simp [mapSending]

@[simp] theorem mapNotes_context (f : Queued → Queued) (s : State) (k : SourceId) :
    (mapNotes f s).context k = s.context k := rfl

@[simp] theorem bump_traffic (c : Counter) (k : Nat) (s : State) :
    ownTraffic (bump c k s) = ownTraffic s ∧ relayTraffic (bump c k s) = relayTraffic s := ⟨rfl, rfl⟩

end Sys2Proof.Machine
end

