-- ==== Sys2Proof/Laws/Agent.lean ====
section
/-! SUPPORT. What the agent does with a request it takes: said once, for every kind. -/

namespace Sys2Proof.Machine

/-- Everything that taking the head can do. -/
theorem takeHead_eq_some (accepts : Packet → Bool) (s s1 : State) (p : Packet) :
    takeHead accepts s = some (p, s1) ↔
      s.agent.busy = none ∧ ∃ rest, s.agent.inbound = p :: rest ∧ accepts p = true ∧
        (packetBroadcast p = true ∨ canReserve s = true) ∧
        s1 = { s with agent := { s.agent with inbound := rest, granted := false } } := by
  unfold takeHead
  split
  · rename_i q rest hb hi
    simp only [hi, List.cons.injEq]
    by_cases h : (accepts q && (packetBroadcast q || canReserve s)) = true
    · rw [if_pos h]
      simp only [Bool.and_eq_true, Bool.or_eq_true] at h
      constructor
      · intro e
        simp only [Option.some.injEq, Prod.mk.injEq] at e
        obtain ⟨rfl, rfl⟩ := e
        exact ⟨hb, rest, ⟨rfl, rfl⟩, h.1, h.2, rfl⟩
      · rintro ⟨-, r, ⟨rfl, rfl⟩, -, -, rfl⟩
        rfl
    · rw [if_neg h]
      simp only [Bool.and_eq_true, Bool.or_eq_true] at h
      constructor
      · simp
      · rintro ⟨-, r, ⟨rfl, rfl⟩, h1, h2, -⟩
        exact absurd ⟨h1, h2⟩ h
  · simp_all
  · simp_all

/-- With no source eligible the builder serves none. -/
theorem nextServed_isNone (s : State) : (nextServed s).isNone = true ↔ ∀ src, eligible s src = false := by
  unfold nextServed turn
  rw [Option.isNone_iff_eq_none, List.find?_eq_none]
  constructor
  · intro h src
    have hk : ∀ a k : SourceId, a + 1 + (k - (a + 1)) = k := by decide
    exact Bool.eq_false_iff.mpr
      (h src (List.mem_map.mpr ⟨src - (s.agent.lastServed + 1), mem_sourceIds _, hk s.agent.lastServed src⟩))
  · intro h src _
    simp [h src]

/-- When the agent can reserve a place (R147, log 5). -/
theorem canReserve_iff (s : State) :
    canReserve s = true ↔ 1 ≤ freePlaces s ∧ ((∀ src, eligible s src = false) ∨ s.agent.granted = true) := by
  unfold canReserve
  rw [Bool.and_eq_true, Bool.or_eq_true, decide_eq_true_iff, nextServed_isNone]

theorem isDuplicate_eq_false (r : Request) (s : State) : isDuplicate r s = false ↔ Fresh r s := by
  unfold isDuplicate Fresh
  cases h : (s.context r.source).state <;> simp

theorem fresh_congr {r : Request} {s t : State} (h : t.agent.contexts = s.agent.contexts) (hf : Fresh r s) : Fresh r t := by
  unfold Fresh at *
  rw [context_congr h]
  exact hf

/-- Everything that placing the reply of an executed request does to the agent and the relay (R152). -/
theorem placeReply_spec (r : Request) (a : Answer) (s : State) :
    let t := placeReply r a s
    t.agent.inbound = s.agent.inbound ∧ t.agent.busy = s.agent.busy ∧ t.agent.lastServed = s.agent.lastServed
    ∧ t.agent.granted = s.agent.granted
    ∧ ownTraffic t = (ownTraffic s).map (dropCopyNote r.source) ++ [⟨replyPacket s.sorter.address r a, .reply, true⟩]
    ∧ relayTraffic t = relayTraffic s ∧ t.relay.receiving = s.relay.receiving ∧ t.relay.lane = s.relay.lane
    ∧ ∀ src, t.context src = if src = r.source then
        { s.context src with
          state := .active, lastSeq := some r.seq, cached := some (replyPacket s.sorter.address r a), cachedQueued := true }
      else s.context src := by
  refine ⟨by simp [placeReply], by simp [placeReply], by simp [placeReply], by simp [placeReply], ?_, by simp [placeReply],
    by simp [placeReply], by simp [placeReply], fun src => ?_⟩
  · simp [placeReply, buildReply, replyPacket, kindReply]
  · simp [placeReply, context_modifyContext, cacheReply, buildReply, replyPacket, kindReply]

theorem placeReply_elsewhere (r : Request) (a : Answer) (s : State) : OnlyAgentAndRelay s (placeReply r a s) := by
  have h := placeReply_frame r a s
  generalize placeReply r a s = t at h ⊢
  obtain ⟨h1, h2, h3, h4, h5, h6, h7, h8, h9⟩ := h
  unfold OnlyAgentAndRelay
  cases s
  cases t
  simp_all

/-- Everything that placing a KIND or LENGTH reply does to the agent and the relay (R148). -/
theorem placeUncached_spec (r : Request) (st : Status) (s : State) :
    let t := placeUncached r st s
    t.agent.inbound = s.agent.inbound ∧ t.agent.busy = s.agent.busy ∧ t.agent.lastServed = s.agent.lastServed
    ∧ t.agent.granted = s.agent.granted ∧ t.agent.contexts = s.agent.contexts
    ∧ ownTraffic t = ownTraffic s ++ [⟨replyPacket s.sorter.address r ⟨st, []⟩, .reply, false⟩]
    ∧ relayTraffic t = relayTraffic s ∧ t.relay.receiving = s.relay.receiving ∧ t.relay.lane = s.relay.lane := by
  refine ⟨by simp [placeUncached], by simp [placeUncached], by simp [placeUncached], by simp [placeUncached],
    by simp [placeUncached], ?_, by simp [placeUncached], by simp [placeUncached], by simp [placeUncached]⟩
  simp [placeUncached, buildReply, replyPacket, kindReply]

/-- Everything that placing a cached reply again does to the agent and the relay (R151). -/
theorem placeCopy_spec (r : Request) (q : Packet) (s : State) :
    let t := placeCopy r q s
    t.agent.inbound = s.agent.inbound ∧ t.agent.busy = s.agent.busy ∧ t.agent.lastServed = s.agent.lastServed
    ∧ t.agent.granted = s.agent.granted ∧ ownTraffic t = ownTraffic s ++ [⟨q, .reply, true⟩]
    ∧ relayTraffic t = relayTraffic s ∧ t.relay.receiving = s.relay.receiving ∧ t.relay.lane = s.relay.lane
    ∧ ∀ src, t.context src = if src = r.source then { s.context src with cachedQueued := true } else s.context src := by
  refine ⟨by simp [placeCopy], by simp [placeCopy], by simp [placeCopy], by simp [placeCopy], by simp [placeCopy],
    by simp [placeCopy], by simp [placeCopy], by simp [placeCopy], fun src => ?_⟩
  simp [placeCopy, context_modifyContext]

theorem placeUncached_elsewhere (r : Request) (st : Status) (s : State) : OnlyAgentAndRelay s (placeUncached r st s) := by
  have h := placeUncached_frame r st s
  generalize placeUncached r st s = t at h ⊢
  obtain ⟨h1, h2, h3, h4, h5, h6, h7, h8, h9⟩ := h
  unfold OnlyAgentAndRelay
  cases s
  cases t
  simp_all

/-! ## The checks before execution (R148, R149, R151) -/

theorem lengthOk_eq_lengthAccepted (k : Byte) (payload : List Byte) : lengthOk k payload = lengthAccepted k payload := by
  unfold lengthOk lengthAccepted
  by_cases h : k ∈ requestKinds
  · simp only [requestKinds, List.mem_cons, List.not_mem_nil, or_false] at h
    rcases h with rfl | rfl | rfl | rfl | rfl | rfl | rfl | rfl | rfl | rfl | rfl | rfl | rfl | rfl <;> rfl
  · have hn : lengthChecks.find? (fun c => c.1 == k) = none := by
      rw [List.find?_eq_none]
      intro c hc
      have : c.1 ∈ requestKinds := by
        have hm : lengthChecks.map (·.1) ⊆ requestKinds := by decide
        exact hm (List.mem_map_of_mem hc)
      simp only [beq_iff_eq]
      rintro rfl
      exact h this
    simp only [requestKinds, List.mem_cons, List.not_mem_nil, or_false, not_or] at h
    simp [hn, h]

theorem judge_congr {p : Packet} {s t : State} (h : t.agent.contexts = s.agent.contexts) : judge p t = judge p s := by
  have hc : ∀ k, t.context k = s.context k := context_congr h
  simp [judge, isDuplicate, hc]

/-- The judgement of an addressed request (R148, R151). -/
theorem judge_addressed {p : Packet} (s : State) (hb : packetBroadcast p = false) (hk : packetKind p ∈ requestKinds) :
    (lengthOk (packetKind p) (packetPayload p) = false → judge p s = .refused .length)
    ∧ (lengthOk (packetKind p) (packetPayload p) = true →
        (Fresh (requestOf p) s → judge p s = .execute)
        ∧ (¬Fresh (requestOf p) s → judge p s = .duplicate
            (if (s.context (packetSource p)).cachedQueued then none else (s.context (packetSource p)).cached))) := by
  refine ⟨fun hl => ?_, fun hl => ⟨fun hf => ?_, fun hf => ?_⟩⟩
  · simp [judge, hb, hk, hl]
  · simp [judge, hb, hk, hl, (isDuplicate_eq_false _ _).2 hf]
  · have : isDuplicate (requestOf p) s = true := by
      rw [← isDuplicate_eq_false] at hf
      simpa using hf
    simp [judge, hb, hk, hl, this]

theorem judge_unknown {p : Packet} (s : State) (hb : packetBroadcast p = false) (hk : packetKind p ∉ requestKinds) :
    judge p s = .refused .kind := by
  simp [judge, hb, hk]

theorem judge_broadcast {p : Packet} (s : State) (hb : packetBroadcast p = true) :
    judge p s = if lengthOk (packetKind p) (packetPayload p) then .execute else .discarded := by
  simp [judge, hb]

/-! ## A request from its taking to its reply (R144, R145, R152) -/

/-- The state in which the agent has taken `p` and judged it so, from one in which it is the next request. -/
def heldBy (p : Packet) (j : Judgement) (rest : List Packet) (s : State) : State :=
  { s with agent := { s.agent with
      inbound := rest, granted := s.agent.granted && s.agent.busy.isSome, busy := some (.taken p j) } }

/-- Everything that taking can do. -/
theorem takeRequest_spec (accepts : Packet → Bool) (s : State) :
    takeRequest accepts s = s
    ∨ ∃ p rest, s.agent.busy = none ∧ s.agent.inbound = p :: rest ∧ accepts p = true
        ∧ (packetBroadcast p = true ∨ canReserve s = true) ∧ takeRequest accepts s = heldBy p (judge p s) rest s := by
  unfold takeRequest
  cases h : takeHead accepts s with
  | none => exact .inl rfl
  | some q =>
    obtain ⟨p, s1⟩ := q
    obtain ⟨hb, rest, hi, ha, hc, rfl⟩ := (takeHead_eq_some _ _ _ _).1 h
    refine .inr ⟨p, rest, hb, hi, ha, hc, ?_⟩
    unfold heldBy
    rw [hb, Option.isSome_none, Bool.and_false]
    rfl

/-- A BUSY agent takes nothing. -/
theorem takeRequest_busy (accepts : Packet → Bool) {s : State} (h : s.agent.busy ≠ none) : takeRequest accepts s = s := by
  rcases takeRequest_spec accepts s with e | ⟨p, rest, hb, -⟩
  · exact e
  · exact absurd hb h

/-- Taking twice is taking once. -/
theorem takeRequest_idem (accepts : Packet → Bool) (s : State) :
    takeRequest accepts (takeRequest accepts s) = takeRequest accepts s := by
  rcases takeRequest_spec accepts s with e | ⟨p, rest, -, -, -, -, e⟩
  · rw [e, e]
  · rw [e]
    exact takeRequest_busy _ (by simp [heldBy])

/-- The next request is held, whether it is taken now or was taken before. -/
theorem takeRequest_inHand {accepts : Packet → Bool} {p : Packet} {j : Judgement} {rest : List Packet} {s : State}
    (h : InHand p j rest s) (ha : s.agent.busy = none → accepts p = true ∧ judge p s = j) :
    takeRequest accepts s = heldBy p j rest s := by
  rcases h with ⟨hb, hi, hc⟩ | ⟨hb, hi⟩
  · obtain ⟨ha, hj⟩ := ha hb
    have e := (takeHead_eq_some accepts s _ p).2 ⟨hb, rest, hi, ha, hc, rfl⟩
    unfold takeRequest heldBy
    rw [e, hb, Option.isSome_none, Bool.and_false, ← hj]
    rfl
  · rw [takeRequest_busy _ (by simp [hb])]
    unfold heldBy
    rw [hb, ← hi, Option.isSome_some, Bool.and_true, ← hb]

/-- The extent of the command is used up, whatever else it does. -/
theorem canReserve_extents (s : State) (es : List Config.Extent) : canReserve { s with extents := es } = canReserve s := rfl

theorem inHand_extents {p : Packet} {j : Judgement} {rest : List Packet} {s : State} (es : List Config.Extent) :
    InHand p j rest { s with extents := es } ↔ InHand p j rest s := Iff.rfl

/-- A row that carries the next request through: its own action, then its reply. -/
theorem requestStep_replied {serves : Request → Bool} {castable : Bool} {execute : Packet → State → State} {p : Packet}
    {rest : List Packet} {s : State} (h : InHand p .execute rest s) (hs : serves (requestOf p) = true)
    (hc : castable = true ∨ packetBroadcast p = false) (hj : s.agent.busy = none → judge p s = .execute) :
    requestStep serves castable execute .replied s = replyRequest serves (execute p (heldBy p .execute rest s)) := by
  have ha : (serves (requestOf p) && (castable || !packetBroadcast p)) = true := by
    rcases hc with rfl | hc
    · simp [hs]
    · simp [hs, hc]
  unfold requestStep
  dsimp only
  rw [takeRequest_inHand h (fun hb => ⟨ha, hj hb⟩)]
  congr 1
  simp [actRequest, heldBy, ha]

/-- A command of an addressed kind that carries its request through (R152): the request's own rule, then its reply. -/
theorem addressedStep_takes {k : Byte} {p : Packet} {rest : List Packet} {s : State} (h : Takes k p rest s) (rule : Rule)
    (hk : k ∈ requestKinds) (hl : lengthAccepted k (packetPayload p) = true) (hf : Fresh (requestOf p) s) :
    commanded (addressedStep k rule) s
      = (let u := rule (requestOf p) (heldBy p .execute rest { s with extents := s.extents.tail })
         placeReply (requestOf p) u.2 (release u.1)) := by
  obtain ⟨he, hi, rfl, hb⟩ := h
  unfold commanded addressedStep
  rw [he, requestStep_replied ((inHand_extents s.extents.tail).2 hi) (by simp [requestOf]) (.inr hb) (fun _ => ?_)]
  · simp [runRule, hold, replyRequest, placeDue, release, requestOf]
  · exact ((judge_addressed { s with extents := s.extents.tail } hb hk).2 (by rw [lengthOk_eq_lengthAccepted]; exact hl)).1 hf

/-- A command that only places the reply that is due. -/
theorem requestStep_due {serves : Request → Bool} {castable : Bool} {execute : Packet → State → State} {r : Request}
    {due : DueReply} {s : State} (h : s.agent.busy = some (.acted r due)) (hs : serves r = true) :
    requestStep serves castable execute .replied s = placeDue r due (release s) := by
  unfold requestStep
  dsimp only
  rw [takeRequest_busy _ (by simp [h])]
  simp [actRequest, replyRequest, h, hs]

/-- A row leaves a request in execution that it does not serve, and one whose next step the command does not reach. -/
theorem requestStep_other {serves : Request → Bool} {castable : Bool} {execute : Packet → State → State} {x : Execution}
    {upTo : Config.Extent} {s : State} (h : s.agent.busy = some x)
    (hx : match x with
      | .taken p _ => upTo = .taken ∨ serves (requestOf p) = false
      | .load _ => True
      | .acted r _ => upTo ≠ .replied ∨ serves r = false) :
    requestStep serves castable execute upTo s = s := by
  unfold requestStep
  dsimp only
  rw [takeRequest_busy _ (by simp [h])]
  cases x with
  | taken p j =>
    cases upTo with
    | taken => rfl
    | acted => simp_all [actRequest]
    | replied => simp_all [actRequest, replyRequest]
  | load run => cases upTo <;> simp [actRequest, replyRequest, h]
  | acted r due =>
    cases upTo with
    | taken => rfl
    | acted => simp [actRequest, h]
    | replied => simp_all [actRequest, replyRequest]

/-- A command that goes on to the action, or to the reply, does what two commands do one after the other. -/
theorem requestStep_taken_then (serves : Request → Bool) (castable : Bool) (execute : Packet → State → State)
    (upTo : Config.Extent) (s : State) :
    requestStep serves castable execute upTo (requestStep serves castable execute .taken s)
      = requestStep serves castable execute upTo s := by
  unfold requestStep
  dsimp only
  rw [takeRequest_idem]

end Sys2Proof.Machine
end

