-- ==== Sys2Proof/Laws/Glyphs.lean ====
section
/-! SUPPORT. What the operations of the directory and the store do: the block map under a marked run, first fit, the lowest
FREE entry, and the bytes of a load. -/

namespace Sys2Proof.Machine

/-! ## Runs of blocks -/

theorem setRun_getElem? (v : Option GlyphId) (first n : Nat) (bs : List (Option GlyphId)) (k : Nat) :
    (setRun v first n bs)[k]? = if first ≤ k ∧ k < first + n ∧ k < bs.length then some v else bs[k]? := by
  induction bs generalizing first n k with
  | nil => cases first <;> cases n <;> simp [setRun]
  | cons b rest ih =>
    cases first with
    | zero =>
      cases n with
      | zero => simp [setRun]
      | succ n =>
        cases k with
        | zero => simp [setRun]
        | succ k => simp [setRun, ih]
    | succ first =>
      cases k with
      | zero => cases n <;> simp [setRun]
      | succ k =>
        have : setRun v (first + 1) n (b :: rest) = b :: setRun v first n rest := by cases n <;> rfl
        simp [this, ih]
        congr 1
        simp
        omega

/-- A marked run: its blocks hold the mark, every other block is as it was. -/
theorem markRun_get (v : Option GlyphId) (first n : Nat) (m : Vector (Option GlyphId) 512) (k : Fin 512) :
    (markRun v first n m)[k.val] = if first ≤ k.val ∧ k.val < first + n then v else m[k.val] := by
  have h : (setRun v first n m.toList)[k.val]? = some (markRun v first n m)[k.val] := by
    simp [markRun, setRun_length]
  rw [setRun_getElem?] at h
  have hk : k.val < m.toList.length := by simp
  by_cases hin : first ≤ k.val ∧ k.val < first + n
  · simpa [hin, eq_comm] using h.symm
  · have : ¬(first ≤ k.val ∧ k.val < first + n ∧ k.val < m.toList.length) := fun h => hin ⟨h.1, h.2.1⟩
    rw [if_neg this] at h
    rw [if_neg hin]
    have h2 : m.toList[k.val]? = some m[k.val] := by simp
    rw [h2] at h
    exact (Option.some.inj h).symm

theorem freeFront_iff (n : Nat) (bs : List (Option GlyphId)) :
    freeFront n bs = true ↔ n ≤ bs.length ∧ ∀ k, k < n → bs[k]? = some none := by
  induction bs generalizing n with
  | nil => cases n <;> simp [freeFront]
  | cons b rest ih =>
    cases n with
    | zero => simp [freeFront]
    | succ n =>
      cases b with
      | none =>
        simp only [freeFront, ih, List.length_cons, Nat.add_le_add_iff_right]
        refine and_congr Iff.rfl ⟨fun h k hk => ?_, fun h k hk => by simpa using h (k + 1) (by omega)⟩
        cases k with
        | zero => rfl
        | succ k => simpa using h k (by omega)
      | some e =>
        simp only [freeFront, Bool.false_eq_true, false_iff, not_and]
        intro _ h
        simpa using h 0 (by omega)

/-- First fit answers the lowest start of a run of free blocks, counted from `k` at the list's head. -/
theorem firstFit_eq_some (n k first : Nat) (bs : List (Option GlyphId)) :
    firstFit n k bs = some first ↔
      ∃ i, first = k + i ∧ freeFront n (bs.drop i) = true ∧ i ≤ bs.length
        ∧ ∀ j, j < i → freeFront n (bs.drop j) = false := by
  induction bs generalizing k with
  | nil =>
    cases n with
    | zero =>
      simp only [firstFit, freeFront, List.length_nil, Nat.le_zero, if_true, Option.some.injEq, true_and]
      constructor
      · rintro rfl
        exact ⟨0, rfl, rfl, fun j hj => absurd hj (Nat.not_lt_zero j)⟩
      · rintro ⟨i, rfl, rfl, -⟩
        rfl
    | succ n => simp [firstFit, freeFront]
  | cons b rest ih =>
    unfold firstFit
    by_cases hf : freeFront n (b :: rest) = true
    · rw [if_pos hf]
      constructor
      · intro h
        cases h
        exact ⟨0, rfl, by simpa using hf, by simp, by simp⟩
      · rintro ⟨i, rfl, -, -, hj⟩
        cases i with
        | zero => rfl
        | succ i =>
          have := hj 0 (by omega)
          simp [hf] at this
    · rw [if_neg hf, ih]
      constructor
      · rintro ⟨i, rfl, h1, h2, h3⟩
        refine ⟨i + 1, by omega, by simpa using h1, by simpa using h2, fun j hj => ?_⟩
        cases j with
        | zero => simpa using hf
        | succ j => simpa using h3 j (by omega)
      · rintro ⟨i, rfl, h1, h2, h3⟩
        cases i with
        | zero => exact absurd (by simpa using h1) hf
        | succ i =>
          exact ⟨i, by omega, by simpa using h1, by simpa using h2, fun j hj => by simpa using h3 (j + 1) (by omega)⟩

theorem firstFit_eq_none (n k : Nat) (bs : List (Option GlyphId)) :
    firstFit n k bs = none ↔ ∀ i, i ≤ bs.length → freeFront n (bs.drop i) = false := by
  induction bs generalizing k with
  | nil => cases n <;> simp [firstFit, freeFront]
  | cons b rest ih =>
    unfold firstFit
    by_cases hf : freeFront n (b :: rest) = true
    · rw [if_pos hf]
      simp only [reduceCtorEq, false_iff]
      intro h
      have := h 0 (by simp)
      simp [hf] at this
    · rw [if_neg hf, ih]
      constructor
      · intro h i hi
        cases i with
        | zero => simpa using hf
        | succ i => simpa using h i (by simpa using hi)
      · intro h i hi
        simpa using h (i + 1) (by simpa using hi)

/-- The lowest FREE entry: FREE, with none FREE below it. -/
theorem lowestFree_eq_some (g : GlyphStore) (e : GlyphId) :
    lowestFree g = some e ↔ g.entries[e.val] = none ∧ ∀ e' : GlyphId, e' < e → g.entries[e'.val] ≠ none := by
  unfold lowestFree
  have hlen : g.entries.toList.length = 256 := by simp
  constructor
  · intro h
    obtain ⟨i, hi, rfl⟩ := Option.map_eq_some_iff.mp h
    rw [List.findIdx?_eq_some_iff_getElem] at hi
    obtain ⟨hlt, hnone, hbefore⟩ := hi
    have hi256 : i < 256 := by rw [← hlen]; exact hlt
    have hv : (glyphOf i).val = i := Nat.mod_eq_of_lt hi256
    refine ⟨by simpa [hv] using hnone, fun e' he' => ?_⟩
    have : e'.val < i := by rw [← hv]; exact he'
    have := hbefore e'.val this
    simpa using this
  · rintro ⟨hnone, hbefore⟩
    refine Option.map_eq_some_iff.mpr ⟨e.val, ?_, ?_⟩
    · rw [List.findIdx?_eq_some_iff_getElem]
      refine ⟨by rw [hlen]; exact e.isLt, by simpa using hnone, fun j hj => ?_⟩
      have := hbefore ⟨j, by omega⟩ hj
      simpa using this
    · exact Fin.ext (Nat.mod_eq_of_lt e.isLt)

theorem lowestFree_eq_none (g : GlyphStore) : lowestFree g = none ↔ ∀ e : GlyphId, g.entries[e.val] ≠ none := by
  unfold lowestFree
  rw [Option.map_eq_none_iff, List.findIdx?_eq_none_iff]
  constructor
  · intro h e
    have := h g.entries[e.val] (by simp)
    intro hn
    simp [hn] at this
  · intro h x hx
    obtain ⟨i, hi, rfl⟩ := List.getElem_of_mem hx
    have := h ⟨i, by simpa using hi⟩
    simpa [Option.isSome_iff_ne_none] using this

/-! ## The entry's fields under the actions -/

theorem entry_takeEntry (e : GlyphId) (g : Glyph) (s : State) (e' : GlyphId) :
    (takeEntry e g s).entry e' = if e' = e then some g else s.entry e' := by
  change (modifyVec s.glyphs.entries e (fun _ => some g))[e'.val] = _
  rw [modifyVec_get]
  rfl

theorem entry_freeEntry (e : GlyphId) (g : Glyph) (s : State) (e' : GlyphId) :
    (freeEntry e g s).entry e' = if e' = e then none else s.entry e' := by
  change (modifyVec s.glyphs.entries e (fun _ => none))[e'.val] = _
  rw [modifyVec_get]
  rfl

theorem entry_resetDirectory (s : State) (e : GlyphId) : (resetDirectory s).entry e = none := by
  simp [resetDirectory, State.entry, GlyphStore.reset]

/-! ## The writes of a load (R38) -/

/-- The bytes that a load's writes bring stand at their addresses; every other address reads as before. -/
theorem read_writeLoadTo (n : Nat) (run : LoadRun) (s : State) (hn : n ≤ max run.written run.data.length) (a : Nat) :
    Memory.read? (writeLoadTo n run s).glyphs.bytes a
      = if run.base + run.written ≤ a ∧ a < run.base + n then run.data[a - run.base]?
        else Memory.read? s.glyphs.bytes a := by
  change Memory.read? (Memory.writeSpan _ ((run.data.drop run.written).take (n - run.written)) s.glyphs.bytes) a = _
  rw [read_writeSpan, List.length_take, List.length_drop]
  by_cases h : run.base + run.written ≤ a ∧ a < run.base + n
  · have h1 : run.base + run.written ≤ a
        ∧ a < run.base + run.written + min (n - run.written) (run.data.length - run.written) := by omega
    have h2 : run.written + (a - (run.base + run.written)) = a - run.base := by omega
    rw [if_pos h, if_pos h1, List.getElem?_take_of_lt (by omega), List.getElem?_drop, h2]
  · have h1 : ¬(run.base + run.written ≤ a
        ∧ a < run.base + run.written + min (n - run.written) (run.data.length - run.written)) := by omega
    rw [if_neg h, if_neg h1]

/-- The writes of a load in execution never pass its last data byte, and never go back. -/
theorem loadProgress_bounds (draw : Nat) (run : LoadRun) :
    run.written ≤ loadProgress draw run ∧ loadProgress draw run ≤ max run.written run.data.length := by
  unfold loadProgress
  omega

/-- A byte of a plan under the writes of a load: its address stays, and it may have the value that the load brings (R46,
log 10). -/
theorem refetch_spec (draw : Nat) (run : LoadRun) (n : Nat) (b : FetchedByte) :
    (refetch draw run n b).addr = b.addr
    ∧ ((refetch draw run n b).value = b.value ∨ newByte run n b.addr = some (refetch draw run n b).value) := by
  unfold refetch
  cases hv : newByte run n b.addr with
  | none => exact ⟨rfl, .inl rfl⟩
  | some v =>
    dsimp only
    split
    · exact ⟨rfl, .inr rfl⟩
    · exact ⟨rfl, .inl rfl⟩

/-- The bytes of a plan under the writes of the load in execution. -/
theorem map_refetch_reread (s : State) (run : LoadRun) (n : Nat) (p : Plan) (hb : s.agent.busy = some (.load run)) :
    Reread s n p { p with bytes := p.bytes.map (refetch s.freeDraws run n) } := by
  refine ⟨rfl, rfl, List.length_map .., fun i b c hi hc => ?_⟩
  rw [List.getElem?_map, hi] at hc
  obtain ⟨h1, h2⟩ := refetch_spec s.freeDraws run n b
  cases Option.some.inj hc
  refine ⟨h1, ?_⟩
  rcases h2 with h2 | h2
  · exact .inl h2
  · exact .inr ⟨run, hb, h2⟩

theorem reread_refl (s : State) (n : Nat) (p : Plan) : Reread s n p p := by
  refine ⟨rfl, rfl, rfl, fun i b c hi hc => ?_⟩
  cases Option.some.inj (hi.symm.trans hc)
  exact ⟨rfl, .inl rfl⟩

/-! ## The pixels drawn from the bytes of a line (R65, R72) -/

theorem drawnBytes_length (p : Plan) (received : List Byte) (k : Nat) : (drawnBytes p received k).length = 3 * k := by
  unfold drawnBytes
  induction k with
  | zero => rfl
  | succ k ih =>
    rw [List.range_succ, List.flatMap_append, List.length_append, ih]
    simp [pixelBytes, colourBytes]
    omega

theorem drawnBytes_succ (p : Plan) (received : List Byte) (k : Nat) :
    drawnBytes p received (k + 1) = drawnBytes p received k ++ pixelBytes p received k := by
  unfold drawnBytes
  rw [List.range_succ, List.flatMap_append]
  simp

/-- A further byte changes no pixel received whole before it. -/
theorem pixelBytes_append (p : Plan) (received more : List Byte) (u : Nat) (h : 3 * u + 3 ≤ received.length) :
    pixelBytes p (received ++ more) u = pixelBytes p received u := by
  have hc : colourOfBytes ((received ++ more).drop (3 * u)) = colourOfBytes (received.drop (3 * u)) := by
    have hget : ∀ i, i < 3 → ((received ++ more).drop (3 * u)).getD i 0 = (received.drop (3 * u)).getD i 0 := by
      intro i hi
      rw [List.getD_eq_getElem?_getD, List.getD_eq_getElem?_getD, List.getElem?_drop, List.getElem?_drop,
        List.getElem?_append_left (by omega)]
    unfold colourOfBytes
    rw [hget 0 (by omega), hget 1 (by omega), hget 2 (by omega)]
  unfold pixelBytes
  rw [hc]

theorem drawnBytes_append (p : Plan) (received more : List Byte) (k : Nat) (h : 3 * k ≤ received.length) :
    drawnBytes p (received ++ more) k = drawnBytes p received k := by
  induction k with
  | zero => rfl
  | succ k ih =>
    rw [drawnBytes_succ, drawnBytes_succ, ih (by omega), pixelBytes_append p received more k (by omega)]

/-- What a load's writes leave of the line in progress (R46, R64, R72). -/
theorem writeLoadTo_lineReread (n : Nat) (run : LoadRun) (s : State) (hb : s.agent.busy = some (.load run)) :
    LineReread s n s.comp (writeLoadTo n run s).comp := by
  change LineReread s n s.comp (rereadLine (refetch s.freeDraws run n) s.comp)
  unfold LineReread rereadLine
  cases hp : s.comp.plan with
  | none => rfl
  | some p => exact ⟨_, map_refetch_reread s run n p hb, rfl⟩

/-- The store stays in its canonical form under the writes of a load that stays inside it. -/
theorem wf_writeLoadTo (n : Nat) (run : LoadRun) (s : State)
    (hin : run.base + run.data.length ≤ Config.storeBytes) (h : Memory.wf s.glyphs.bytes = true) :
    Memory.wf (writeLoadTo n run s).glyphs.bytes = true := by
  change Memory.wf (Memory.writeSpan _ ((run.data.drop run.written).take (n - run.written)) s.glyphs.bytes) = true
  by_cases hw : run.written < run.data.length
  · refine wf_writeSpan _ _ _ ?_ h
    rw [List.length_take, List.length_drop]
    omega
  · rw [List.drop_eq_nil_of_le (by omega), List.take_nil]
    exact h

/-- Everything that a look at the store does while a load may be in execution (R38, R46, logs 9 and 10). -/
theorem advanceLoad_spec (s : State) :
    ∃ n, LoadWrittenTo n s (advanceLoad s)
      ∧ ((advanceLoad s).comp = s.comp ∨ LineReread s n s.comp (advanceLoad s).comp)
      ∧ { (advanceLoad s).glyphs with bytes := s.glyphs.bytes } = s.glyphs
      ∧ { (advanceLoad s).agent with busy := s.agent.busy } = s.agent
      ∧ (Memory.wf s.glyphs.bytes = true → Memory.wf (advanceLoad s).glyphs.bytes = true) := by
  unfold LoadWrittenTo
  match hb : s.agent.busy with
  | none =>
    have e : advanceLoad s = s := by simp [advanceLoad, hb]
    rw [e]
    exact ⟨0, ⟨hb, rfl⟩, .inl rfl, rfl, by rw [← hb], id⟩
  | some (.taken q j) =>
    have e : advanceLoad s = s := by simp [advanceLoad, hb]
    rw [e]
    exact ⟨0, ⟨hb, rfl⟩, .inl rfl, rfl, by rw [← hb], id⟩
  | some (.acted r due) =>
    have e : advanceLoad s = s := by simp [advanceLoad, hb]
    rw [e]
    exact ⟨0, ⟨hb, rfl⟩, .inl rfl, rfl, by rw [← hb], id⟩
  | some (.load run) =>
    have hp := loadProgress_bounds s.freeDraws run
    by_cases hin : Config.storeBytes < run.base + run.data.length
    · have e : advanceLoad s = s := by simp [advanceLoad, hb, hin]
      rw [e]
      refine ⟨run.written, ⟨Nat.le_refl _, by omega, hb, fun a => ?_⟩, .inl rfl, rfl, by rw [← hb], id⟩
      rw [if_neg (by omega)]
    · have e : advanceLoad s = writeLoadTo (loadProgress s.freeDraws run) run s := by simp [advanceLoad, hb, hin]
      rw [e]
      exact ⟨loadProgress s.freeDraws run, ⟨hp.1, hp.2, rfl, read_writeLoadTo _ _ _ hp.2⟩,
        .inr (writeLoadTo_lineReread _ _ _ hb), rfl, by rw [← hb]; rfl, wf_writeLoadTo _ _ _ (by omega)⟩

/-- A planned line whose pixels stand as its bytes give them keeps them so at every look at the store: with its plan reread, or
as it was. -/
theorem advanceLoad_drawn {s : State} {p : Plan} {a : Arriving} {k : Nat} (hp : s.comp.plan = some p)
    (ha : s.comp.arriving = some a) (hk : DrawnTo k p a) :
    ∃ n q, LoadWrittenTo n s (advanceLoad s) ∧ Reread s n p q
      ∧ (advanceLoad s).comp = { s.comp with
          plan := some q, arriving := some { a with composited := drawnBytes q a.received k } } := by
  obtain ⟨n, h1, h2, -⟩ := advanceLoad_spec s
  rcases h2 with h2 | h2
  · exact ⟨n, p, h1, reread_refl s n p, by rw [h2, ← hk, ← hp, ← ha]⟩
  · unfold LineReread at h2
    rw [hp] at h2
    obtain ⟨q, hr, he⟩ := h2
    have hlen : a.composited.length / 3 = k := by
      rw [hk, drawnBytes_length]
      omega
    exact ⟨n, q, h1, hr, by rw [he, ha, Option.map_some, hlen]⟩

end Sys2Proof.Machine
end

