-- ==== Sys2Proof/Laws/Layers.lean ====
section
/-! SUPPORT. What the operations of the layer table do to each layer: claims and releases, the countdown, the copies. -/

namespace Sys2Proof.Machine

/-! ## Folds over layers -/

/-- A fold whose every step changes one layer's value, from that value alone, changes each layer of the list once. -/
theorem foldl_pointwise {σ α : Type} (view : σ → LayerId → α) (g : LayerId → α → α) (f : σ → LayerId → σ)
    (hf : ∀ s l k, view (f s l) k = if k = l then g l (view s l) else view s k) (ls : List LayerId) (hn : ls.Nodup) (s : σ)
    (k : LayerId) : view (ls.foldl f s) k = if k ∈ ls then g k (view s k) else view s k := by
  induction ls generalizing s with
  | nil => simp
  | cons l rest ih =>
    rw [List.foldl_cons, ih (List.nodup_cons.mp hn).2, hf]
    by_cases hk : k = l
    · subst hk
      simp [(List.nodup_cons.mp hn).1]
    · simp [hk]

/-- A fold keeps what each of its steps keeps. -/
theorem foldl_keeps {σ α β : Type} (view : σ → α) (f : σ → β → σ) (hf : ∀ s b, view (f s b) = view s) (bs : List β) (s : σ) :
    view (bs.foldl f s) = view s := by
  induction bs generalizing s with
  | nil => rfl
  | cons b rest ih => rw [List.foldl_cons, ih, hf]

theorem nodup_named (m : Word) : (layerIds.filter (namesLayer m)).Nodup := layerIds_nodup.filter _

theorem mem_named (m : Word) (l : LayerId) : l ∈ layerIds.filter (namesLayer m) ↔ namesLayer m l = true := by
  simp [List.mem_filter, mem_layerIds]

/-! ## Claims and releases -/

theorem ownership_claimLayers (src : SourceId) (mask : Word) (lease : Nat) (s : State) (k : LayerId) :
    (claimLayers src mask lease s).ownership k = if namesLayer mask k then ⟨some src, lease, lease⟩ else s.ownership k := by
  unfold claimLayers
  rw [foldl_pointwise State.ownership (fun _ _ => ⟨some src, lease, lease⟩) _ (fun s l k => by rw [ownership_setOwnership]) _
    (nodup_named mask)]
  simp only [mem_named]

theorem ownership_releaseLayers (mask : Word) (s : State) (k : LayerId) :
    (releaseLayers mask s).ownership k = if namesLayer mask k then ⟨none, 0, 0⟩ else s.ownership k := by
  unfold releaseLayers
  rw [foldl_pointwise State.ownership (fun _ _ => Ownership.unowned) _ (fun s l k => by rw [ownership_setOwnership]) _
    (nodup_named mask)]
  simp only [mem_named]
  rfl

/-- A claim changes nothing but ownership fields. -/
theorem claimLayers_rest (src : SourceId) (mask : Word) (lease : Nat) (s : State) :
    claimLayers src mask lease s
      = { s with layers := { s.layers with ownership := (claimLayers src mask lease s).layers.ownership } } := by
  have h := foldl_keeps (fun t : State => { t with layers := { t.layers with ownership := s.layers.ownership } })
    (fun s l => s.setOwnership l ⟨some src, lease, lease⟩) (fun _ _ => rfl) (layerIds.filter (namesLayer mask)) s
  change _ = s at h
  exact congrArg (fun t : State => { t with layers := { t.layers with
    ownership := (claimLayers src mask lease s).layers.ownership } }) h

/-- A release changes nothing but ownership fields. -/
theorem releaseLayers_rest (mask : Word) (s : State) :
    releaseLayers mask s = { s with layers := { s.layers with ownership := (releaseLayers mask s).layers.ownership } } := by
  have h := foldl_keeps (fun t : State => { t with layers := { t.layers with ownership := s.layers.ownership } })
    (fun s l => s.setOwnership l Ownership.unowned) (fun _ _ => rfl) (layerIds.filter (namesLayer mask)) s
  change _ = s at h
  exact congrArg (fun t : State => { t with layers := { t.layers with
    ownership := (releaseLayers mask s).layers.ownership } }) h

/-! ## Records replaced -/

theorem pendingRecord_replacePending (l k : LayerId) (r : LayerRecord) (s : State) :
    (replacePending l r s).pendingRecord k = if k = l then r else s.pendingRecord k := by
  change (modifyVec (adjustRefs (s.pendingRecord l) r s).layers.pendingBank l (fun _ => r))[k.val] = _
  rw [modifyVec_get]
  congr 1
  unfold adjustRefs addRef dropRef
  (repeat' split) <;> rfl

theorem activeRecord_replacePending (l k : LayerId) (r : LayerRecord) (s : State) :
    (replacePending l r s).activeRecord k = s.activeRecord k := by
  unfold replacePending adjustRefs addRef dropRef
  (repeat' split) <;> rfl

theorem activeRecord_replaceActive (l k : LayerId) (r : LayerRecord) (s : State) :
    (replaceActive l r s).activeRecord k = if k = l then r else s.activeRecord k := by
  change (modifyVec (adjustRefs (s.activeRecord l) r s).layers.activeBank l (fun _ => r))[k.val] = _
  rw [modifyVec_get]
  congr 1
  unfold adjustRefs addRef dropRef
  (repeat' split) <;> rfl

theorem pendingRecord_replaceActive (l k : LayerId) (r : LayerRecord) (s : State) :
    (replaceActive l r s).pendingRecord k = s.pendingRecord k := by
  unfold replaceActive adjustRefs addRef dropRef
  (repeat' split) <;> rfl

theorem ownership_replaceActive (l k : LayerId) (r : LayerRecord) (s : State) :
    (replaceActive l r s).ownership k = s.ownership k := by
  unfold replaceActive adjustRefs addRef dropRef
  (repeat' split) <;> rfl

/-- The entry of a record replaced loses a count and the entry of the new one gains a count, unless both are one (R7). -/
theorem entry_adjustRefs (old new : LayerRecord) (s : State) (e : GlyphId) :
    (adjustRefs old new s).entry e = (s.entry e).map (fun g => { g with
      refs := if contribution old = contribution new then g.refs
        else g.refs - (if contribution old = some e then 1 else 0) + (if contribution new = some e then 1 else 0) }) := by
  unfold adjustRefs
  by_cases hc : contribution old = contribution new
  · rw [if_pos hc]
    simp [hc]
  · rw [if_neg hc]
    cases ho : contribution old <;> cases hn : contribution new <;>
      simp only [addRef, dropRef, entry_modifyEntry, Option.some.injEq, reduceCtorEq, if_false, Nat.sub_zero, Nat.add_zero]
    · rw [ho, hn] at hc
      exact absurd rfl hc
    · rename_i b
      by_cases hb : e = b
      · subst hb
        simp
      · simp [hb, eq_comm]
    · rename_i a
      by_cases ha : e = a
      · subst ha
        simp
      · simp [ha, eq_comm]
    · rename_i a b
      have hab : a ≠ b := fun h => hc (by rw [ho, hn, h])
      by_cases hb : e = b
      · subst hb
        simp [hab, Ne.symm hab]
      · by_cases ha : e = a
        · subst ha
          simp [hb, Ne.symm hb]
        · simp [ha, hb, Ne.symm ha, Ne.symm hb]

/-! ## The countdown (R84 to R88) -/

/-- What the layer table holds of one layer. -/
def layerView (s : State) (l : LayerId) : Ownership × LayerRecord × LayerRecord :=
  (s.ownership l, s.pendingRecord l, s.activeRecord l)

/-- The countdown of one layer, on what the table holds of it. -/
def countdownView (action : ExpiryAction) (v : Ownership × LayerRecord × LayerRecord) :
    Ownership × LayerRecord × LayerRecord :=
  match v.1.owner with
  | none => v
  | some _ =>
    if v.1.remaining = 1 then (⟨none, 0, 0⟩, hidden (decide (action = .hide)) v.2.1, hidden (decide (action = .hide)) v.2.2)
    else ({ v.1 with remaining := v.1.remaining - 1 }, v.2)

theorem layerView_expireLayer (action : ExpiryAction) (src : SourceId) (l k : LayerId) (frame : Word) (s : State) :
    layerView (expireLayer action src l frame s) k
      = if k = l then
          (⟨none, 0, 0⟩, hidden (decide (action = .hide)) (s.pendingRecord l), hidden (decide (action = .hide)) (s.activeRecord l))
        else layerView s k := by
  have hr : ∀ t : State, layerView (recordFirstExpiry src l frame t) k = layerView t k := by
    intro t
    unfold recordFirstExpiry
    split <;> rfl
  unfold expireLayer
  rw [hr]
  by_cases hk : k = l
  · subst hk
    cases action <;>
      simp [layerView, State.ownership, State.pendingRecord, State.activeRecord, markLeaseExpired, markContext,
        State.modifyContext, hideLayer, State.setOwnership, hidden, Ownership.unowned]
  · cases action <;>
      simp [layerView, State.ownership, State.pendingRecord, State.activeRecord, markLeaseExpired, markContext,
        State.modifyContext, hideLayer, State.setOwnership, modifyVec_get, hk]

theorem layerView_countdownLayer (action : ExpiryAction) (frame : Word) (s : State) (l k : LayerId) :
    layerView (countdownLayer action frame s l) k
      = if k = l then countdownView action (layerView s l) else layerView s k := by
  unfold countdownLayer countdownView layerView
  cases ho : (s.ownership l).owner with
  | none =>
    by_cases hk : k = l
    · subst hk
      simp
    · simp [hk]
  | some src =>
    by_cases hrem : (s.ownership l).remaining = 1
    · simp only [ho, hrem, if_true]
      exact layerView_expireLayer action src l k frame s
    · simp only [ho, hrem, if_false, ownership_setOwnership]
      by_cases hk : k = l
      · subst hk
        simp [State.setOwnership, State.pendingRecord, State.activeRecord]
      · simp [hk, State.setOwnership, State.pendingRecord, State.activeRecord]

/-- The countdown does to each layer what it does to that layer alone. -/
theorem layerView_countdown (frame : Word) (s : State) (k : LayerId) :
    layerView (countdown frame s) k = countdownView s.status.settings.expiryAction (layerView s k) := by
  unfold countdown
  rw [foldl_pointwise layerView (fun _ => countdownView s.status.settings.expiryAction) _
    (layerView_countdownLayer _ frame) layerIds layerIds_nodup]
  simp [mem_layerIds]

/-! ## The copies (R17, R18) -/

theorem layerView_copyLayer (s : State) (l k : LayerId) :
    layerView (copyLayer s l) k
      = if k = l then (s.ownership l, s.pendingRecord l, s.pendingRecord l) else layerView s k := by
  unfold copyLayer layerView
  rw [ownership_replaceActive, pendingRecord_replaceActive, activeRecord_replaceActive]
  by_cases hk : k = l
  · subst hk
    simp
  · simp [hk]

theorem layerView_copyEntry (frame : Word) (s : State) (c : CommitEntry) (k : LayerId) :
    layerView (copyEntry frame s c) k
      = if namesLayer (appliedMask c s) k then (s.ownership k, s.pendingRecord k, s.pendingRecord k) else layerView s k := by
  unfold copyEntry
  change layerView ((layerIds.filter (namesLayer (appliedMask c s))).foldl copyLayer s) k = _
  rw [foldl_pointwise layerView (fun _ v => (v.1, v.2.1, v.2.1)) copyLayer
    (fun s l k => by rw [layerView_copyLayer]; rfl) _ (nodup_named _)]
  simp only [mem_named]
  rfl

/-- A layer's ACTIVE record becomes its PENDING record where an entry of its owner names it; nothing else of a layer
changes. -/
theorem layerView_copies (frame : Word) (commits : List CommitEntry) (s : State) (k : LayerId) :
    layerView (commits.foldl (copyEntry frame) s) k
      = if commits.any (fun c => namesLayer c.mask k && decide ((s.ownership k).owner = some c.source)) then
          (s.ownership k, s.pendingRecord k, s.pendingRecord k)
        else layerView s k := by
  induction commits generalizing s with
  | nil => simp
  | cons c rest ih =>
    have h1 := layerView_copyEntry frame s c k
    have ho : (copyEntry frame s c).ownership k = s.ownership k := by
      have := congrArg Prod.fst h1
      refine Eq.trans this ?_
      split <;> rfl
    have hp : (copyEntry frame s c).pendingRecord k = s.pendingRecord k := by
      have := congrArg (fun v => v.2.1) h1
      refine Eq.trans this ?_
      split <;> rfl
    have hm : namesLayer (appliedMask c s) k = (namesLayer c.mask k && decide ((s.ownership k).owner = some c.source)) := by
      unfold appliedMask
      rw [namesLayer_and, namesLayer_ownedMask]
    rw [List.foldl_cons, ih, ho, hp, List.any_cons]
    by_cases hr : (rest.any fun c => namesLayer c.mask k && decide ((s.ownership k).owner = some c.source)) = true
    · simp [hr]
    · rw [if_neg hr, h1, hm]
      simp only [Bool.not_eq_true] at hr
      rw [hr, Bool.or_false]

end Sys2Proof.Machine
end

