-- ==== Sys2Proof/Laws/Requests.lean ====
section
/-! SUPPORT. What the agent's steps with a request of any kind can do, and what its completion before a FRAME_START does. -/

namespace Sys2Proof.Machine

/-- The steps with a request are those of a row that has to do with it. -/
theorem requestSteps_row (r : Request) (upTo : Config.Extent) :
    ∃ c ∈ requestRows, RowOf c r
      ∧ ∀ s : State, exec c { s with extents := upTo :: s.extents } = .next (requestSteps r upTo s) := by
  by_cases hr : r.kind = kindReset
  · unfold requestSteps
    rw [if_pos hr]
    by_cases hn : namesScope 1 r.payload = true
    · rw [if_pos hn]
      refine ⟨.resetNode, by decide, .inl ⟨by rw [hr]; rfl, fun h => (by cases h), fun _ => ?_⟩, fun _ => rfl⟩
      simp_all [namesScope]
    · rw [if_neg hn]
      exact ⟨.resetTables, by decide, .inl ⟨by rw [hr]; rfl, fun _ => by simpa using hn, fun h => (by cases h)⟩, fun _ => rfl⟩
  · unfold requestSteps
    rw [if_neg hr]
    have row : ∀ c k, servedKind c = some k → c ≠ .resetTables → c ≠ .resetNode → r.kind = k → RowOf c r :=
      fun c k h1 h2 h3 h4 => .inl ⟨by rw [h1, h4], fun h => absurd h h2, fun h => absurd h h3⟩
    by_cases hk : r.kind ∈ requestKinds
    · simp only [requestKinds, List.mem_cons, List.not_mem_nil, or_false] at hk
      rcases hk with hk | hk | hk | hk | hk | hk | hk | hk | hk | hk | hk | hk | hk | hk <;>
        first
        | exact absurd hk hr
        | exact ⟨.identify, by decide, row _ _ rfl (by decide) (by decide) hk, fun _ => by rw [hk]; rfl⟩
        | exact ⟨.assign, by decide, row _ _ rfl (by decide) (by decide) hk, fun _ => by rw [hk]; rfl⟩
        | exact ⟨.configWrite, by decide, row _ _ rfl (by decide) (by decide) hk, fun _ => by rw [hk]; rfl⟩
        | exact ⟨.statusRead, by decide, row _ _ rfl (by decide) (by decide) hk, fun _ => by rw [hk]; rfl⟩
        | exact ⟨.claim, by decide, row _ _ rfl (by decide) (by decide) hk, fun _ => by rw [hk]; rfl⟩
        | exact ⟨.release, by decide, row _ _ rfl (by decide) (by decide) hk, fun _ => by rw [hk]; rfl⟩
        | exact ⟨.layerWrite, by decide, row _ _ rfl (by decide) (by decide) hk, fun _ => by rw [hk]; rfl⟩
        | exact ⟨.layerRead, by decide, row _ _ rfl (by decide) (by decide) hk, fun _ => by rw [hk]; rfl⟩
        | exact ⟨.commit, by decide, row _ _ rfl (by decide) (by decide) hk, fun _ => by rw [hk]; rfl⟩
        | exact ⟨.glyphDefine, by decide, row _ _ rfl (by decide) (by decide) hk, fun _ => by rw [hk]; rfl⟩
        | exact ⟨.glyphLoad, by decide, row _ _ rfl (by decide) (by decide) hk, fun _ => by rw [hk]; rfl⟩
        | exact ⟨.glyphDelete, by decide, row _ _ rfl (by decide) (by decide) hk, fun _ => by rw [hk]; rfl⟩
        | exact ⟨.glyphQuery, by decide, row _ _ rfl (by decide) (by decide) hk, fun _ => by rw [hk]; rfl⟩
    · refine ⟨.unknownKind, by decide, .inr ⟨rfl, hk⟩, fun s => ?_⟩
      have hn : kindSteps.find? (fun k => k.1 == r.kind) = none := by
        rw [List.find?_eq_none]
        intro k hm
        have hs : kindSteps.map (·.1) ⊆ requestKinds := by decide
        have : k.1 ∈ requestKinds := hs (List.mem_map_of_mem hm)
        rw [beq_iff_eq]
        intro he
        exact hk (he ▸ this)
      rw [hn]
      rfl

/-- Everything that the completion of the request in execution is, in the words of the rows (R144, R145). -/
theorem completeRequest_completed (s : State) : RequestCompleted s (completeRequest s) := by
  unfold RequestCompleted completeRequest
  cases s.agent.busy with
  | none => rfl
  | some x =>
    cases x with
    | load run => rfl
    | taken p j =>
      obtain ⟨c, -, hc, h⟩ := requestSteps_row (requestOf p) .replied
      exact ⟨c, hc, h s⟩
    | acted r due =>
      obtain ⟨c, -, hc, h⟩ := requestSteps_row r .replied
      exact ⟨c, hc, h s⟩

/-- Between two requests, and during a load's writes, there is nothing to complete. -/
theorem completeRequest_between {s : State} (h : BetweenRequests s) : completeRequest s = s := by
  unfold completeRequest
  rcases h with h | ⟨run, h⟩ <;> rw [h]

/-! ## What no request changes -/

/-- What the agent's steps with a request leave alone, whichever it is. -/
def outsideRequests (s : State) :
    (List Instr × List Config.Extent × Receiver × Option LineRecord) × (List Host.Cell × Nat)
      × (Compositor × Transmitter) × (Option (List Byte) × Option Packet) × Nat :=
  ((s.pending, s.extents, { s.rx with lastFault := none }, s.sorter.line), (s.glyphs.bytes, s.glyphs.epoch),
    (s.comp, s.tx), (s.relay.receiving, s.relay.lane), s.freeDraws)

theorem placeDue_outside (r : Request) (due : DueReply) (s : State) :
    outsideRequests (placeDue r due s) = outsideRequests s := by
  cases due with
  | executed a => simp [outsideRequests, placeDue, placeReply]
  | refused st => simp [outsideRequests, placeDue, placeUncached]
  | copied q => simp [outsideRequests, placeDue, placeCopy]

theorem replyRequest_outside (serves : Request → Bool) (s : State) :
    outsideRequests (replyRequest serves s) = outsideRequests s := by
  unfold replyRequest
  (repeat' split) <;> first | rfl | exact placeDue_outside _ _ _

/-- The steps with a request leave alone what its own action does. -/
theorem requestStep_outside {serves : Request → Bool} {castable : Bool} {execute : Packet → State → State}
    (h : ∀ p s, outsideRequests (execute p s) = outsideRequests s) (upTo : Config.Extent) (s : State) :
    outsideRequests (requestStep serves castable execute upTo s) = outsideRequests s := by
  have ht : ∀ accepts, outsideRequests (takeRequest accepts s) = outsideRequests s := by
    intro accepts
    rcases takeRequest_spec accepts s with e | ⟨p, rest, -, -, -, -, e⟩ <;> rw [e] <;> rfl
  have ha : ∀ accepts t, outsideRequests (actRequest accepts execute t) = outsideRequests t := by
    intro accepts t
    unfold actRequest
    (repeat' split) <;> first | rfl | exact h _ _
  unfold requestStep
  cases upTo with
  | taken => exact ht _
  | acted => exact (ha _ _).trans (ht _)
  | replied => exact (replyRequest_outside _ _).trans ((ha _ _).trans (ht _))

theorem addressedStep_outside {k : Byte} {rule : Rule} (h : ∀ r s, outsideRequests (rule r s).1 = outsideRequests s)
    (upTo : Config.Extent) (s : State) : outsideRequests (addressedStep k rule upTo s) = outsideRequests s :=
  requestStep_outside (execute := fun p => runRule rule (requestOf p)) (fun p t => h (requestOf p) t) upTo s

theorem eitherStep_outside {serves : Request → Bool} {rule : Rule} {effect : Request → State → State}
    (h : ∀ r s, outsideRequests (rule r s).1 = outsideRequests s)
    (he : ∀ r s, outsideRequests (effect r s) = outsideRequests s) (upTo : Config.Extent) (s : State) :
    outsideRequests (eitherStep serves rule effect upTo s) = outsideRequests s := by
  refine requestStep_outside (fun p t => ?_) upTo s
  split
  · exact he _ t
  · exact h _ t

theorem claimRule_outside (r : Request) (s : State) : outsideRequests (claimRule r s).1 = outsideRequests s := by
  unfold claimRule
  dsimp only
  (repeat' split) <;> first | rfl | (rw [claimLayers_rest]; rfl)

theorem releaseRule_outside (r : Request) (s : State) : outsideRequests (releaseRule r s).1 = outsideRequests s := by
  unfold releaseRule
  dsimp only
  (repeat' split) <;> first | rfl | (rw [releaseLayers_rest]; rfl)

/-- The bytes of the store and their epoch under a PENDING record replaced. -/
theorem replacePending_store (l : LayerId) (r : LayerRecord) (s : State) :
    (replacePending l r s).glyphs.bytes = s.glyphs.bytes ∧ (replacePending l r s).glyphs.epoch = s.glyphs.epoch := by
  unfold replacePending adjustRefs addRef dropRef
  (repeat' split) <;> exact ⟨rfl, rfl⟩

theorem layerWriteRule_outside (r : Request) (s : State) : outsideRequests (layerWriteRule r s).1 = outsideRequests s := by
  unfold layerWriteRule
  dsimp only
  (repeat' split) <;> first | rfl | simp [outsideRequests, replacePending_store]

theorem layerReadRule_outside (r : Request) (s : State) : outsideRequests (layerReadRule r s).1 = outsideRequests s := by
  unfold layerReadRule
  dsimp only
  (repeat' split) <;> rfl

theorem commitRule_outside (r : Request) (s : State) : outsideRequests (commitRule r s).1 = outsideRequests s := by
  unfold commitRule
  dsimp only
  (repeat' split) <;> rfl

theorem commitBroadcast_outside (r : Request) (s : State) :
    outsideRequests (commitBroadcast r s) = outsideRequests s := by
  unfold commitBroadcast
  dsimp only
  split <;> rfl

theorem glyphDefineRule_outside (r : Request) (s : State) : outsideRequests (glyphDefineRule r s).1 = outsideRequests s := by
  unfold glyphDefineRule defineGlyph
  dsimp only
  (repeat' split) <;> rfl

theorem startLoad_outside (r : Request) (s : State) : outsideRequests (startLoad r s) = outsideRequests s := by
  unfold startLoad
  split <;> rfl

theorem glyphDeleteRule_outside (r : Request) (s : State) : outsideRequests (glyphDeleteRule r s).1 = outsideRequests s := by
  unfold glyphDeleteRule
  dsimp only
  (repeat' split) <;> rfl

theorem assignRule_outside (r : Request) (s : State) : outsideRequests (assignRule r s).1 = outsideRequests s := by
  unfold assignRule
  dsimp only
  split <;> rfl

theorem configWriteRule_outside (r : Request) (s : State) : outsideRequests (configWriteRule r s).1 = outsideRequests s := by
  unfold configWriteRule
  dsimp only
  split <;> rfl

theorem statusReadRule_outside (r : Request) (s : State) : outsideRequests (statusReadRule r s).1 = outsideRequests s := by
  unfold statusReadRule
  dsimp only
  split
  · rfl
  · simp [outsideRequests]

theorem resetTablesRule_outside (r : Request) (s : State) : outsideRequests (resetTablesRule r s).1 = outsideRequests s := by
  unfold resetTablesRule
  split <;> rfl

theorem resetNodeRule_outside (r : Request) (s : State) : outsideRequests (resetNodeRule r s).1 = outsideRequests s := by
  unfold resetNodeRule
  split <;> rfl

/-- No request, whatever its kind, changes anything outside the tables, the agent, the node address, Node Status, the last
fault kind, and the packets that wait for the return lane. -/
theorem requestSteps_outside (r : Request) (upTo : Config.Extent) (s : State) :
    outsideRequests (requestSteps r upTo s) = outsideRequests s := by
  have hk : ∀ k ∈ kindSteps, outsideRequests (k.2 upTo s) = outsideRequests s := by
    intro k hm
    simp only [kindSteps, List.mem_cons, List.not_mem_nil, or_false] at hm
    rcases hm with rfl | rfl | rfl | rfl | rfl | rfl | rfl | rfl | rfl | rfl | rfl | rfl | rfl
    · exact addressedStep_outside (fun _ _ => rfl) upTo s
    · exact addressedStep_outside assignRule_outside upTo s
    · exact addressedStep_outside configWriteRule_outside upTo s
    · exact addressedStep_outside statusReadRule_outside upTo s
    · exact addressedStep_outside claimRule_outside upTo s
    · exact addressedStep_outside releaseRule_outside upTo s
    · exact addressedStep_outside layerWriteRule_outside upTo s
    · exact addressedStep_outside layerReadRule_outside upTo s
    · exact eitherStep_outside commitRule_outside commitBroadcast_outside upTo s
    · exact addressedStep_outside glyphDefineRule_outside upTo s
    · exact requestStep_outside (execute := fun p => startLoad (requestOf p)) (fun p t => startLoad_outside _ t) upTo s
    · exact addressedStep_outside glyphDeleteRule_outside upTo s
    · exact addressedStep_outside (fun _ _ => rfl) upTo s
  unfold requestSteps
  split
  · split
    · exact eitherStep_outside resetNodeRule_outside resetNodeRule_outside upTo s
    · exact eitherStep_outside resetTablesRule_outside resetTablesRule_outside upTo s
  · cases hf : kindSteps.find? (fun k => k.1 == r.kind) with
    | none =>
      change outsideRequests (unknownKindSteps upTo s) = _
      exact requestStep_outside (execute := fun _ t => t) (fun _ _ => rfl) upTo s
    | some k => exact hk k (List.mem_of_find?_eq_some hf)

/-- What the completion before a FRAME_START leaves alone. -/
theorem completeRequest_outside (s : State) : outsideRequests (completeRequest s) = outsideRequests s := by
  unfold completeRequest
  (repeat' split) <;> first | rfl | exact requestSteps_outside _ _ _

/-- Each entry of the table of steps is the agent's, with requests of its kind. -/
theorem kindSteps_serve {k : Byte × (Config.Extent → State → State)} (hm : k ∈ kindSteps) :
    ∃ serves castable execute, k.2 = requestStep serves castable execute ∧ ∀ r : Request, r.kind = k.1 → serves r = true := by
  have serves : ∀ c (r : Request), r.kind = c → (r.kind == c) = true := fun _ _ h => by rw [h, beq_self_eq_true]
  simp only [kindSteps, List.mem_cons, List.not_mem_nil, or_false] at hm
  rcases hm with rfl | rfl | rfl | rfl | rfl | rfl | rfl | rfl | rfl | rfl | rfl | rfl | rfl <;>
    exact ⟨_, _, _, rfl, serves _⟩

/-- The steps with a request serve it. -/
theorem requestSteps_serve (r : Request) :
    ∃ serves castable execute, requestSteps r = requestStep serves castable execute ∧ serves r = true := by
  unfold requestSteps
  by_cases hr : r.kind = kindReset
  · rw [if_pos hr]
    by_cases hn : namesScope 1 r.payload = true
    · rw [if_pos hn]
      refine ⟨fun r => r.kind == kindReset && !namesScope 0 r.payload, true, _, rfl, ?_⟩
      simp_all [namesScope]
    · rw [if_neg hn]
      refine ⟨fun r => r.kind == kindReset && !namesScope 1 r.payload, true, _, rfl, ?_⟩
      simp_all
  · rw [if_neg hr]
    cases hf : kindSteps.find? (fun k => k.1 == r.kind) with
    | none =>
      refine ⟨fun r => !requestKinds.contains r.kind, false, _, rfl, ?_⟩
      have hall : requestKinds ⊆ kindReset :: kindSteps.map (·.1) := by decide
      rw [List.find?_eq_none] at hf
      simp only [Bool.not_eq_true', List.contains_eq_mem, decide_eq_false_iff_not]
      intro hm
      rcases List.mem_cons.mp (hall hm) with h | h
      · exact hr h
      · obtain ⟨k, hk, he⟩ := List.mem_map.mp h
        exact hf k hk (by rw [beq_iff_eq]; exact he)
    | some k =>
      obtain ⟨serves, castable, execute, h1, h2⟩ := kindSteps_serve (List.mem_of_find?_eq_some hf)
      have hk := List.find?_some hf
      rw [beq_iff_eq] at hk
      exact ⟨serves, castable, execute, h1, h2 r hk.symm⟩

/-- A request whose own action is done has its reply placed, and the agent is IDLE (R145, R152). -/
theorem completeRequest_acted {s : State} {r : Request} {due : DueReply} (h : s.agent.busy = some (.acted r due)) :
    completeRequest s = placeDue r due (release s) := by
  have e : completeRequest s = requestSteps r .replied s := by
    unfold completeRequest
    rw [h]
  obtain ⟨serves, castable, execute, h1, h2⟩ := requestSteps_serve r
  rw [e, h1]
  exact requestStep_due h h2

/-- After that the agent is IDLE. -/
theorem completeRequest_done {s : State} {r : Request} {due : DueReply} (h : s.agent.busy = some (.acted r due)) :
    (completeRequest s).agent.busy = none := by
  rw [completeRequest_acted h]
  cases due with
  | executed a => simp [placeDue, placeReply, release]
  | refused st => simp [placeDue, placeUncached, release]
  | copied q => simp [placeDue, placeCopy, release]

end Sys2Proof.Machine
end

