-- ==== Sys2Proof/Laws/Stream.lean ====
section
/-! SUPPORT. What the operations of the forward path do: a fault found in FRAME, the end of an open line, the close of a blank
line, the allotment of a line, and the output sequence. -/

namespace Sys2Proof.Machine

/-! ## Faults (R105) -/

/-- A fault found in FRAME moves the receiver to RAW, marks the frame, and records its kind where it is the frame's first. -/
theorem faultToRaw_rx (k : FaultKind) (s : State) :
    (faultToRaw k s).rx
      = if s.rx.lock = .frame then
          { s.rx with lock := .raw, faulted := true, lastFault := if s.rx.faulted then s.rx.lastFault else some k }
        else s.rx := by
  unfold faultToRaw firstFault setLock
  cases hl : s.rx.lock <;> simp
  cases hf : s.rx.faulted <;> simp
  exact hf

theorem faultToRaw_counter (k : FaultKind) (s : State) (c : Counter) :
    (faultToRaw k s).counter c
      = if s.rx.lock = .frame ∧ s.rx.faulted = false ∧ c = .framesFaulted then saturate (s.counter c) 1 else s.counter c := by
  unfold faultToRaw firstFault setLock
  cases hl : s.rx.lock <;> simp
  cases hf : s.rx.faulted
  · change (bump .framesFaulted 1 _).counter c = _
    rw [counter_bump]
    simp
    rfl
  · simp
    rfl

/-! ## The close of a line (R131, R133) -/

/-- Packets offered in order: the queue takes them up to its four places, and the others are counted. -/
theorem offerRequests_inbound (ps : List Packet) (s : State) (h : s.agent.inbound.length ≤ 4) :
    (ps.foldl offerRequest s).agent = { s.agent with inbound := (s.agent.inbound ++ ps).take 4 } := by
  induction ps generalizing s with
  | nil =>
    have : s.agent.inbound.take 4 = s.agent.inbound := List.take_of_length_le h
    simp [this]
  | cons p rest ih =>
    rw [List.foldl_cons]
    by_cases hlt : s.agent.inbound.length < 4
    · have hs : offerRequest s p = { s with agent := { s.agent with inbound := s.agent.inbound ++ [p] } } := by
        unfold offerRequest Config.inboundDepth
        rw [if_pos hlt]
      rw [hs, ih _ (by simp; omega)]
      simp
    · have hs : (offerRequest s p).agent = s.agent := by
        unfold offerRequest Config.inboundDepth
        rw [if_neg hlt]
        rfl
      rw [ih _ (by rw [hs]; exact h), hs]
      have h4 : s.agent.inbound.length = 4 := by omega
      rw [List.take_append_of_le_length (by omega), List.take_append_of_le_length (by omega)]

/-- Offers count in REQ_OVERFLOW alone. -/
theorem offerRequests_counter (ps : List Packet) (s : State) (c : Counter) (hc : c ≠ .reqOverflow) :
    (ps.foldl offerRequest s).counter c = s.counter c := by
  refine foldl_keeps (fun t : State => t.counter c) offerRequest (fun t p => ?_) ps s
  unfold offerRequest
  split
  · rfl
  · rw [counter_bump, if_neg hc]

/-- The packets that find no place are counted. -/
theorem offerRequests_overflow (ps : List Packet) (s : State) (h : s.counter .reqOverflow ≤ 4294967295) :
    (ps.foldl offerRequest s).counter .reqOverflow
      = min (s.counter .reqOverflow + (s.agent.inbound.length + ps.length - max 4 s.agent.inbound.length)) 4294967295 := by
  induction ps generalizing s with
  | nil =>
    simp only [List.foldl_nil, List.length_nil]
    omega
  | cons p rest ih =>
    rw [List.foldl_cons]
    by_cases hlt : s.agent.inbound.length < 4
    · have hs : offerRequest s p = { s with agent := { s.agent with inbound := s.agent.inbound ++ [p] } } := by
        unfold offerRequest Config.inboundDepth
        rw [if_pos hlt]
      have hk : (offerRequest s p).counter .reqOverflow = s.counter .reqOverflow := by rw [hs]; rfl
      have hi : (offerRequest s p).agent.inbound.length = s.agent.inbound.length + 1 := by rw [hs]; simp
      rw [ih _ (by omega), hk, hi, List.length_cons]
      omega
    · have hs : offerRequest s p = bump .reqOverflow 1 s := by
        unfold offerRequest Config.inboundDepth
        rw [if_neg hlt]
      have hk : (offerRequest s p).counter .reqOverflow = min (s.counter .reqOverflow + 1) 4294967295 := by
        rw [hs, counter_bump, if_pos rfl, saturate_eq]
      have hi : (offerRequest s p).agent.inbound.length = s.agent.inbound.length := by rw [hs]; rfl
      rw [ih _ (by omega), hk, hi, List.length_cons]
      omega

/-! ## What an LS finds (R53) -/

/-- The steps of the agent that may fall among an LS's reads are those of a row (R53, R145). -/
theorem readsMeet_stepped {s : State} {steps : Config.Extent → State → State} (h : readsMeet s = some steps)
    (upTo : Config.Extent) : SteppedAhead s (steps upTo s) := by
  unfold readsMeet at h
  split at h
  · cases h
  · rename_i p _
    split at h
    · rename_i hk
      cases h
      rcases hk with hk | hk
      · have e : requestSteps (requestOf p) = configWriteSteps := by
          have hk' : (requestOf p).kind = kindConfigWrite := hk
          unfold requestSteps
          rw [hk']
          rfl
        rw [e]
        exact ⟨.configWrite, upTo, .inr (.inr rfl), rfl⟩
      · have e : requestSteps (requestOf p)
            = if namesScope 1 (packetPayload p) then resetNodeSteps else resetTablesSteps := if_pos hk
        rw [e]
        split
        · exact ⟨.resetNode, upTo, .inr (.inl rfl), rfl⟩
        · exact ⟨.resetTables, upTo, .inl rfl, rfl⟩
    · cases h

/-- Everything that an LS can find: the tables and the settings as they stand; or, where a RESET or a CONFIG_WRITE is the
agent's next request, the state after steps with it, the directory and the budget each read before them or after, in that
order. -/
theorem lsFinds_cases (kind : LineKind) (index : Nat) (s : State) :
    ((lsFinds kind index s).2 = standingReads s
      ∧ ((lsFinds kind index s).1 = s ∨ (lsFinds kind index s).1 = { s with freeDraws := s.freeDraws + 1 }))
    ∨ ∃ v, SteppedAhead s v ∧ lsPlannable kind index s = true
        ∧ (lsFinds kind index s).1 = { v with freeDraws := s.freeDraws + 1 }
        ∧ ((lsFinds kind index s).2
            = { standingReads s with entries := v.glyphs.entries, budget := v.status.settings.lineBudget }
          ∨ (lsFinds kind index s).2 = { standingReads s with budget := v.status.settings.lineBudget }
          ∨ (lsFinds kind index s).2 = standingReads s) := by
  unfold lsFinds
  split
  · rename_i hp
    split
    · exact .inl ⟨rfl, .inl rfl⟩
    · rename_i steps hr
      have hs := readsMeet_stepped hr (Config.readExtent s.freeDraws)
      dsimp only
      split
      · exact .inl ⟨rfl, .inr rfl⟩
      · exact .inr ⟨_, hs, hp, rfl, .inl rfl⟩
      · exact .inr ⟨_, hs, hp, rfl, .inr (.inl rfl)⟩
      · exact .inr ⟨_, hs, hp, rfl, .inr (.inr rfl)⟩
  · exact .inl ⟨rfl, .inl rfl⟩

/-- The ACTIVE bank that a plan reads, and FORCE_PASS, are those that stand when its LS is taken (R22, R52, R53). -/
theorem lsFinds_first (kind : LineKind) (index : Nat) (s : State) :
    (lsFinds kind index s).2.bank = s.layers.activeBank ∧ (lsFinds kind index s).2.placed = s.glyphs.entries
    ∧ (lsFinds kind index s).2.pass = s.status.settings.forcePass := by
  rcases lsFinds_cases kind index s with ⟨h, -⟩ | ⟨v, -, -, -, h | h | h⟩ <;> rw [h] <;> exact ⟨rfl, rfl, rfl⟩

/-! ## The allotment (R59) -/

/-- The planned costs fit the budget. -/
theorem allot_total (budget total : Nat) (entries : List PlanEntry) (h : total ≤ budget) :
    total + ((allot budget total entries).1.map entryCost).sum ≤ budget := by
  induction entries generalizing total with
  | nil => simpa [allot] using h
  | cons e rest ih =>
    unfold allot
    split
    · rename_i hfit
      have := ih _ hfit
      simp
      omega
    · exact ih _ h

/-- Every entry is planned or skipped, and nothing else is. -/
theorem allot_length (budget total : Nat) (entries : List PlanEntry) :
    (allot budget total entries).1.length + (allot budget total entries).2.length = entries.length := by
  induction entries generalizing total with
  | nil => rfl
  | cons e rest ih =>
    unfold allot
    split
    · have := ih (total + entryCost e)
      simp
      omega
    · have := ih total
      simp
      omega

/-- The planned entries stand in the order opposite to the one they are taken in. -/
theorem allot_sublist (budget total : Nat) (entries : List PlanEntry) :
    List.Sublist (allot budget total entries).1.reverse entries := by
  induction entries generalizing total with
  | nil => exact List.Sublist.refl _
  | cons e rest ih =>
    unfold allot
    split
    · simp
      exact ih _
    · exact (ih _).cons _

/-- The bytes that a plan entry reads are as many as its cost. -/
theorem lineAddresses_length (entries : List PlanEntry) : (lineAddresses entries).length = (entries.map entryCost).sum := by
  induction entries with
  | nil => rfl
  | cons e rest ih =>
    have : lineAddresses (e :: rest) = (e.glyph.map glyphAddresses).getD [] ++ lineAddresses rest := rfl
    rw [this, List.length_append, ih, List.map_cons, List.sum_cons]
    congr 1
    unfold entryCost
    cases e.glyph <;> simp [glyphAddresses]

/-! ## The output sequence (R112, R115) -/

theorem map_completeItem_of_none (p : Payload) (items : List OutItem) (h : items.any isIncomplete = false) :
    items.map (completeItem p) = items := by
  induction items with
  | nil => rfl
  | cons it rest ih =>
    rw [List.any_cons, Bool.or_eq_false_iff] at h
    rw [List.map_cons, ih h.2]
    congr 1
    cases it with
    | line l =>
      have : l.payload ≠ .incomplete := by simpa [isIncomplete] using h.1
      simp [completeItem, this]
    | fs f w h => rfl
    | fe a b x => rfl
    | abortedFe => rfl

theorem extendLast_append (b : Byte) (pre : List OutItem) (l : OutLine) :
    extendLast b (pre ++ [.line l]) = pre ++ [.line { l with tail := l.tail ++ [b] }] := by
  induction pre with
  | nil => rfl
  | cons it rest ih =>
    have : rest ++ [OutItem.line l] ≠ [] := by simp
    cases hr : rest ++ [OutItem.line l] with
    | nil => exact absurd hr this
    | cons x xs =>
      rw [List.cons_append, hr]
      have : extendLast b (it :: x :: xs) = it :: extendLast b (x :: xs) := by
        cases it <;> rfl
      rw [this, ← hr, ih]
      rfl

theorem firstEndAborted_eq (items : List OutItem) :
    firstEndAborted items = decide (items.find? isFrameEnd = some .abortedFe) := by
  induction items with
  | nil => rfl
  | cons it rest ih => cases it <;> simp [firstEndAborted, isFrameEnd, List.find?_cons, ih]

end Sys2Proof.Machine
end

