-- ==== Sys2Proof/WellFormed.lean ====
section
/-! DEFINITION. Which commands the lanes can carry. The types of the operands hold every other range of R93. -/

namespace Sys2Proof

/-- The line index of an LS is 0 to 2047 as carried (R93); every other operand's range is that of its type. -/
def Instr.wellFormed : Instr → Bool
  | .ls _ index => decide (index ≤ 2047)
  | .pinReset | .fs _ _ _ | .dataByte _ | .fe _ _ _ | .idl | .signalLoss | .watchdogExpiry | .leaseExpiry _ _
  | .assign | .identify | .configWrite | .statusRead | .resetTables | .resetNode | .claim | .release
  | .layerWrite | .layerRead | .commit | .glyphDefine | .glyphLoad | .glyphLoadComplete | .glyphDelete
  | .glyphQuery | .unknownKind | .noticeBuild | .fsSent | .lineSent | .feSent | .idlSent | .returnPacketEnd
  | .returnSignalLoss | .laneFree | .returnPacketStart | .returnPacketByte _ => true

end Sys2Proof
end

