-- ==== Sys2Proof/Tests/Slice0.lean ====
section
/-! SUPPORT. Checks of the model: the worked examples of spec/, one or two steps per command on small states, and for every
obligation with hypotheses a state and operands that meet them together (theorems named test_hyp_<obligation>). -/

namespace Sys2Proof.Machine

-- One theorem at a time, so that few threads stand at once.
set_option Elab.async false

/-! ## Small states -/

/-- A packet as it travels on the forward lane (R138). -/
def testPacket (dest src seq : Byte) (kind : Byte) (payload : List Byte) : Packet :=
  let body := [dest, src, seq, kind, BitVec.ofNat 8 payload.length] ++ payload
  [0xC3, 0x5A] ++ body ++ beBytes 2 (crc16 body).toNat

/-- A request of source 3, sequence 1, to a node at address 0. -/
def asked (kind : Byte) (payload : List Byte) : Packet := testPacket 0 3 1 kind payload

/-- The same as a broadcast. -/
def cast (kind : Byte) (payload : List Byte) : Packet := testPacket 63 3 1 kind payload

/-- A state with one packet in the inbound request queue. -/
def holding (p : Packet) (s : State) : State := { s with agent := { s.agent with inbound := [p] } }

/-- A state after reset with one request waiting. -/
def waiting (kind : Byte) (payload : List Byte) : State := holding (asked kind payload) State.reset

/-- Layer 0 owned by source 3, layer 1 by source 5, with leases of 10. -/
def owning (s : State) : State := (s.setOwnership 0 ⟨some 3, 10, 7⟩).setOwnership 1 ⟨some 5, 10, 1⟩

/-- Source 3's context ACTIVE with sequence 9 remembered and its reply cached. -/
def known (s : State) : State :=
  s.modifyContext 3 (fun c => { c with state := .active, lastSeq := some 9, cached := some (sealPacket 0 3 9 0x80 [2, 0]) })

/-- A state in the given lock state inside a 16 by 16 frame of number 5, in range. -/
def inFrame (lock : LockState) : State :=
  { State.reset with
    rx := { Receiver.reset with
      lock := lock, geometry := some ⟨5, 16, 16⟩, lastFrame := some 5, faulted := decide (lock = .raw),
      watchdog := some 50 }
    comp := { Compositor.reset with geometry := some ⟨5, 16, 16⟩ }
    tx := { Transmitter.reset with sequence := [.fs 5 16 16] } }

/-- The same with an open line of `n` bytes received. -/
def inLine (lock : LockState) (kind : LineKind) (bytes : List Byte) (s : State := inFrame lock) : State :=
  { s with
    rx := { s.rx with openLine := some ⟨kind, 0, bytes.length⟩ }
    comp := { s.comp with arriving := if kind = .active then some ⟨0, bytes, []⟩ else none }
    sorter := { s.sorter with line := if kind = .blank then some (newLineRecord 48) else none }
    tx := { s.tx with sequence := s.tx.sequence ++ [.line ⟨kind, 0, .incomplete, []⟩] } }

/-- Entry 0 defined by source 3: a glyph of 8 by 2 pixels, MONO, in block 0, in the given state. -/
def testGlyph (st : LoadState) : Glyph :=
  { newGlyph 3 .mono 8 2 0 with state := st, loaded := if st = .ready then 2 else 0 }

/-- A state with that entry. -/
def withGlyph (st : LoadState) (s : State) : State := takeEntry 0 (testGlyph st) s

/-- The load of both bytes of that glyph, from source 3. -/
def testRun : LoadRun := ⟨3, 1, 0, 0, [0xA5, 0x5A], 0, 0⟩

/-- The payload of the packet being sent upstream after a command. -/
def replied (o : Host.Outcome State Fault Refusal) : Option (List Byte) :=
  match o with
  | .next t => t.relay.sending.map (fun x => packetPayload (sentPacket x))
  | .fault _ => none
  | .refused _ => none

/-- A view of the state after a command. -/
def after {α : Type} (o : Host.Outcome State Fault Refusal) (view : State → α) : Option α :=
  match o with
  | .next t => some (view t)
  | .fault _ => none
  | .refused _ => none

/-! ## Well-formedness -/

theorem test_wellFormed_ls : Instr.wellFormed (.ls .active 2047) = true ∧ Instr.wellFormed (.ls .blank 2048) = false := by
  decide

theorem test_decode_none : decodeTableWord 8 0 = none ∧ (State.reset.withFetchWord 8 0) = State.reset := ⟨rfl, rfl⟩

/-! ## The worked examples of spec/ -/

/-- The check value of R128's polynomial and initial value over the bytes of "123456789". -/
theorem test_crc16 : crc16 [0x31, 0x32, 0x33, 0x34, 0x35, 0x36, 0x37, 0x38, 0x39] = 0x29B1 := by decide +kernel

/-- Pixel 300 of 03_compositing.md's second worked example. -/
theorem test_blend_example : blend 192 ⟨0, 0, 64⟩ ⟨40, 40, 40⟩ = ⟨10, 10, 58⟩
    ∧ expand565 0x7BEF = ⟨123, 125, 123⟩ ∧ blend 128 ⟨123, 125, 123⟩ ⟨10, 10, 58⟩ = ⟨67, 68, 91⟩ := by decide +kernel

/-- Columns and cost of layers 7 and 14 of 03_compositing.md's first worked example. -/
theorem test_plan_example :
    coverage { LayerRecord.default with kind := .glyph, x := 160, y := 90, scaleV := 2 }
      (some (newGlyph 0 .mono 480 60 200)) 800 480 100 = some (160, 639)
    ∧ coverage { LayerRecord.default with kind := .glyph, x := -40, y := 96, scaleH := 2, clip := some ⟨0, 0, 799, 479⟩ }
      (some (newGlyph 0 .rgb16 256 64 40)) 800 480 100 = some (0, 471)
    ∧ glyphCost ⟨.mono, 60, 200, 5, 0, 479, 1, none⟩ = 60 ∧ glyphCost ⟨.rgb16, 512, 40, 4, 20, 255, 2, none⟩ = 472
    ∧ (glyphAddresses ⟨.rgb16, 512, 40, 4, 20, 255, 2, none⟩).head? = some 12328 := by decide +kernel

/-- First fit over a map with a gap, as in 02_glyph_directory_and_glyph_store.md's worked example. -/
theorem test_firstFit : firstFit 2 0 [some 0, none, some 1, none, none, none] = some 3
    ∧ firstFit 4 0 [some 0, none, some 1, none, none, none] = none
    ∧ longestRun 0 0 [some 0, none, some 1, none, none, none] = 3 := by decide

/-- The third and fourth findings of 07_control_packets_and_node_addressing.md's worked example: a bit of byte 3 outside the
source id makes the header invalid; a CLAIM to the broadcast address is forwarded as malformed. -/
theorem test_sorting_example :
    packetHeaderValid (testPacket 5 0x41 0 kindIdentify []) = false
    ∧ decided 2 (testPacket 63 1 0 kindClaim [0, 1, 0, 9]) = (.forward, true)
    ∧ decided 2 (testPacket 2 3 0 kindIdentify []) = (.consume, false)
    ∧ decided 2 (testPacket 63 3 0 kindCommit [0, 1, 0, 9]) = (.both, false) := by decide +kernel

/-! ## Pin reset and the queue of commands -/

theorem test_hyp_StepRunsFrontCommand :
    ({ State.reset with pending := [.idl] } : State).pending = .idl :: [] ∧ State.reset.pending = [] := ⟨rfl, rfl⟩

theorem test_step : step { State.reset with pending := [.idl, .pinReset] }
    = .next { State.reset with pending := [.pinReset] } :=
  rfl

theorem test_pinReset : after (exec .pinReset (withGlyph .ready (owning State.reset)))
    (fun t => (t.entry 0, t.ownership 0, t.glyphs.epoch)) = some (none, ⟨none, 0, 0⟩, 1) := by decide +kernel

/-! ## Invariants of the small states -/

theorem reset_directorySound (s : State) (hg : s.glyphs = GlyphStore.reset) (hb : s.agent.busy = none) :
    DirectorySound s := by
  have he : ∀ e, s.entry e = none := by intro e; simp [State.entry, hg, GlyphStore.reset]
  have hm : ∀ k : Fin 512, s.glyphs.blockMap[k] = none := by intro k; simp [hg, GlyphStore.reset]
  refine ⟨?_, ?_, ?_⟩
  · intro e g h
    rw [he e] at h
    cases h
  · intro k e
    rw [hm k]
    constructor
    · intro h
      cases h
    · rintro ⟨g, h, -⟩
      rw [he e] at h
      cases h
  · intro run h
    rw [hb] at h
    cases h

theorem default_recordInRange : RecordInRange LayerRecord.default := by
  simp [RecordInRange, LayerRecord.default]

theorem reset_recordsInRange (s : State) (h : s.layers = LayerTable.reset) : RecordsInRange s := by
  intro l
  simp [State.pendingRecord, State.activeRecord, h, LayerTable.reset, default_recordInRange]

theorem inFrame_receiverSound (lock : LockState) (h : lock = .frame ∨ lock = .raw) : ReceiverSound (inFrame lock) := by
  rcases h with rfl | rfl <;> simp [ReceiverSound, inFrame, Receiver.reset]

theorem inFrame_inFrame (lock : LockState) (h : lock = .frame ∨ lock = .raw) : InFrame (inFrame lock) := h

theorem inGap_receiverSound : ReceiverSound (inFrame .gap) := by simp [ReceiverSound, inFrame, Receiver.reset]

theorem reset_receiverSound (s : State) (h1 : s.rx = Receiver.reset) (h2 : s.comp = Compositor.reset) : ReceiverSound s := by
  simp [ReceiverSound, h1, h2, Receiver.reset, Compositor.reset]

/-- The directory with entry 0 alone is sound, and so is the load of its bytes. -/
theorem withGlyph_directorySound (st : LoadState) (run : Option Execution) (h : run = none ∨ run = some (.load testRun)) :
    DirectorySound { withGlyph st State.reset with agent := { Agent.reset with busy := run } } := by
  have he : ∀ e : GlyphId, (withGlyph st State.reset).entry e = if e = 0 then some (testGlyph st) else none := by
    intro e
    change (modifyVec GlyphStore.reset.entries 0 (fun _ => some (testGlyph st)))[e.val] = _
    rw [modifyVec_get]
    simp [GlyphStore.reset]
  have hm : ∀ k : Fin 512, (withGlyph st State.reset).glyphs.blockMap[k.val] = if k = 0 then some 0 else none := by
    have : (withGlyph st State.reset).glyphs.blockMap = markRun (some 0) 0 1 GlyphStore.reset.blockMap := by
      cases st <;> rfl
    intro k
    rw [this, markRun_get]
    by_cases hk : k = 0
    · simp [hk]
    · have : ¬(0 ≤ k.val ∧ k.val < 0 + 1) := fun h => hk (Fin.ext (by simpa using h.2))
      rw [if_neg this, if_neg hk]
      simp [GlyphStore.reset]
  refine ⟨?_, ?_, ?_⟩
  · intro e g hg
    have hg' : (withGlyph st State.reset).entry e = some g := hg
    rw [he e] at hg'
    split at hg'
    · cases hg'
      cases st <;> simp [GlyphSound, testGlyph, newGlyph, strideOf, sizeOfGlyph, blocksOf, bitsPerPixel]
    · cases hg'
  · intro k e
    change (withGlyph st State.reset).glyphs.blockMap[k.val] = some e
      ↔ ∃ g, (withGlyph st State.reset).entry e = some g ∧ g.firstBlock ≤ k.val ∧ k.val < g.firstBlock + g.blockCount
    rw [hm k, he e]
    by_cases h0 : e = 0
    · subst h0
      have : (testGlyph st).firstBlock = 0 ∧ (testGlyph st).blockCount = 1 := by cases st <;> decide
      by_cases hk : k = 0
      · simp [hk, this]
      · have : k.val ≠ 0 := fun h => hk (Fin.ext h)
        simp [*]
    · by_cases hk : k = 0 <;> simp [h0, hk, eq_comm]
  · intro r hr
    change run = some (.load r) at hr
    rcases h with h | h
    · rw [h] at hr
      cases hr
    · rw [h] at hr
      cases hr
      refine ⟨testGlyph st, ?_, ?_⟩
      · change (withGlyph st State.reset).entry 0 = _
        rw [he 0]
        rfl
      · exact ⟨by cases st <;> rfl, by cases st <;> rfl, by cases st <;> decide, by cases st <;> decide, Nat.zero_le _,
          fun i hi => absurd hi (Nat.not_lt_zero i)⟩

/-! ## The receiver -/

/-- Widths and heights at the ends of the accepted range, in HUNT and in GAP. -/
theorem test_hyp_FsInRangeOpensFrame : 16 ≤ (16#16).toNat ∧ (16#16).toNat ≤ 2048 ∧ 16 ≤ (2048#16).toNat
    ∧ (2048#16).toNat ≤ 2048 ∧ (State.reset.rx.lock = .hunt ∨ State.reset.rx.lock = .gap)
    ∧ ((inFrame .gap).rx.lock = .hunt ∨ (inFrame .gap).rx.lock = .gap) := by decide

theorem reset_referencesCounted (s : State) (hg : s.glyphs = GlyphStore.reset) (hl : s.layers = LayerTable.reset) :
    ReferencesCounted s := by
  intro e
  have he : s.entry e = none := by simp [State.entry, hg, GlyphStore.reset]
  have hp : ∀ l, s.pendingRecord l = LayerRecord.default := by intro l; simp [State.pendingRecord, hl, LayerTable.reset]
  have ha : ∀ l, s.activeRecord l = LayerRecord.default := by intro l; simp [State.activeRecord, hl, LayerTable.reset]
  rw [he]
  simp [recordCount, hp, ha, contribution, LayerRecord.default]

theorem test_hyp_FrameStartCountsThenCopies :
    16 ≤ (16#16).toNat ∧ (2048#16).toNat ≤ 2048 ∧ ReferencesCounted (fsMeets 9 16 16 (inFrame .gap)) :=
  ⟨by decide, by decide, reset_referencesCounted _ rfl rfl⟩

/-- Two armed commits. -/
def twoCommits : State :=
  { owning State.reset with layers := { (owning State.reset).layers with commits := [⟨3, 7, 1⟩, ⟨5, 8, 2⟩] } }

theorem test_hyp_FrameStartMarksItems :
    16 ≤ (16#16).toNat ∧ (2048#16).toNat ≤ 2048 ∧ CommitsSound (fsMeets 9 16 16 twoCommits)
    ∧ ((fsMeets 9 16 16 twoCommits).context 3).state = .unknown
    ∧ ((fsMeets 9 16 16 (known twoCommits)).context 3).state = .active := by
  unfold CommitsSound
  decide +kernel

/-- A CLAIM of layer 2 with a lease of 1 has been executed for source 3, whose context is UNKNOWN; its reply is due. -/
def claimActed : State :=
  hold (requestOf (asked kindClaim [0, 4, 0, 1])) (.executed ⟨.ok, [0, 4, 0, 4, 0, 0, 0, 1]⟩)
    (State.reset.setOwnership 2 ⟨some 3, 1, 1⟩)

/-- An owner known, and an owner whose first request is in execution. -/
theorem test_hyp_FrameStartMarksItems_known : SourcesKnown ((known State.reset).setOwnership 0 ⟨some 3, 10, 7⟩)
    ∧ SourcesKnown claimActed := by
  have h : ∀ src : SourceId, src ≠ 3 →
      (∀ l, (((known State.reset).setOwnership 0 ⟨some 3, 10, 7⟩).ownership l).owner ≠ some src)
      ∧ ∀ l, (claimActed.ownership l).owner ≠ some src := by decide +kernel
  constructor
  · rintro src (⟨l, hl⟩ | ⟨c, hc, -⟩)
    · by_cases hs : src = 3
      · subst hs
        exact .inl (by decide +kernel)
      · exact absurd hl ((h src hs).1 l)
    · cases hc
  · rintro src (⟨l, hl⟩ | ⟨c, hc, -⟩)
    · by_cases hs : src = 3
      · subst hs
        exact .inr ⟨_, _, rfl, by decide +kernel⟩
      · exact absurd hl ((h src hs).2 l)
    · cases hc

/-- The FRAME_START falls after the CLAIM: the reply is placed, the context is ACTIVE, and the expiry is noted in it; so with the
expiry of that layer alone (R87, R145). -/
theorem test_claim_then_expiry : ∀ c ∈ [Instr.fs 9 16 16, .leaseExpiry 2 9],
    after (exec c claimActed) (fun t => (t.ownership 2, (t.context 3).leaseItem)) = some (⟨none, 0, 0⟩, some ⟨4, 9⟩)
    ∧ after (exec c claimActed) (fun t => ((t.context 3).state, t.agent.busy, (ownTraffic t).map (·.cls)))
      = some (.active, none, [.reply]) := by decide +kernel

theorem test_hyp_NestedStartClosesOldFrame : 16 ≤ (16#16).toNat ∧ (2048#16).toNat ≤ 2048
    ∧ (InFrame (inFrame .frame) ∧ ReceiverSound (inFrame .frame)) ∧ (InFrame (inFrame .raw) ∧ ReceiverSound (inFrame .raw)) :=
  ⟨by decide, by decide, ⟨.inl rfl, inFrame_receiverSound _ (.inl rfl)⟩, ⟨.inr rfl, inFrame_receiverSound _ (.inr rfl)⟩⟩

theorem test_hyp_FsOutOfRangePassesInRaw :
    ¬(16 ≤ (15#16).toNat ∧ (15#16).toNat ≤ 2048 ∧ 16 ≤ (16#16).toNat ∧ (16#16).toNat ≤ 2048)
    ∧ ¬(16 ≤ (16#16).toNat ∧ (16#16).toNat ≤ 2048 ∧ 16 ≤ (2049#16).toNat ∧ (2049#16).toNat ≤ 2048)
    ∧ (ReceiverSound State.reset ∧ State.reset.rx.lock = .hunt)
    ∧ (ReceiverSound (inFrame .gap) ∧ (inFrame .gap).rx.lock ≠ .hunt)
    ∧ (ReceiverSound (inFrame .frame) ∧ InFrame (inFrame .frame)) :=
  ⟨by decide, by decide, ⟨reset_receiverSound _ rfl rfl, rfl⟩, ⟨inGap_receiverSound, by decide⟩,
    ⟨inFrame_receiverSound _ (.inl rfl), .inl rfl⟩⟩

theorem test_hyp_ItemsOutsideFrameDiscarded : State.reset.rx.lock = .hunt ∧ (inFrame .gap).rx.lock = .gap := ⟨rfl, rfl⟩

theorem test_fs : after (exec (.fs 9 16 16) State.reset) (fun t => (t.rx.lock, t.rx.watchdog, t.tx.sequence))
      = some (.frame, some 50, [.fs 9 16 16])
    ∧ after (exec (.fs 9 15 16) (inFrame .frame)) (fun t => (t.rx.lock, t.counter .framesFaulted, t.tx.sequence))
      = some (.raw, 2, [.fs 5 16 16, .abortedFe, .fs 9 15 16]) := by decide +kernel

/-- Layer 1's lease runs out before the copies of the same FRAME_START; layer 0's commit is applied. -/
theorem test_fs_frameStart : after (exec (.fs 9 16 16) (known twoCommits))
      (fun t => (t.ownership 0, t.ownership 1, (t.context 3).commitItem, t.layers.firstExpiry))
    = some (⟨some 3, 10, 6⟩, ⟨none, 0, 0⟩, some ⟨7, 9, 1, 0⟩, some ⟨5, 1, 9⟩) := by decide +kernel

/-- A commit turns layer 0 from entry 1 to entry 0: the PENDING record names entry 0, the ACTIVE one entry 1. -/
def turning : State :=
  let named := fun (e : GlyphId) => { LayerRecord.default with kind := .glyph, glyph := e }
  let s := { owning State.reset with layers := { (owning State.reset).layers with
    commits := [⟨3, 7, 1⟩]
    pendingBank := modifyVec LayerTable.reset.pendingBank 0 (fun _ => named 0)
    activeBank := modifyVec LayerTable.reset.activeBank 0 (fun _ => named 1) } }
  takeEntry 1 { newGlyph 3 .mono 8 2 1 with refs := 1 } (takeEntry 0 { newGlyph 3 .mono 8 2 0 with refs := 1 } s)

/-- The copy moves a reference count from entry 1 to entry 0. -/
theorem test_fs_refs : after (exec (.fs 9 16 16) turning)
      (fun t => ((t.entry 0).map (·.refs), (t.entry 1).map (·.refs), (t.activeRecord 0).glyph)) = some (some 2, some 0, 0)
    ∧ (refsGained turning 0, refsLost turning 0, refsGained turning 1, refsLost turning 1) = (1, 0, 0, 1) := by
  decide +kernel

theorem test_hyp_LsOpensLine :
    (InFrame (inFrame .frame) ∧ ReceiverSound (inFrame .frame) ∧ DirectorySound (inFrame .frame)
      ∧ RecordsInRange (inFrame .frame))
    ∧ (InFrame (inFrame .raw) ∧ ReceiverSound (inFrame .raw) ∧ DirectorySound (inFrame .raw)
      ∧ RecordsInRange (inFrame .raw)) :=
  ⟨⟨.inl rfl, inFrame_receiverSound _ (.inl rfl), reset_directorySound _ rfl rfl, reset_recordsInRange _ rfl⟩,
    ⟨.inr rfl, inFrame_receiverSound _ (.inr rfl), reset_directorySound _ rfl rfl, reset_recordsInRange _ rfl⟩⟩

theorem test_ls : after (exec (.ls .active 0) (inFrame .frame)) (fun t => (t.rx.lock, t.rx.expectedActive, t.comp.arriving))
      = some (.frame, 1, some ⟨0, [], []⟩)
    ∧ after (exec (.ls .blank 1) (inFrame .frame)) (fun t => (t.rx.lock, t.rx.lastFault, t.sorter.line))
      = some (.raw, some .lineIndex, some (newLineRecord 48)) := by decide +kernel

/-- The line of the tests, with bytes received up to the last but one, to the last, and past it. -/
theorem test_hyp_DataByteCountedAndJudged :
    (InFrame (inFrame .frame) ∧ ReceiverSound (inFrame .frame) ∧ (inFrame .frame).rx.openLine = none)
    ∧ (InFrame (inFrame .raw) ∧ ReceiverSound (inFrame .raw) ∧ (inFrame .raw).rx.openLine = none)
    ∧ ∀ n, n = 47 ∨ n = 48 →
      InFrame (inLine .frame .active (List.replicate n 0)) ∧ ReceiverSound (inLine .frame .active (List.replicate n 0))
      ∧ (inLine .frame .active (List.replicate n 0)).rx.openLine = some ⟨.active, 0, n⟩ := by
  refine ⟨⟨.inl rfl, inFrame_receiverSound _ (.inl rfl), rfl⟩, ⟨.inr rfl, inFrame_receiverSound _ (.inr rfl), rfl⟩, ?_⟩
  rintro n (rfl | rfl) <;> exact ⟨.inl rfl, by simp [ReceiverSound, inLine, inFrame, Receiver.reset], rfl⟩

theorem test_hyp_FeJudgedByFlagAndCounts :
    (ReceiverSound (inFrame .frame) ∧ InFrame (inFrame .frame))
    ∧ (ReceiverSound (inLine .frame .active [0]) ∧ InFrame (inLine .frame .active [0])
      ∧ openShort (inLine .frame .active [0]) = true)
    ∧ ReceiverSound (inFrame .gap) ∧ (inFrame .gap).rx.lock = .gap :=
  ⟨⟨inFrame_receiverSound _ (.inl rfl), .inl rfl⟩,
    ⟨by simp [ReceiverSound, inLine, inFrame, Receiver.reset], .inl rfl, rfl⟩, inGap_receiverSound, rfl⟩

theorem test_fe : after (exec (.fe 0 0 false) (inFrame .frame)) (fun t => (t.rx.lock, t.rx.lastFault))
      = some (.gap, some .frameLength)
    ∧ after (exec (.fe 0 0 false) (inFrame .gap)) (fun t => (t.rx.lastFault, t.counter .framesFaulted))
      = some (some .unexpectedEnd, 1) := by decide +kernel

theorem test_idl : exec .idl State.reset = .next State.reset := rfl

theorem test_hyp_LockLossDropsToHunt :
    State.reset.rx.lock = .hunt ∧ ((inFrame .gap).rx.lock ≠ .hunt ∧ (inFrame .gap).rx.watchdog.isSome)
    ∧ ((inFrame .frame).rx.lock ≠ .hunt ∧ (inFrame .frame).rx.watchdog.isSome) := by decide

/-- Source 3 is the listener, with an ACTIVE context. -/
def listening (s : State) : State :=
  { known s with status := { s.status with settings := { s.status.settings with listener := some 3 } } }

theorem test_hyp_LockItemTellsLossAndRelock :
    (∀ s ∈ [listening (inFrame .frame), listening State.reset],
      s.status.settings.listener = some 3 ∧ (s.context 3).state = .active)
    ∧ (listening (inFrame .frame)).rx.lock ≠ .hunt ∧ (listening (inFrame .frame)).rx.watchdog.isSome
    ∧ (listening State.reset).rx.lock = .hunt ∧ 16 ≤ (16#16).toNat ∧ (2048#16).toNat ≤ 2048
    ∧ State.reset.status.settings.listener = none := by decide +kernel

theorem test_signalLoss : after (exec .signalLoss (listening (inLine .frame .blank [1])))
      (fun t => (t.rx.lock, t.sorter.line, t.tx.sequence, (t.context 3).lockItem))
    = some (.hunt, none, [.fs 5 16 16, .abortedFe], some ⟨false, 1, some .signal, none⟩) := by decide +kernel

theorem test_watchdogExpiry : after (exec .watchdogExpiry (inFrame .gap)) (fun t => (t.rx.lock, t.counter .lockLosses))
      = some (.hunt, 1)
    ∧ after (exec .watchdogExpiry State.reset) (fun t => t.rx) = some Receiver.reset := by decide +kernel

theorem test_hyp_LeaseExpiryFreesLayer : ((completeRequest (owning State.reset)).ownership 1).owner = some 5
    ∧ ((completeRequest (owning State.reset)).ownership 1).remaining = 1
    ∧ ((completeRequest (owning State.reset)).ownership 2).owner = none
    ∧ ((completeRequest (owning State.reset)).ownership 0).remaining ≠ 1 := by decide +kernel

theorem test_leaseExpiry : after (exec (.leaseExpiry 1 9) (owning State.reset)) (fun t => (t.ownership 1, t.layers.firstExpiry))
    = some (⟨none, 0, 0⟩, some ⟨5, 1, 9⟩) := by decide +kernel

/-! ## The compositor -/

theorem test_hyp_CoverageIsTheVisibleRectangle : (0 : Nat) < 16 ∧ (15 : Nat) < 16 := by decide

/-- Layer 2 shows over the whole of the small frame. -/
def showing (s : State) : State :=
  { s with layers := { LayerTable.reset with
      activeBank := modifyVec LayerTable.reset.activeBank 2 (fun _ =>
        { LayerRecord.default with
          visible := true, width := 16, height := 16, colour := ⟨0, 0, 64⟩, opacity := 192 }) } }

theorem showing_recordsInRange : RecordsInRange (showing (inFrame .frame)) := by
  intro l
  constructor
  · simp [State.pendingRecord, showing, LayerTable.reset, default_recordInRange]
  · change RecordInRange (modifyVec LayerTable.reset.activeBank 2 _)[l.val]
    rw [modifyVec_get]
    split
    · simp [RecordInRange, LayerRecord.default]
    · simp [LayerTable.reset, default_recordInRange]

/-- Layer 2 shows entry 0, of 8 by 2 pixels, which the snapshot finds FREE after it has read the record. -/
def freeNamed : Snapshot :=
  ⟨modifyVec LayerTable.reset.activeBank 2 (fun _ => { LayerRecord.default with visible := true, kind := .glyph }),
    Vector.replicate 256 none, modifyVec GlyphStore.reset.entries 0 (fun _ => some (testGlyph .ready)), 2048, false⟩

/-- A layer whose entry is found FREE is dropped and counted on the lines that it covered (R57, R58), and on no other. -/
theorem test_ls_free : [0, 1, 2, 15].map (notReadyCount freeNamed ⟨5, 16, 16⟩) = [1, 1, 0, 0]
    ∧ lineAllotment freeNamed ⟨5, 16, 16⟩ 1 = ([], []) := by decide +kernel

/-- Layer 2 shows, and a RESET of the given scope waits in FRAME, where the next LS begins a line to plan. -/
def resetWaits (scope : Byte) : State := holding (asked kindReset [scope]) (showing (inFrame .frame))

/-- The agent's steps with a RESET or a CONFIG_WRITE, waiting or taken, may fall among the reads of that LS; of no other. -/
theorem test_lsFinds_meets :
    (∀ scope ∈ [(0 : Byte), 1], lsPlannable .active 0 (resetWaits scope) = true
      ∧ (readsMeet (resetWaits scope)).isSome = true
      ∧ (readsMeet (heldBy (asked kindReset [scope]) .execute [] (resetWaits scope))).isSome = true)
    ∧ (readsMeet (waiting kindConfigWrite [1, 16, 0])).isSome = true ∧ (readsMeet (waiting kindClaim [])).isNone = true
    ∧ (readsMeet State.reset).isNone = true := by decide +kernel

/-- A RESET's own action among the reads leaves the directory FREE, and the request with its reply to come. -/
theorem test_lsFinds_reset : (resetNodeSteps .acted (resetWaits 1)).layers = LayerTable.reset
    ∧ (resetNodeSteps .acted (resetWaits 1)).glyphs = GlyphStore.reset
    ∧ (resetNodeSteps .acted (resetWaits 1)).agent.busy
      = some (.acted (requestOf (asked kindReset [1])) (.executed ⟨.ok, [1]⟩)) := by
  refine ⟨rfl, rfl, ?_⟩
  decide +kernel

theorem test_steppedAhead : SteppedAhead (resetWaits 1) (resetNodeSteps .acted (resetWaits 1)) :=
  ⟨.resetNode, .acted, .inr (.inl rfl), rfl⟩

/-- With no RESET waiting an LS finds the tables as they stand: after a RESET of either scope, no layer (R76, R77). -/
theorem test_lsFinds_afterReset :
    [exec .resetTables (resetWaits 0), exec .resetNode (resetWaits 1), .next (showing (inFrame .frame))].map
      (fun o => after o (fun t => (candidates (lsFinds .active 0 t).2 ⟨5, 16, 16⟩ 0).map (·.layer)))
    = [some [], some [], some [2]] := by decide +kernel

theorem test_hyp_LsTakesPlanWithinBudget :
    lsGood (showing (inFrame .frame)) .active 0 = true
    ∧ (showing (inFrame .frame)).status.settings.forcePass = false
    ∧ (showing (inFrame .frame)).comp.geometry = some ⟨5, 16, 16⟩ ∧ ReceiverSound (showing (inFrame .frame))
    ∧ DirectorySound (showing (inFrame .frame)) ∧ RecordsInRange (showing (inFrame .frame))
    ∧ (InFrame (inFrame .raw) ∧ ReceiverSound (inFrame .raw) ∧ lsGood (inFrame .raw) .active 0 = false)
    ∧ ∃ s, InFrame s ∧ ReceiverSound s ∧ lsGood s .active 0 = true
      ∧ s.status.settings.forcePass = true :=
  ⟨rfl, rfl, rfl, inFrame_receiverSound .frame (.inl rfl), reset_directorySound _ rfl rfl, showing_recordsInRange,
    ⟨.inr rfl, inFrame_receiverSound _ (.inr rfl), rfl⟩,
    { inFrame .frame with status := { NodeStatus.reset with settings := { Settings.default with forcePass := true } } },
    .inl rfl, inFrame_receiverSound .frame (.inl rfl), rfl, by decide +kernel⟩

theorem reset_statusInRange (s : State) (h : s.status = NodeStatus.reset) (ha : s.sorter.address = 0) : StatusInRange s := by
  refine ⟨?_, ?_⟩
  · intro c
    simp [State.counter, h, NodeStatus.reset]
  · simp [h, ha, NodeStatus.reset, Settings.default]

theorem test_hyp_LsCountsLayersLeftOut :
    lsGood (showing (inFrame .frame)) .active 0 = true
    ∧ (showing (inFrame .frame)).status.settings.forcePass = false
    ∧ (showing (inFrame .frame)).comp.geometry = some ⟨5, 16, 16⟩ ∧ ReceiverSound (showing (inFrame .frame))
    ∧ DirectorySound (showing (inFrame .frame)) ∧ RecordsInRange (showing (inFrame .frame))
    ∧ StatusInRange (showing (inFrame .frame))
    ∧ (listening (showing (inFrame .frame))).status.settings.listener = some 3
    ∧ ((listening (showing (inFrame .frame))).context 3).state = .active
    ∧ (showing (inFrame .frame)).status.settings.listener = none := by
  refine ⟨rfl, rfl, rfl, inFrame_receiverSound .frame (.inl rfl), reset_directorySound _ rfl rfl, showing_recordsInRange,
    reset_statusInRange _ rfl rfl, rfl, ?_, rfl⟩
  decide +kernel

/-- The plan entry of that layer. -/
def fillEntry : PlanEntry := ⟨2, 0, 15, 0, ⟨0, 0, 64⟩, 192, none⟩

theorem test_ls_plan : after (exec (.ls .active 0) (showing (inFrame .frame))) (fun t => t.comp.plan)
    = some (some ⟨0, [fillEntry], []⟩) := by decide +kernel

theorem test_hyp_BlendFollowsItsFormula : (0 : Nat) ≤ 255 ∧ (255 : Nat) ≤ 255 ∧ coversColumn 15 fillEntry = true := by decide

/-- A planned MONO, GRAY4 and RGB16 glyph at the left edge of its columns. -/
theorem test_hyp_PixelSampledFromRecordAndGlyph :
    (fillEntry.glyph = none ∧ fillEntry.left ≤ 0 ∧ 0 ≤ fillEntry.right)
    ∧ ∀ f ∈ [Format.mono, .gray4, .rgb16],
        ({ fillEntry with glyph := some ⟨f, 2, 0, 0, 0, 7, 1, none⟩ } : PlanEntry).glyph = some ⟨f, 2, 0, 0, 0, 7, 1, none⟩
        ∧ fillEntry.x ≤ ((0 : Nat) : Int) ∧ (⟨f, 2, 0, 0, 0, 7, 1, none⟩ : PlanGlyph).format = f := by decide

theorem test_hyp_TransparentLayersLeavePixel :
    ∀ e ∈ [{ fillEntry with opacity := 0 }], coversColumn 3 e = true → (entrySample [] 3 e).2 = 0 := by decide

/-- The same line planned, with bytes received and their pixels drawn. -/
def planned (bytes : List Byte) : State :=
  { inLine .frame .active bytes with
    comp := { (inLine .frame .active bytes).comp with
      plan := some ⟨0, [fillEntry], []⟩
      arriving := some ⟨0, bytes, drawnBytes ⟨0, [fillEntry], []⟩ bytes (bytes.length / 3)⟩ } }

theorem test_hyp_DataByteDrawsItsPixel : ∀ n, n = 2 ∨ n = 44 →
    InFrame (planned (List.replicate n 40)) ∧ (planned (List.replicate n 40)).rx.openLine = some ⟨.active, 0, n⟩
    ∧ n + 1 < lineBytes (planned (List.replicate n 40)) ∧ (n + 1) % 3 = 0
    ∧ (planned (List.replicate n 40)).comp.plan = some ⟨0, [fillEntry], []⟩
    ∧ ∃ a, (planned (List.replicate n 40)).comp.arriving = some a ∧ a.received.length = n
      ∧ DrawnTo (n / 3) ⟨0, [fillEntry], []⟩ a := by
  rintro n (rfl | rfl) <;> refine ⟨.inl rfl, rfl, ?_, rfl, rfl, _, rfl, rfl, rfl⟩ <;> decide

/-- The first and second byte of a pixel of a planned line, and any byte but the last of a line without a plan. -/
theorem test_hyp_DataByteDrawsItsPixel_joins :
    (∀ n, n = 0 ∨ n = 46 → InFrame (planned (List.replicate n 0))
      ∧ (planned (List.replicate n 0)).rx.openLine = some ⟨.active, 0, n⟩ ∧ n + 1 < lineBytes (planned (List.replicate n 0))
      ∧ (planned (List.replicate n 0)).comp.arriving.isSome ∧ (n + 1) % 3 ≠ 0)
    ∧ (inLine .raw .active [0, 0]).comp.plan = none ∧ InFrame (inLine .raw .active [0, 0])
    ∧ (inLine .raw .active [0, 0]).comp.arriving = some ⟨0, [0, 0], []⟩ := by
  refine ⟨?_, rfl, .inr rfl, rfl⟩
  rintro n (rfl | rfl) <;> refine ⟨.inl rfl, rfl, ?_, rfl, ?_⟩ <;> decide

theorem test_dataByte_draws : after (exec (.dataByte 40) (planned [40, 40])) (fun t => t.comp.arriving)
    = some (some ⟨0, [40, 40, 40], [10, 10, 58]⟩) := by decide +kernel

/-- A planned MONO glyph over a black line, whose one byte is written after its first pixel has arrived: where its read turns out
to come after the write, the pixel is drawn from the new byte, and where it does not, from the old one (R46). -/
theorem test_rereadLine :
    let e : PlanEntry := ⟨2, 0, 7, 0, ⟨9, 9, 9⟩, 255, some ⟨.mono, 1, 0, 0, 0, 7, 1, none⟩⟩
    let c : Compositor := ⟨none, some ⟨0, [e], [⟨0, 0x00⟩]⟩, some ⟨0, [0, 0, 0, 0], [0, 0, 0]⟩, none⟩
    (rereadLine (fun b => { b with value := 0x80 }) c).arriving = some ⟨0, [0, 0, 0, 0], [9, 9, 9]⟩
    ∧ rereadLine id c = c ∧ newByte ⟨3, 1, 0, 0, [0x80], 0, 0⟩ 1 0 = some 0x80 := by decide +kernel

/-- A slot that is free and a slot that is taken. -/
theorem test_hyp_FullActiveLineHandedOver :
    (InFrame (planned (List.replicate 47 0)) ∧ (planned (List.replicate 47 0)).rx.openLine = some ⟨.active, 0, 47⟩
      ∧ 47 + 1 = lineBytes (planned (List.replicate 47 0))
      ∧ (∃ a, (planned (List.replicate 47 0)).comp.arriving = some a ∧ a.received.length = 47
        ∧ DrawnTo (47 / 3) ⟨0, [fillEntry], []⟩ a)
      ∧ (planned (List.replicate 47 0)).comp.plan = some ⟨0, [fillEntry], []⟩
      ∧ (planned (List.replicate 47 0)).comp.leaving = none
      ∧ (planned (List.replicate 47 0)).tx.sequence.any isCarried = false)
    ∧ (inLine .frame .active (List.replicate 47 0)).comp.plan = none
    ∧ ({ (planned (List.replicate 47 0)).comp with leaving := some [1] } : Compositor).leaving.isSome = true :=
  ⟨⟨.inl rfl, rfl, rfl, ⟨_, rfl, rfl, rfl⟩, rfl, rfl, rfl⟩, rfl, rfl⟩

/-- The three items that end a line. -/
theorem test_endsLine : EndsLine (.ls .active 1) [.line ⟨.active, 1, .incomplete, []⟩] ∧ EndsLine (.fe 0 0 true) [.fe 0 0 true]
    ∧ EndsLine (.fs 6 16 16) [.abortedFe, .fs 6 16 16] :=
  ⟨.inl ⟨_, _, rfl, rfl⟩, .inr (.inl ⟨_, _, _, rfl, rfl⟩), .inr (.inr ⟨_, _, _, rfl, rfl⟩)⟩

/-- A short line, and a line at its full length whose item stands last, or has left. -/
theorem test_hyp_ShortAndLongLinesKeepTheirLength :
    (InFrame (planned [1]) ∧ (planned [1]).rx.openLine = some ⟨.active, 0, 1⟩ ∧ 1 < lineBytes (planned [1])
      ∧ (planned [1]).comp.arriving = some ⟨0, [1], []⟩ ∧ (planned [1]).comp.leaving = none
      ∧ (planned [1]).tx.sequence.any isCarried = false)
    ∧ (InFrame (inLine .frame .blank (List.replicate 48 0))
      ∧ (inLine .frame .blank (List.replicate 48 0)).rx.openLine = some ⟨.blank, 0, 48⟩
      ∧ lineBytes (inLine .frame .blank (List.replicate 48 0)) ≤ 48
      ∧ (inLine .frame .blank (List.replicate 48 0)).tx.sequence = [.fs 5 16 16] ++ [.line ⟨.blank, 0, .incomplete, []⟩])
    ∧ ({ Transmitter.reset with lane := some (.line .blank 0 []) } : Transmitter).sequence = [] :=
  ⟨⟨.inl rfl, rfl, by decide, rfl, rfl, rfl⟩, ⟨.inl rfl, rfl, by decide, rfl⟩, rfl⟩

/-- The short line ends at an LS and at an FS, with the leaving slot free and taken. -/
theorem test_short_lines :
    after (exec (.ls .active 1) (planned [1])) (fun t => (t.comp.leaving, t.comp.arriving, t.comp.plan, t.rx.lock))
      = some (some [1], some ⟨1, [], []⟩, none, .raw)
    ∧ after (exec (.fs 6 16 16) { planned [1] with comp := { (planned [1]).comp with leaving := some [8] } })
        (fun t => (t.comp.leaving, t.tx.sequence))
      = some (some [8], [.fs 5 16 16, .line ⟨.active, 0, .carried [1], []⟩, .abortedFe, .fs 6 16 16]) := by decide +kernel

theorem test_fe_short : after (exec (.fe 0 0 true) (planned [1])) (fun t => (t.comp.leaving, t.rx.lastFault))
    = some (some [1], some .lineLength) := by decide +kernel

/-! ## The sorter -/

/-- A blank line whose scan stands inside the given packet, before its last byte. -/
def scanning (p : Packet) : State :=
  { inLine .frame .blank p.dropLast with
    sorter := ⟨0, some { newLineRecord 48 with scan := .inPacket, packet := p.dropLast }⟩ }

/-- Packets with a good CRC, a bad CRC, an invalid header, and a broadcast that no node may execute. -/
def fourPackets : List Packet :=
  [asked kindIdentify [], (asked kindIdentify []).dropLast ++ [0], testPacket 5 0x41 0 kindIdentify [], cast kindClaim [0, 1, 0, 9]]

theorem test_hyp_BlankLineBytesScanned :
    (∀ p ∈ fourPackets, InFrame (scanning p) ∧ (scanning p).rx.openLine = some ⟨.blank, 0, p.dropLast.length⟩
      ∧ p.dropLast.length + 1 < lineBytes (scanning p)
      ∧ (scanning p).sorter.line = some { newLineRecord 48 with scan := .inPacket, packet := p.dropLast }
      ∧ 8 ≤ p.dropLast.length ∧ (p.dropLast ++ [p.getLast!]).length = packetLength (p.dropLast ++ [p.getLast!]) + 9)
    ∧ fourPackets.map packetCrcGood = [true, false, true, true]
    ∧ fourPackets.map packetHeaderValid = [true, true, false, true]
    ∧ (newLineRecord 48).scan = .seeking ∧ (newLineRecord 48).packet = []
    ∧ ({ newLineRecord 48 with scanPos := 46 } : LineRecord).scanPos + 1 < (newLineRecord 48).bound := by
  unfold InFrame
  decide +kernel

/-- A blank line of which only the last byte is still to come. -/
def lastByte (r : LineRecord) : State :=
  { inLine .frame .blank (List.replicate 47 0) with sorter := ⟨0, some r⟩ }

/-- A record that has taken the first bytes of a packet at position 0. -/
def taken (scan : ScanState) (packet : List Byte) : LineRecord := { newLineRecord 48 with scan := scan, packet := packet }

/-- A blank line with that record. -/
def scans (scan : ScanState) (packet : List Byte) : State :=
  { inLine .frame .blank packet with sorter := ⟨0, some (taken scan packet)⟩ }

/-- The further clauses: the last byte of the data area at a start position; and the byte after 0xC3, byte 6 in range, too
long and past the end, a byte further on, and bytes behind the end. -/
theorem test_hyp_BlankLineBytesScanned_more :
    (InFrame (lastByte { newLineRecord 48 with scanPos := 47 })
      ∧ (lastByte { newLineRecord 48 with scanPos := 47 }).rx.openLine = some ⟨.blank, 0, 47⟩
      ∧ 47 + 1 = lineBytes (lastByte { newLineRecord 48 with scanPos := 47 })
      ∧ ({ newLineRecord 48 with scanPos := 47 } : LineRecord).scanPos + 1 = (newLineRecord 48).bound)
    ∧ (∀ x ∈ [(ScanState.seeking, [0xC3]), (.inPacket, [0xC3, 0x5A, 0, 3, 1, 2]), (.inPacket, [0xC3, 0x5A]), (.ended, [])],
        InFrame (scans x.1 x.2) ∧ (scans x.1 x.2).rx.openLine = some ⟨.blank, 0, x.2.length⟩
        ∧ x.2.length + 1 < lineBytes (scans x.1 x.2) ∧ (scans x.1 x.2).sorter.line = some (taken x.1 x.2))
    ∧ 240 < (241#8).toNat ∧ (39#8).toNat + 9 ≤ 48 ∧ 48 < (40#8).toNat + 9 := by
  unfold InFrame
  decide +kernel

/-- A 0xC3 that is the last byte of the data area, a byte behind a 0xC3, and byte 6, each a malformed start. -/
theorem test_dataByte_malformed :
    after (exec (.dataByte 0xC3) (lastByte { newLineRecord 48 with scanPos := 47 })) (fun t => t.counter .pktMalformed) = some 1
    ∧ [exec (.dataByte 0) (scans .seeking [0xC3]), exec (.dataByte 0x5A) (scans .seeking [0xC3]),
        exec (.dataByte 40) (scans .inPacket [0xC3, 0x5A, 0, 3, 1, 2]),
        exec (.dataByte 39) (scans .inPacket [0xC3, 0x5A, 0, 3, 1, 2])].map
          (fun o => after o (fun t => t.sorter.line.map (fun r => (r.scan, r.counts.malformed))))
      = [some (some (.abandoned, 1)), some (some (.inPacket, 0)), some (some (.abandoned, 1)), some (some (.inPacket, 0))] := by
  decide +kernel

theorem test_dataByte_scan : fourPackets.map (fun p => after (exec (.dataByte p.getLast!) (scanning p))
      (fun t => t.sorter.line.map (·.counts)))
    = [some (some ⟨1, 0, 0, 0⟩), some (some ⟨0, 0, 1, 0⟩), some (some ⟨0, 0, 0, 1⟩), some (some ⟨0, 1, 0, 1⟩)] := by
  decide +kernel

/-- The inbound queue empty, and full. -/
theorem test_hyp_BlankLineCloseHandsOff :
    InFrame (inLine .frame .blank (List.replicate 47 0))
    ∧ (inLine .frame .blank (List.replicate 47 0)).rx.openLine = some ⟨.blank, 0, 47⟩
    ∧ 47 + 1 = lineBytes (inLine .frame .blank (List.replicate 47 0))
    ∧ (inLine .frame .blank (List.replicate 47 0)).sorter.line = some (newLineRecord 48)
    ∧ (inLine .frame .blank (List.replicate 47 0)).agent.inbound.length ≤ 4
    ∧ (List.replicate 4 (asked kindIdentify [])).length ≤ 4
    ∧ (inLine .frame .blank (List.replicate 47 0)).counter .reqOverflow ≤ 4294967295 := by
  unfold InFrame
  decide +kernel

/-- A short blank line, with a packet not ended. -/
theorem test_hyp_BlankLineCloseHandsOff_short :
    InFrame (scans .inPacket [0xC3, 0x5A]) ∧ (scans .inPacket [0xC3, 0x5A]).rx.openLine = some ⟨.blank, 0, 2⟩
    ∧ 2 < lineBytes (scans .inPacket [0xC3, 0x5A])
    ∧ (scans .inPacket [0xC3, 0x5A]).sorter.line = some (taken .inPacket [0xC3, 0x5A])
    ∧ (scans .inPacket [0xC3, 0x5A]).agent.inbound.length ≤ 4 := by
  unfold InFrame
  decide +kernel

theorem test_ls_shortBlank : after (exec (.ls .blank 1) (scans .inPacket [0xC3, 0x5A]))
      (fun t => (t.counter .pktMalformed, t.sorter.line, t.tx.sequence))
    = some (1, some (newLineRecord 48),
        [.fs 5 16 16, .line ⟨.blank, 0, .blank [] 2, []⟩, .line ⟨.blank, 1, .incomplete, []⟩]) := by decide +kernel

theorem test_hyp_SealedPacketsPassRelayCheck : ([] : List Byte).length ≤ 240 ∧ (List.replicate 240 (0 : Byte)).length ≤ 240 := by
  rw [List.length_replicate]
  exact ⟨Nat.zero_le _, Nat.le_refl _⟩

/-! ## Requests -/

/-- Payloads of one kind: each waits alone at the head, of the accepted length, fresh and with a place to reserve, or has been
taken. -/
def allTaken (k : Byte) (payloads : List (List Byte)) : Prop :=
  ∀ payload ∈ payloads, Takes k (asked k payload) [] (waiting k payload)
    ∧ Takes k (asked k payload) [] (heldBy (asked k payload) .execute [] (waiting k payload))
    ∧ packetPayload (asked k payload) = payload
    ∧ lengthAccepted k payload = true ∧ Fresh (requestOf (asked k payload)) (waiting k payload)

/-- An empty mask, leases 0, 1, 4095 and 4096. -/
theorem test_hyp_ClaimGrantsAllOrNothing :
    allTaken kindClaim [[0, 0, 0, 1], [0, 1, 0, 0], [0, 1, 0, 1], [0, 1, 0x0F, 0xFF], [0, 1, 0x10, 0]] := by
  unfold allTaken Takes InHand Fresh
  decide +kernel

theorem test_claim : replied (exec .claim (waiting kindClaim [0, 5, 0, 10])) = some [0x10, 0, 0, 5, 0, 5, 0, 0, 0, 10]
    ∧ replied (exec .claim (owning (waiting kindClaim [0, 3, 0, 10]))) = some [0x10, 5, 0, 2] := by decide +kernel

theorem test_hyp_ReleaseFreesOwnedLayers : allTaken kindRelease [[0, 0], [0, 3]] := by
  unfold allTaken Takes InHand Fresh
  decide +kernel

theorem test_release : replied (exec .release (owning (waiting kindRelease [0, 3]))) = some [0x11, 0, 0, 1, 0, 2] := by
  decide +kernel

/-- Layers 0, 15 and 16; an invalid presence set; a kind out of range; a FREE glyph; and a write that passes. The owner is
checked in `owning`. -/
theorem test_hyp_LayerWriteReplacesPendingRecord :
    allTaken kindLayerWrite [[16, 0, 0], [15, 0, 0], [0, 0x80, 0], [0, 0, 2, 2], [0, 0, 2, 1], [0, 0, 1, 1]]
    ∧ Takes kindLayerWrite (asked kindLayerWrite [0, 0, 1, 1]) [] (owning (waiting kindLayerWrite [0, 0, 1, 1]))
    ∧ ((owning State.reset).ownership 0).owner = some (packetSource (asked kindLayerWrite [0, 0, 1, 1]))
    ∧ firstBadField (resultingRecord LayerRecord.default [0, 0, 2, 2]) = some 4
    ∧ (recordOfRaw (resultingRecord LayerRecord.default [0, 0, 2, 1])).kind = .glyph := by
  unfold allTaken Takes InHand Fresh
  decide +kernel

theorem test_layerWrite : after (exec .layerWrite (owning (waiting kindLayerWrite [0, 0, 1, 1])))
      (fun t => ((t.pendingRecord 0).visible, (t.activeRecord 0).visible, t.ownership 0))
      = some (true, false, ⟨some 3, 10, 10⟩)
    ∧ [[0x10, 0, 0], [0, 0x80, 0], [0, 0, 2, 2], [0, 0, 2, 1], [1, 0, 1, 1], [0, 0, 1, 1]].map
        (fun pl => replied (exec .layerWrite (owning (waiting kindLayerWrite pl))))
      = [some [0x20, 3, 1], some [0x20, 3, 2], some [0x20, 3, 4], some [0x20, 6, 0, 0], some [0x20, 4, 1, 5],
         some [0x20, 0, 0, 0, 10]] := by decide +kernel

theorem test_hyp_LayerReadReportsRecord : allTaken kindLayerRead [[2, 0], [1, 16], [0, 15], [1, 0]] := by
  unfold allTaken Takes InHand Fresh
  decide +kernel

theorem test_layerRead : replied (exec .layerRead (owning (waiting kindLayerRead [0, 1])))
    = some ([0x21, 0, 0, 1] ++ recordImage LayerRecord.default ++ [5, 0, 10, 0, 1]) := by decide +kernel

theorem test_hyp_CommitArmsEntry :
    allTaken kindCommit [[0, 7, 0, 0], [0, 7, 0, 1], [0, 7, 0x80, 0]] ∧ CommitsSound (waiting kindCommit [0, 7, 0, 1])
    ∧ (∀ payload ∈ [[0, 7, 0, 1], [0, 7, 0, 0]],
        TakesBroadcast kindCommit (cast kindCommit payload) [] (holding (cast kindCommit payload) State.reset)
        ∧ CommitsSound (holding (cast kindCommit payload) State.reset)) := by
  unfold allTaken Takes TakesBroadcast InHand Fresh CommitsSound
  decide +kernel

theorem test_commit : replied (exec .commit (owning (waiting kindCommit [0, 7, 0, 1]))) = some [0x22, 0, 0, 1, 1, 0, 0, 0]
    ∧ after (exec .commit (owning (holding (cast kindCommit [0, 7, 0, 3]) State.reset))) (fun t => t.layers.commits)
      = some [⟨3, 7, 1⟩] := by decide +kernel

/-- The ends of each range: format codes 2 and 3, widths 0, 1, 1024 and 1025, heights 0 and 1025, and sizes at and above
the store's. -/
theorem test_hyp_GlyphDefineTakesFirstFit :
    allTaken kindGlyphDefine [[3, 0, 1, 0, 1], [2, 0, 0, 0, 1], [2, 4, 1, 0, 1], [0, 0, 1, 0, 0], [0, 0, 1, 4, 1],
      [2, 4, 0, 0, 65], [2, 4, 0, 0, 64], [0, 0, 1, 0, 1]]
    ∧ sizeOfGlyph .rgb16 1024 64 = 131072 ∧ sizeOfGlyph .rgb16 1024 65 = 133120
    ∧ (∀ e : GlyphId, e = 0 ∨ e = 255 → State.reset.entry e = none) := by
  refine ⟨?_, by decide, by decide, ?_⟩
  · unfold allTaken Takes InHand Fresh
    decide +kernel
  · rintro e (rfl | rfl) <;> decide +kernel

/-- The rest of that statement's clauses: a run that is free from block 0, and a map in which every entry, or every block,
is taken. -/
theorem test_hyp_GlyphDefineTakesFirstFit_space :
    RunFree State.reset 0 512 ∧ (∀ first, first < 0 → ¬RunFree State.reset first 512)
    ∧ (∀ first, ¬RunFree { State.reset with glyphs := { GlyphStore.reset with blockMap := Vector.replicate 512 (some 0) } } first 1)
    ∧ (∀ e, ({ State.reset with glyphs := { GlyphStore.reset with
          entries := Vector.replicate 256 (some (testGlyph .loading)) } } : State).entry e ≠ none) := by
  refine ⟨⟨by decide, fun k _ _ => ?_⟩, fun first h => absurd h (Nat.not_lt_zero first), ?_, ?_⟩
  · simp [State.reset, GlyphStore.reset]
  · rintro first ⟨h, hfree⟩
    have := hfree ⟨first, by omega⟩ (Nat.le_refl _) (Nat.lt_succ_self _)
    simp at this
  · intro e
    simp [State.entry]

theorem test_glyphDefine : replied (exec .glyphDefine (waiting kindGlyphDefine [0, 0, 8, 0, 2]))
      = some [0x30, 0, 0, 0, 1, 0, 0, 2, 0, 0, 0, 1]
    ∧ replied (exec .glyphDefine (waiting kindGlyphDefine [2, 4, 0, 0, 65])) = some [0x30, 3, 3] := by decide +kernel

theorem asked_payload (kind : Byte) (payload : List Byte) (h : payload.length ≤ 240) :
    packetPayload (asked kind payload) = payload := by
  have : payload.length % 256 = payload.length := Nat.mod_eq_of_lt (by omega)
  simp [packetPayload, packetLength, packetByte, asked, testPacket, this]

/-- The longest load, of 236 data bytes. -/
theorem test_hyp_GlyphLoadCheckedThenStarted_longest :
    let payload := [0, 0, 0, 0] ++ List.replicate 236 0
    Takes kindGlyphLoad (asked kindGlyphLoad payload) [] (waiting kindGlyphLoad payload)
    ∧ (packetPayload (asked kindGlyphLoad payload)).length = 240
    ∧ Fresh (requestOf (asked kindGlyphLoad payload)) (waiting kindGlyphLoad payload) := by
  refine ⟨⟨rfl, .inl ⟨rfl, rfl, .inr rfl⟩, rfl, rfl⟩, ?_, .inl rfl⟩
  rw [asked_payload _ _ (by rw [List.length_append, List.length_replicate]; decide)]
  rw [List.length_append, List.length_replicate]
  rfl

/-- One data byte, refused loads, and the entry of the tests in both states. -/
theorem test_hyp_GlyphLoadCheckedThenStarted :
    allTaken kindGlyphLoad [[0, 0, 0, 0, 0xA5], [1, 0, 0, 0, 0], [0, 0, 0, 1, 0],
      [0, 0, 0, 0, 1, 2, 3]]
    ∧ ∀ st ∈ [LoadState.loading, .ready],
      Takes kindGlyphLoad (asked kindGlyphLoad [0, 0, 0, 0, 1, 2]) [] (withGlyph st (waiting kindGlyphLoad [0, 0, 0, 0, 1, 2]))
      ∧ (withGlyph st (waiting kindGlyphLoad [0, 0, 0, 0, 1, 2])).entry 0 = some (testGlyph st)
      ∧ (testGlyph st).owner = packetSource (asked kindGlyphLoad [0, 0, 0, 0, 1, 2])
      ∧ (st = .loading → 0 = (testGlyph st).loaded) ∧ 0 + 2 ≤ (testGlyph st).size := by
  unfold allTaken Takes InHand Fresh
  decide +kernel

theorem test_glyphLoad : after (exec .glyphLoad (withGlyph .loading (waiting kindGlyphLoad [0, 0, 0, 0, 0xA5, 0x5A])))
      (fun t => (t.agent.busy, t.agent.replies)) = some (some (.load testRun), [])
    ∧ [[1, 0, 0, 0, 1], [0, 0, 0, 1, 1], [0, 0, 0, 0, 1, 2, 3]].map
        (fun pl => replied (exec .glyphLoad (withGlyph .loading (waiting kindGlyphLoad pl))))
      = [some [0x31, 6, 1], some [0x31, 9, 0, 0, 0, 0], some [0x31, 2, 0, 0, 0, 2, 0, 0, 0]] := by decide +kernel

/-- The entry of the tests with its load in execution. -/
def loading (st : LoadState) : State :=
  { withGlyph st State.reset with agent := { Agent.reset with busy := some (.load testRun) } }

theorem test_hyp_GlyphLoadCompleteWritesStore : ∀ st, st = LoadState.loading ∨ st = .ready →
    nextExtent (loading st) = .replied ∧ (loading st).agent.busy = some (.load testRun) ∧ DirectorySound (loading st)
    ∧ (loading st).entry testRun.index = some (testGlyph st) := by
  rintro st (rfl | rfl) <;> refine ⟨rfl, rfl, withGlyph_directorySound _ _ (.inr rfl), by decide +kernel⟩

theorem test_glyphLoadComplete : after (exec .glyphLoadComplete (loading .loading))
      (fun t => (t.glyphs.bytes, (t.entry 0).map (·.state), t.agent.busy)) = some ([(0, 0xA5), (1, 0x5A)], some .ready, none)
    ∧ replied (exec .glyphLoadComplete (loading .loading)) = some [0x31, 0, 0, 0, 0, 2, 2]
    ∧ (writeLoadTo 1 testRun (loading .loading)).glyphs.bytes = [(0, 0xA5)]
    ∧ (writeLoadTo 1 testRun (loading .loading)).agent.busy = some (.load { testRun with written := 1 })
    ∧ after (exec .glyphLoadComplete (writeLoadTo 1 testRun (loading .loading))) (fun t => t.glyphs.bytes)
      = some [(0, 0xA5), (1, 0x5A)] := by decide +kernel

/-- The directory is updated and the reply is to come; and with no load the command changes nothing. -/
theorem test_glyphLoadComplete_acted :
    after (exec .glyphLoadComplete { loading .loading with extents := [.acted] })
        (fun t => (t.agent.busy, (t.entry 0).map (·.state), t.agent.replies))
      = some (some (.acted ⟨3, 1, kindGlyphLoad, []⟩ (.executed ⟨.ok, [0, 0, 0, 2, 2]⟩)), some .ready, [])
    ∧ replied (exec .glyphLoadComplete (hold ⟨3, 1, kindGlyphLoad, []⟩ (.executed ⟨.ok, [0, 0, 0, 2, 2]⟩) State.reset))
      = some [0x31, 0, 0, 0, 0, 2, 2]
    ∧ (∀ run, State.reset.agent.busy ≠ some (.load run)) ∧ State.reset.agent.busy = none := by
  refine ⟨by decide +kernel, by decide +kernel, fun run h => (by cases h), rfl⟩

theorem test_hyp_GlyphDeleteFreesEntry :
    allTaken kindGlyphDelete [[0], [255]] ∧ DirectorySound (waiting kindGlyphDelete [0])
    ∧ (withGlyph .ready State.reset).entry 0 = some (testGlyph .ready)
    ∧ (testGlyph .ready).owner = packetSource (asked kindGlyphDelete [0]) ∧ (testGlyph .ready).refs = 0
    ∧ DirectorySound { withGlyph .ready State.reset with agent := { Agent.reset with busy := none } } := by
  refine ⟨?_, reset_directorySound _ rfl rfl, by decide +kernel, by decide, by decide,
    withGlyph_directorySound _ none (.inl rfl)⟩
  unfold allTaken Takes InHand Fresh
  decide +kernel

theorem test_glyphDelete : replied (exec .glyphDelete (withGlyph .ready (waiting kindGlyphDelete [0])))
      = some [0x32, 0, 0, 0, 0, 0, 1, 2, 0, 2, 0, 1, 0]
    ∧ replied (exec .glyphDelete (waiting kindGlyphDelete [0])) = some [0x32, 6, 0] := by decide +kernel

theorem test_hyp_GlyphQueryReportsEntry : allTaken kindGlyphQuery [[0], [255]] := by
  unfold allTaken Takes InHand Fresh
  decide +kernel

theorem test_glyphQuery : replied (exec .glyphQuery (waiting kindGlyphQuery [5]))
      = some ([0x33, 0, 5, 0, 255, 255] ++ List.replicate 18 0 ++ [2, 0, 2, 0, 1, 0])
    ∧ replied (exec .glyphQuery (withGlyph .ready (waiting kindGlyphQuery [0])))
      = some [0x33, 0, 0, 2, 3, 0, 0, 8, 0, 2, 0, 1, 0, 0, 2, 1, 0, 0, 0, 1, 0, 0, 2, 0, 1, 255, 1, 255, 0, 255] := by
  decide +kernel

theorem test_hyp_AssignSetsAddressIdentifyReportsIdentity :
    allTaken kindAssign [[0], [1], [62], [63]] ∧ allTaken kindIdentify [[]] := by
  unfold allTaken Takes InHand Fresh
  decide +kernel

theorem test_assign : replied (exec .assign (waiting kindAssign [7])) = some [1, 0, 0, 7]
    ∧ replied (exec .assign (waiting kindAssign [63])) = some [1, 3, 1] := by decide +kernel

theorem test_identify : (replied (exec .identify (waiting kindIdentify []))).map List.length = some 17 := by decide +kernel

/-- Each setting at the ends of its range and beyond them, none named, and an unknown presence bit. -/
theorem test_hyp_ConfigWriteReplacesNamedSettings :
    allTaken kindConfigWrite [[32], [0], [1, 0, 255], [1, 1, 0], [1, 16, 0], [1, 16, 1], [2, 0], [2, 1], [2, 255], [4, 0],
      [4, 1], [4, 2], [8, 7], [8, 8], [8, 254], [8, 255], [16, 0], [16, 1], [16, 2]] := by
  unfold allTaken Takes InHand Fresh
  decide +kernel

theorem test_configWrite : replied (exec .configWrite (waiting kindConfigWrite [9, 16, 0, 7]))
      = some [3, 0, 16, 0, 50, 0, 7, 0]
    ∧ replied (exec .configWrite (waiting kindConfigWrite [1, 16, 1])) = some [3, 3, 2] := by decide +kernel

/-- Source 3 has asked, from an UNKNOWN context, to be the listener: the settings have changed, and the reply is to come. -/
def listens (s : State) : State :=
  { s with
    agent := { s.agent with
      busy := some (.acted (requestOf (asked kindConfigWrite [8, 3])) (.executed ⟨.ok, [8, 0, 50, 0, 3, 0]⟩)) }
    status := { s.status with settings := { s.status.settings with listener := some 3 } } }

theorem test_hyp_ConfigWriteReplacesNamedSettings_acted :
    let s := { heldBy (asked kindConfigWrite [8, 3]) .execute [] State.reset with extents := [.acted] }
    nextExtent s = .acted ∧ s.agent.busy = some (.taken (asked kindConfigWrite [8, 3]) .execute)
    ∧ packetBroadcast (asked kindConfigWrite [8, 3]) = false ∧ configBadField [8, 3] = none
    ∧ after (exec .configWrite s) (fun t => (t.agent.busy, t.status.settings.listener))
      = some ((listens State.reset).agent.busy, some 3) := by decide +kernel

/-- A mark made then is not kept (R171), the loss of lock leaves the request in execution, and its row places its reply. -/
theorem test_configWrite_acted :
    after (exec .signalLoss (listens (inFrame .frame))) (fun t => (t.rx.lock, t.context 3, t.agent.busy.isSome))
      = some (.hunt, Context.empty, true)
    ∧ replied (exec .configWrite (listens State.reset)) = some [3, 0, 8, 0, 50, 0, 3, 0]
    ∧ after (exec .configWrite (listens State.reset)) (fun t => (t.agent.busy, (t.context 3).state)) = some (none, .active)
    ∧ after (exec .identify (listens (waiting kindIdentify []))) (fun t => (t.agent.inbound.length, t.agent.busy.isSome))
      = some (1, true) := by decide +kernel

theorem test_hyp_StatusReadSnapshotsThenClears : allTaken kindStatusRead [[0], [3], [4]] := by
  unfold allTaken Takes InHand Fresh
  decide +kernel

theorem test_statusRead : (replied (exec .statusRead (waiting kindStatusRead [0]))).map List.length = some 66
    ∧ replied (exec .statusRead (waiting kindStatusRead [4])) = some [4, 3, 1] := by decide +kernel

/-- Scopes 0, 1 and 2, addressed and broadcast. -/
theorem test_hyp_ResetTablesClearsTables :
    allTaken kindReset [[0], [2]]
    ∧ (∀ scope, scope = 0 ∨ scope = 2 →
      TakesBroadcast kindReset (cast kindReset [scope]) [] (holding (cast kindReset [scope]) State.reset)
      ∧ packetPayload (cast kindReset [scope]) = [scope]) := by
  unfold allTaken Takes TakesBroadcast InHand Fresh
  decide +kernel

theorem test_hyp_ResetNodeClearsNode :
    allTaken kindReset [[1]]
    ∧ TakesBroadcast kindReset (cast kindReset [1]) [] (holding (cast kindReset [1]) State.reset)
    ∧ packetPayload (cast kindReset [1]) = [1] := by
  unfold allTaken Takes TakesBroadcast InHand Fresh
  decide +kernel

theorem test_resetTables : replied (exec .resetTables (waiting kindReset [0])) = some [15, 0, 0]
    ∧ after (exec .resetTables (owning (withGlyph .ready (waiting kindReset [0])))) (fun t => (t.ownership 0, t.entry 0))
      = some (⟨none, 0, 0⟩, none) := by decide +kernel

theorem test_reset_noScope : exec .resetNode (holding (cast kindReset [2]) State.reset) = .next State.reset
    ∧ exec .resetTables (holding (cast kindReset [2]) State.reset) = .next State.reset := ⟨rfl, rfl⟩

theorem test_resetNode : replied (exec .resetNode (waiting kindReset [1])) = some [15, 0, 1]
    ∧ after (exec .resetNode (known (holding (cast kindReset [1]) State.reset))) (fun t => (t.context 3).state)
      = some .unknown := by decide +kernel

theorem test_hyp_CountersSaturateUntilCleared :
    after (exec .idl State.reset) (fun t => t.counter .framesGood) = some 0
    ∧ State.reset.counter .framesGood ≤ 4294967295
    ∧ ∀ k ∈ [0, 1], (4294967295 + k ≤ 4294967295 ↔ k = 0) := by decide +kernel

/-! ## The agent -/

/-- An unknown kind, addressed, waiting and taken. -/
theorem test_hyp_RequestsTurnedAwayUncached :
    (0x55 : Byte) ∉ requestKinds ∧ packetKind (asked 0x55 []) = 0x55
    ∧ InHand (asked 0x55 []) (.refused .kind) [] (waiting 0x55 [])
    ∧ InHand (asked 0x55 []) (.refused .kind) [] (heldBy (asked 0x55 []) (.refused .kind) [] State.reset) := by
  unfold InHand
  decide +kernel

/-- A wrong length, addressed. -/
theorem test_hyp_RequestsTurnedAwayUncached_length :
    let p := asked kindClaim [0]
    Serves .claim p ∧ lengthAccepted kindClaim (packetPayload p) = false
    ∧ InHand p (.refused .length) [] (waiting kindClaim [0])
    ∧ InHand p (.refused .length) [] (heldBy p (.refused .length) [] State.reset) := by
  unfold InHand Serves ServesRequest
  decide +kernel

/-- A wrong length, broadcast. -/
theorem test_hyp_RequestsTurnedAwayUncached_broadcast :
    let p := cast kindReset [0, 0]
    Serves .resetTables p ∧ Serves .resetNode p ∧ lengthAccepted kindReset (packetPayload p) = false
    ∧ InHand p .discarded [] (holding p State.reset) ∧ InHand p .discarded [] (heldBy p .discarded [] State.reset) := by
  unfold InHand Serves ServesRequest
  decide +kernel

theorem test_unknownKind : replied (exec .unknownKind (waiting 0x55 [])) = some [0x55, 1]
    ∧ replied (exec .claim (waiting kindClaim [0])) = some [0x10, 2] := by decide +kernel

/-- A state in which sequence 1 of source 3 has been executed. -/
def executed (queued : Bool) : State :=
  (known (waiting kindIdentify [])).modifyContext 3 (fun c => { c with lastSeq := some 1, cachedQueued := queued })

theorem test_hyp_DuplicatesAnsweredFromCache : ∀ queued ∈ [true, false],
    let copy := if queued then none else some (sealPacket 0 3 9 0x80 [2, 0])
    Serves .identify (asked kindIdentify []) ∧ InHand (asked kindIdentify []) (.duplicate copy) [] (executed queued)
    ∧ InHand (asked kindIdentify []) (.duplicate copy) []
      (heldBy (asked kindIdentify []) (.duplicate copy) [] (executed queued))
    ∧ lengthAccepted kindIdentify (packetPayload (asked kindIdentify [])) = true
    ∧ ¬Fresh (requestOf (asked kindIdentify [])) (executed queued)
    ∧ copy = (if ((executed queued).context 3).cachedQueued then none else ((executed queued).context 3).cached) := by
  unfold InHand Serves ServesRequest Fresh
  decide +kernel

theorem test_duplicate : after (exec .identify (executed true)) (fun t => (t.counter .reqDuplicate, ownTraffic t)) = some (1, [])
    ∧ replied (exec .identify (executed false)) = some [2, 0] := by decide +kernel

/-! ### Between the taking and the reply (R145) -/

/-- The CLAIM of the tests waits, and the sender has the agent come so far with it. -/
def claims (upTo : Config.Extent) : State := { waiting kindClaim [0, 5, 0, 10] with extents := [upTo] }

/-- The CLAIM taken and not executed. -/
theorem test_claim_taken :
    after (exec .claim (claims .taken)) (fun t => (t.agent.inbound, t.agent.busy))
      = some ([], some (.taken (asked kindClaim [0, 5, 0, 10]) .execute))
    ∧ after (exec .claim (claims .taken)) (fun t => ((t.ownership 0).owner, freePlaces t, t.extents))
      = some (none, 7, []) := by decide +kernel

/-- The CLAIM executed and not answered, and answered at last. -/
theorem test_claim_acted :
    after (exec .claim (claims .acted)) (fun t => (t.agent.busy.isSome, (t.ownership 0).owner)) = some (true, some 3)
    ∧ after (exec .claim (claims .acted)) (fun t => ((t.context 3).state, ownTraffic t)) = some (.unknown, [])
    ∧ replied (exec .claim (heldBy (asked kindClaim [0, 5, 0, 10]) .execute [] State.reset))
      = some [0x10, 0, 0, 5, 0, 5, 0, 0, 0, 10] := by decide +kernel

/-- An ASSIGN has given the node address 7; its reply is to come, and source 3 has an item. -/
def assigning : State :=
  let s := markLeaseExpired 3 1 9 (known State.reset)
  { s with
    sorter := { s.sorter with address := 7 }
    agent := { s.agent with busy := some (.acted (requestOf (asked kindAssign [7])) (.executed ⟨.ok, [0, 7]⟩)) } }

/-- A notice built then carries the new address as its origin, and stands ahead of the ASSIGN's reply (R146, R156). -/
theorem test_assign_span :
    after (exec .noticeBuild assigning) (fun t => (t.relay.sending.map (fun x => (packetByte (sentPacket x) 2,
        packetKind (sentPacket x))), t.agent.busy.isSome)) = some (some (7, kindNotice), true)
    ∧ after (exec .assign (serve 3 assigning)) (fun t => ((ownTraffic t).map (fun q => (packetByte q.packet 2, q.cls)),
        t.agent.busy)) = some ([(7, .notice), (7, .reply)], none) := by decide +kernel

/-- A blank line closes while a request is taken; the request stays in execution. A frame starts: the request, a CLAIM of the
wrong length, is answered before the FRAME_START (R145). A load in execution goes on through it. -/
theorem test_events_span :
    after (exec (.dataByte 0) (heldBy (asked kindClaim []) .execute [] (lastByte
        { newLineRecord 48 with scanPos := 47, decisions := [(asked kindIdentify [], .consume)] })))
        (fun t => (t.agent.inbound, t.agent.busy))
      = some ([asked kindIdentify []], some (.taken (asked kindClaim []) .execute))
    ∧ after (exec (.fs 9 16 16) (heldBy (asked kindClaim []) (.refused .length) [] twoCommits))
        (fun t => (t.layers.commits, t.agent.busy, (ownTraffic t).length)) = some ([], none, 1)
    ∧ after (exec (.fs 9 16 16) (loading .loading)) (fun t => (t.rx.lock, t.agent.busy)) = some (.frame, some (.load testRun)) := by
  decide +kernel

/-- A request in execution that a row executes, for an FS to find; and the agent between requests. -/
theorem test_hyp_RequestHeldFromTakingToReply_frameStart :
    fsInRange 16 2048 = true ∧ (∃ c ∈ broadcastRows, RowOf c (requestOf (cast kindCommit [0, 7, 0, 1])))
    ∧ packetKind (asked kindClaim [0, 4, 0, 1]) ∈ requestKinds
    ∧ (heldBy (cast kindCommit [0, 7, 0, 1]) .execute [] State.reset).agent.busy
      = some (.taken (cast kindCommit [0, 7, 0, 1]) .execute) ∧ State.reset.agent.busy = none := by
  unfold RowOf ServesRequest
  decide +kernel

/-- A duplicate taken while the copy was queued is discarded, though the copy's send has ended since (R151); pin reset abandons
a request in execution (R159). -/
theorem test_duplicate_span :
    after (exec .identify (heldBy (asked kindIdentify []) (.duplicate none) [] (executed false)))
        (fun t => (t.counter .reqDuplicate, ownTraffic t, t.agent.busy)) = some (1, [], none)
    ∧ after (exec .pinReset assigning) (fun t => (t.agent.busy, ownTraffic t)) = some (none, []) := by decide +kernel

/-- Every row, with a request that it takes. -/
def rowRequests : List (Instr × Packet) :=
  [(.assign, asked kindAssign [7]), (.identify, asked kindIdentify []), (.configWrite, asked kindConfigWrite [0]),
   (.statusRead, asked kindStatusRead [0]), (.resetTables, asked kindReset [0]), (.resetNode, cast kindReset [1]),
   (.claim, asked kindClaim [0]), (.release, asked kindRelease [0, 3]), (.layerWrite, asked kindLayerWrite [0, 0, 0]),
   (.layerRead, asked kindLayerRead [0, 0]), (.commit, cast kindCommit [0]), (.glyphDefine, asked kindGlyphDefine []),
   (.glyphLoad, asked kindGlyphLoad []), (.glyphDelete, asked kindGlyphDelete [0]),
   (.glyphQuery, asked kindGlyphQuery [0]), (.unknownKind, asked 0x55 [])]

/-- Each of them can be taken: addressed or broadcast, to be executed or not; and is then left alone by every other row. -/
theorem test_hyp_RequestHeldFromTakingToReply :
    (∀ x ∈ rowRequests, RowOf x.1 (requestOf x.2) ∧ x.1 ∈ requestRows
      ∧ (packetBroadcast x.2 = true → x.1 ∈ broadcastRows)
      ∧ (holding x.2 State.reset).agent.busy = none ∧ (holding x.2 State.reset).agent.inbound = x.2 :: []
      ∧ canReserve (holding x.2 State.reset) = true)
    ∧ rowRequests.map (fun x => judge x.2 State.reset)
      = [.execute, .execute, .execute, .execute, .execute, .execute, .refused .length, .execute, .execute, .execute,
         .discarded, .refused .length, .refused .length, .execute, .execute, .refused .kind]
    ∧ ¬RowOf .identify (requestOf (asked kindClaim [])) ∧ nextExtent State.reset = .replied
    ∧ nextExtent { State.reset with extents := [.taken] } = .taken
    ∧ nextExtent { State.reset with extents := [.acted, .taken] } = .acted := by
  unfold RowOf ServesRequest
  decide +kernel

/-- What is left to do of each of them: taken, as judged; and acted, with the three kinds of reply. -/
theorem test_hyp_RequestHeldFromTakingToReply_held :
    (∀ j ∈ [Judgement.execute, .discarded, .refused .length, .duplicate none, .duplicate (some (asked 0x55 []))],
      (heldBy (asked kindClaim []) j [] State.reset).agent.busy = some (.taken (asked kindClaim []) j))
    ∧ (∀ due ∈ [DueReply.executed ⟨.ok, []⟩, .refused .kind, .copied []],
      (hold (requestOf (asked kindClaim [])) due State.reset).agent.busy = some (.acted (requestOf (asked kindClaim [])) due))
    ∧ RowOf .claim (requestOf (asked kindClaim [])) ∧ (requestOf (asked kindGlyphLoad [])).kind = kindGlyphLoad := by
  unfold RowOf ServesRequest
  decide +kernel

/-- Source 3 has an item; the turn begins at source 0, so it is fourth. -/
def marked : State := markLeaseExpired 3 1 9 (known State.reset)

theorem test_hyp_NoticeBuiltInTurn :
    eligible marked (marked.agent.lastServed + 1 + 3) = true
    ∧ (∀ d' : SourceId, d' < 3 → eligible marked (marked.agent.lastServed + 1 + d') = false)
    ∧ 1 ≤ freePlaces marked ∧ (∀ src, eligible State.reset src = false)
    ∧ freePlaces { marked with agent := { marked.agent with
        replies := List.replicate 8 ⟨sealPacket 0 3 9 0x80 [2, 0], .reply, false⟩ } } = 0 := by decide +kernel

/-- Of the eight places `n` are free; sources 3 and 5 are eligible, and a request of source 3 waits. -/
def competing (n : Nat) : State :=
  let s := markLeaseExpired 5 1 9 ((holding (asked kindIdentify []) marked).modifyContext 5
    (fun c => { c with state := .active, lastSeq := some 9, cached := some (sealPacket 0 5 9 0x80 [2, 0]) }))
  { s with
    agent := { s.agent with replies := List.replicate (8 - n) ⟨sealPacket 0 4 9 0x80 [2, 0], .reply, false⟩ }
    relay := { s.relay with sending := some (.relayed (sealPacket 9 4 7 0x80 [2, 0])) } }

/-- Two places and two eligible sources: the builder goes first, the agent has the second place, and the builder waits
(R147). -/
theorem test_places : canReserve (competing 2) = false ∧ canReserve (competing 1) = false
    ∧ after (exec .identify (competing 2)) (fun t => t.agent.inbound.length) = some 1
    ∧ after (exec .noticeBuild (competing 2)) (fun t => (t.agent.granted, canReserve t, canBuild t, freePlaces t))
      = some (true, true, false, 1)
    ∧ after (exec .noticeBuild (competing 1)) (fun t => (t.agent.granted, freePlaces t)) = some (false, 0)
    ∧ after (exec .noticeBuild (competing 3)) (fun t => (t.agent.granted, canBuild t)) = some (true, true) := by
  decide +kernel

theorem test_hyp_NoticeBuiltInTurn_places :
    let s := { competing 1 with agent := { (competing 1).agent with granted := true } }
    s.agent.granted = true ∧ wantsPlace s = true ∧ freePlaces s ≤ 1
    ∧ wantsPlace (competing 2) = true ∧ 2 ≤ freePlaces (competing 2)
    ∧ (competing 2).agent.inbound.head? = some (asked kindIdentify []) ∧ packetBroadcast (asked kindIdentify []) = false
    ∧ canReserve (competing 2) = false ∧ (competing 2).agent.busy = none ∧ Instr.identify ∈ requestRows := by decide +kernel

theorem test_noticeBuild : replied (exec .noticeBuild marked) = some [2, 0, 2, 0, 9]
    ∧ after (exec .noticeBuild marked) (fun t => ((t.context 3).noticeOutstanding, (t.context 3).noticeSeq, t.agent.lastServed))
      = some (true, 1, 3) := by decide +kernel

/-! ## The transmitter -/

/-- A transmitter with the given output sequence. -/
def sends (sequence : List OutItem) : State := { State.reset with tx := { Transmitter.reset with sequence := sequence } }

theorem test_hyp_TransmitterSendsMarkers :
    (sends [.fs 5 16 16]).tx.sequence = .fs 5 16 16 :: [] ∧ (sends [.fe 0 0 false]).tx.sequence = .fe 0 0 false :: []
    ∧ (sends [.abortedFe]).tx.sequence = .abortedFe :: [] ∧ (sends []).tx.state = .idle
    ∧ ∀ f w h, (sends []).tx.sequence.head? ≠ some (.fs f w h) :=
  ⟨rfl, rfl, rfl, rfl, fun _ _ _ h => by cases h⟩

theorem test_fsSent : after (exec .fsSent (sends [.fs 5 16 16, .abortedFe])) (fun t => (t.tx.state, t.tx.lane))
    = some (.aborting, some (.fs 5 16 16)) := by decide +kernel

theorem test_feSent : after (exec .feSent { sends [.abortedFe] with
      tx := { (sends [.abortedFe]).tx with state := .aborting, activeSent := 2 } }) (fun t => (t.tx.state, t.tx.lane))
    = some (.idle, some (.fe 2 0 true)) := by decide +kernel

theorem test_idlSent : after (exec .idlSent (sends [])) (fun t => t.tx.lane) = some (some .idl)
    ∧ exec .idlSent (sends [.fs 5 16 16]) = .next (sends [.fs 5 16 16]) := ⟨by decide +kernel, rfl⟩

/-- The four sources of a payload, with a line behind that waits with its pixels, and a long line that is not sent. -/
theorem test_hyp_LineSentLeavesWhole :
    (∀ payload ∈ [Payload.leaving, .carried [1], .blank [[2]] 3],
      (sends [.line ⟨.active, 0, payload, []⟩]).tx.sequence = .line ⟨.active, 0, payload, []⟩ :: []
      ∧ payload ≠ .incomplete ∧ longLineOpen (sends [.line ⟨.active, 0, payload, []⟩]) = false)
    ∧ longLineOpen (inLine .frame .active (List.replicate 49 0)) = true
    ∧ longLineOpen (inLine .frame .active (List.replicate 48 0)) = false
    ∧ ([.fe 0 0 false, .line ⟨.active, 1, .carried [7], []⟩] : List OutItem)
      = [.fe 0 0 false] ++ .line ⟨.active, 1, .carried [7], []⟩ :: [] := by decide +kernel

theorem test_lineSent : after (exec .lineSent { sends [.line ⟨.active, 0, .leaving, [9]⟩, .line ⟨.active, 1, .carried [7], []⟩] with
      comp := { Compositor.reset with leaving := some [8] } }) (fun t => (t.tx.lane, t.comp.leaving, t.tx.activeSent))
      = some (some (.line .active 0 [8, 9]), some [7], 1)
    ∧ after (exec .lineSent (sends [.line ⟨.blank, 0, .blank [[2]] 3, []⟩])) (fun t => (t.tx.lane, t.tx.blankSent))
      = some (some (.line .blank 0 [2, 0, 0]), 1) := by decide +kernel

/-! ## The return relay -/

/-- A packet of a node downstream. -/
def downstream : Packet := sealPacket 9 4 7 0x80 [2, 0]

/-- A relay that has received the given bytes, with packets in its FIFO and a relayed packet in sending. -/
def receives (bytes : List Byte) (waiting : Nat) : State :=
  { State.reset with relay := { Relay.reset with
      receiving := some bytes, fifo := List.replicate waiting downstream, sending := some (.relayed downstream) } }

theorem test_hyp_ReturnLaneReception :
    (receives [] 0).relay.receiving = some [] ∧ State.reset.relay.receiving = none
    ∧ returnPacketGood [0xC3] = false ∧ (receives [0xC3] 0).relay.receiving = some [0xC3]
    ∧ returnPacketGood downstream = true ∧ (receives downstream 3).relay.receiving = some downstream
    ∧ (receives downstream 3).relay.fifo.length < 4 ∧ 4 ≤ (receives downstream 4).relay.fifo.length := by decide +kernel

theorem test_returnPacketEnd : after (exec .returnPacketEnd (receives downstream 0)) (fun t => t.relay.fifo) = some [downstream]
    ∧ [receives downstream 4, receives [0xC3] 0].map (fun s => after (exec .returnPacketEnd s)
        (fun t => (t.counter .relayOverflow, t.counter .relayBadCrc))) = [some (1, 0), some (0, 1)] := by decide +kernel

theorem test_returnPacketStart : after (exec .returnPacketStart State.reset) (fun t => t.relay.receiving) = some (some []) := by
  decide +kernel

theorem test_returnPacketByte : after (exec (.returnPacketByte 0xC3) (receives [] 0)) (fun t => t.relay.receiving)
    = some (some [0xC3]) := by decide +kernel

theorem test_returnSignalLoss : after (exec .returnSignalLoss (receives [0xC3] 0)) (fun t => (t.relay.receiving, t.counter .relayBadCrc))
    = some (none, 1) := by decide +kernel

/-- A node's own packet in sending, noted, with both queues holding a packet. -/
def bothWait (last : Served) : State :=
  { State.reset with
    agent := { Agent.reset with replies := [⟨sealPacket 0 3 9 0x80 [2, 0], .reply, true⟩] }
    relay := { Relay.reset with
      fifo := [downstream], lastServed := last, sending := some (.own ⟨sealPacket 0 3 8 0x81 [1], .notice, true⟩) } }

theorem test_hyp_LaneFreeSelectsNext : ∀ last ∈ [Served.relay, .reply],
    (bothWait last).relay.sending = some (.own ⟨sealPacket 0 3 8 0x81 [1], .notice, true⟩)
    ∧ (bothWait last).relay.fifo = downstream :: []
    ∧ (bothWait last).agent.replies = ⟨sealPacket 0 3 9 0x80 [2, 0], .reply, true⟩ :: []
    ∧ (bothWait last).relay.lastServed = last ∧ State.reset.relay.fifo = [] ∧ State.reset.agent.replies = [] := by
  decide +kernel

theorem test_laneFree : [Served.relay, .reply].map (fun last => after (exec .laneFree (bothWait last))
      (fun t => (t.relay.lastServed, t.relay.lane)))
    = [some (.reply, some (sealPacket 0 3 8 0x81 [1])), some (.relay, some (sealPacket 0 3 8 0x81 [1]))] := by decide +kernel

/-! ## What every step keeps

Each of these states has a command waiting that changes the state. -/

/-- A RETURN_PACKET_START waits. -/
def starts (s : State) : State := { s with pending := [.returnPacketStart] }

/-- The one step of such a state. -/
theorem starts_step (s : State) :
    step (starts s) = .next { s with pending := [], relay := { s.relay with receiving := some [] } } := rfl

theorem test_hyp_StoreStaysCanonical : StoreCanonical { loading .loading with pending := [.glyphLoadComplete] }
    ∧ after (step { loading .loading with pending := [.glyphLoadComplete] }) (fun t => t.glyphs.bytes)
      = some [(0, 0xA5), (1, 0x5A)] := by
  unfold StoreCanonical
  decide +kernel

theorem test_hyp_QueuesStayBounded_full :
    QueuesBounded { receives downstream 4 with relay := { (receives downstream 4).relay with lastServed := .relay } } :=
  ⟨by decide, by decide, by decide, fun h => absurd h (by decide), fun _ _ h => (by cases h), rfl⟩

/-- A good packet ends while the lane is FREE: its send begins at once. -/
def lastByteOnFreeLane : State :=
  { State.reset with pending := [.returnPacketEnd], relay := { Relay.reset with receiving := some downstream } }

theorem test_hyp_QueuesStayBounded : QueuesBounded lastByteOnFreeLane
    ∧ after (step lastByteOnFreeLane) (fun t => (t.relay.sending, t.relay.lastServed)) = some (some (.relayed downstream), .relay) :=
  ⟨⟨by decide, by decide, by decide, fun h => absurd h (by decide), fun _ _ h => (by cases h), rfl, rfl⟩, by decide +kernel⟩

/-- The reply that is due makes the owner's context ACTIVE in the step. -/
theorem test_hyp_LeasesAndCommitsStaySound_known : SourcesKnown { claimActed with pending := [.claim] }
    ∧ after (step { claimActed with pending := [.claim] }) (fun t => (t.context 3).state) = some .active :=
  ⟨test_hyp_FrameStartMarksItems_known.2, by decide +kernel⟩

theorem test_hyp_LeasesAndCommitsStaySound : LeasesSound (starts twoCommits) ∧ CommitsSound (starts twoCommits) := by
  have h : ∀ l, (((starts twoCommits).ownership l).owner = none ∧ ((starts twoCommits).ownership l).length = 0
        ∧ ((starts twoCommits).ownership l).remaining = 0)
      ∨ (((starts twoCommits).ownership l).owner.isSome ∧ 1 ≤ ((starts twoCommits).ownership l).remaining
        ∧ ((starts twoCommits).ownership l).remaining ≤ ((starts twoCommits).ownership l).length
        ∧ ((starts twoCommits).ownership l).length ≤ 4095) := by decide +kernel
  constructor
  · intro l
    rcases h l with ⟨ho, h⟩ | ⟨ho, h⟩
    · rw [ho]
      exact h
    · obtain ⟨src, hs⟩ := Option.isSome_iff_exists.mp ho
      rw [hs]
      exact h
  · unfold CommitsSound
    decide +kernel

theorem test_hyp_ValuesStayInRange :
    RecordsInRange (starts (showing (inFrame .frame))) ∧ StatusInRange (starts (showing (inFrame .frame))) :=
  ⟨showing_recordsInRange, reset_statusInRange _ rfl rfl⟩

theorem test_hyp_ReferencesStayCounted : ReferencesCounted (starts (inFrame .frame)) := reset_referencesCounted _ rfl rfl

theorem test_hyp_SoundDirectoryNeverStops :
    DirectorySound (starts (loading .loading)) ∧ RecordsInRange (starts (loading .loading)) :=
  ⟨withGlyph_directorySound .loading (some (.load testRun)) (.inr rfl), reset_recordsInRange _ rfl⟩

theorem test_hyp_NotesStaySound_contexts : ContextsSound (starts marked) := by
  have h : ∀ src, (((starts marked).context src).state = .unknown ∧ (starts marked).context src = Context.empty)
      ∨ (((starts marked).context src).state = .active ∧ ((starts marked).context src).lastSeq.isSome
        ∧ ((starts marked).context src).cached.isSome) := by decide +kernel
  intro src
  rcases h src with ⟨hs, h⟩ | ⟨hs, h⟩ <;> rw [hs] <;> exact h

theorem test_hyp_NotesStaySound_notes : NotesSound (starts marked) := by
  have hn : ∀ src, (ownTraffic (starts marked)).countP (notedFor .reply src)
        = (if ((starts marked).context src).cachedQueued then 1 else 0)
      ∧ (ownTraffic (starts marked)).countP (notedFor .notice src)
        = (if ((starts marked).context src).noticeOutstanding then 1 else 0) := by decide +kernel
  have hc : ∀ src, ((starts marked).context src).cached = none
      ∨ src = 3 ∧ ((starts marked).context src).cached = some (sealPacket 0 3 9 0x80 [2, 0]) := by decide +kernel
  intro src
  refine ⟨(hn src).1, (hn src).2, fun p hp => ?_, fun q hq => (by cases hq)⟩
  rcases hc src with h | ⟨rfl, h⟩
  · rw [h] at hp
    cases hp
  · rw [h] at hp
    cases hp
    decide +kernel

theorem test_hyp_ReceiverStaysSound :
    ReceiverSound { inFrame .frame with pending := [.signalLoss] } ∧ StatusInRange { inFrame .frame with pending := [.signalLoss] } :=
  ⟨inFrame_receiverSound .frame (.inl rfl), reset_statusInRange _ rfl rfl⟩

theorem test_hyp_LinesStaySound : LinesSound { inLine .frame .active [1] with pending := [.dataByte 0] } := by
  refine ⟨fun h => absurd h (by decide), ⟨⟨[.fs 5 16 16], rfl, rfl⟩, ⟨rfl, ⟨0, [1], []⟩, rfl, rfl, rfl, fun _ h => by cases h⟩⟩, rfl⟩

end Sys2Proof.Machine
end

section
/-! SUPPORT. Layer ownership and leases: what CLAIM and RELEASE do to each layer and answer (R80 to R82). -/

namespace Sys2Proof.Machine.LayerOwnership

/-! ## The parts of a mask -/

/-- The layers of a mask that a source owns (R81, R82). -/
def ownPart (s : State) (src : SourceId) (mask : Word) : Word :=
  maskOf (fun l => namesLayer mask l && decide ((s.ownership l).owner = some src))

/-- The layers of a mask that another source owns (R80). -/
def othersPart (s : State) (src : SourceId) (mask : Word) : Word :=
  maskOf (fun l => namesLayer mask l && (s.ownership l).owner.isSome && !decide ((s.ownership l).owner = some src))

theorem mask_and_ownedMask (s : State) (src : SourceId) (mask : Word) :
    mask &&& s.ownedMask src = ownPart s src mask :=
  mask_ext fun l => by simp [ownPart]

theorem mask_and_not_ownedMask (s : State) (src : SourceId) (mask : Word) :
    mask &&& ~~~(s.ownedMask src) = mask &&& ~~~(ownPart s src mask) :=
  mask_ext fun l => by cases h : namesLayer mask l <;> simp [ownPart, h]

theorem mask_and_takenByOthers (s : State) (src : SourceId) (mask : Word) :
    mask &&& (s.takenMask &&& ~~~(s.ownedMask src)) = othersPart s src mask :=
  mask_ext fun l => by simp [othersPart, Bool.and_assoc]

/-! ## A request that changes ownership fields alone -/

/-- A state with other ownership fields. -/
def reowned (o : Vector Ownership 16) (s : State) : State := { s with layers := { s.layers with ownership := o } }

/-- The state in which a command executes the request that it carries through: taken, with the command's extent used (R144). -/
def executing (p : Packet) (rest : List Packet) (s : State) : State :=
  heldBy p .execute rest { s with extents := s.extents.tail }

/-- A command that carries through a request whose own rule changes ownership fields alone: the request is answered as its rule
says, and of the rest of the part only those fields differ (R144, R152). -/
theorem addressedStep_reowned {k : Byte} {p : Packet} {rest : List Packet} {s : State} {rule : Rule}
    (h : Takes k p rest s) (hk : k ∈ requestKinds) (hl : lengthAccepted k (packetPayload p) = true)
    (hf : Fresh (requestOf p) s) (hr : ∀ r v, (rule r v).1 = reowned (rule r v).1.layers.ownership v) :
    let v := executing p rest s
    let t := commanded (addressedStep k rule) s
    Answered s (requestOf p) rest (rule (requestOf p) v).2 t
    ∧ (∀ l, t.ownership l = (rule (requestOf p) v).1.ownership l)
    ∧ OnlyAgentAndRelay (reowned t.layers.ownership s) t := by
  intro v t
  let a := (rule (requestOf p) v).2
  let o := (rule (requestOf p) v).1.layers.ownership
  have ht : t = placeReply (requestOf p) a (release (reowned o v)) := by
    rw [← hr (requestOf p) v]
    exact addressedStep_takes h rule hk hl hf
  obtain ⟨hin, hbusy, hlast, hgrant, hown, hrel, hrec, hlane, hctx⟩ := placeReply_spec (requestOf p) a (release (reowned o v))
  have helse := placeReply_elsewhere (requestOf p) a (release (reowned o v))
  have hframe := placeReply_frame (requestOf p) a (release (reowned o v))
  rw [← ht] at hin hbusy hlast hgrant hown hrel hrec hlane hctx helse hframe
  obtain ⟨-, hextents, -, hsorter, hlayers, -⟩ := hframe
  have ho : t.layers.ownership = o := by rw [hlayers]; rfl
  have hsorter : t.sorter = s.sorter := hsorter
  refine ⟨⟨hin, hbusy, hlast, hgrant, hextents, ?_, hrel, hrec, hlane, ?_, fun src hs => ?_⟩, ownership_congr ho, ?_⟩
  · rw [hsorter]
    exact hown
  · rw [hctx, if_pos rfl, hsorter]
    rfl
  · rw [hctx, if_neg hs]
    rfl
  · rw [ho]
    exact congrArg (fun u : State => { u with agent := s.agent, relay := s.relay, extents := s.extents }) helse

/-! ## CLAIM (R80, R81) -/

/-- CLAIM's own rule, its masks said layer by layer. -/
theorem claimRule_eq (r : Request) (s : State) :
    let mask : Word := BitVec.ofNat 16 (field r.payload 0 2)
    let lease := field r.payload 2 2
    let mine := ownPart s r.source mask
    claimRule r s =
      if mask = 0 then (s, ⟨.field, [1]⟩)
      else if lease = 0 ∨ 4095 < lease then (s, ⟨.field, [2]⟩)
      else if othersPart s r.source mask ≠ 0 then (s, ⟨.claimed, maskBytes (othersPart s r.source mask)⟩)
      else (claimLayers r.source mask lease s,
        ⟨.ok, maskBytes mask ++ maskBytes (mask &&& ~~~mine) ++ maskBytes mine ++ beBytes 2 lease⟩) := by
  intro mask lease mine
  unfold claimRule
  dsimp only
  rw [mask_and_takenByOthers, mask_and_not_ownedMask, mask_and_ownedMask]
  rfl

theorem claimRule_answer (r : Request) (s : State) :
    let mask : Word := BitVec.ofNat 16 (field r.payload 0 2)
    let lease := field r.payload 2 2
    let mine := ownPart s r.source mask
    let others := othersPart s r.source mask
    (claimRule r s).2 =
      if mask = 0 then ⟨.field, [1]⟩
      else if lease = 0 ∨ 4095 < lease then ⟨.field, [2]⟩
      else if others ≠ 0 then ⟨.claimed, maskBytes others⟩
      else ⟨.ok, maskBytes mask ++ maskBytes (mask &&& ~~~mine) ++ maskBytes mine ++ beBytes 2 lease⟩ := by
  intro mask lease mine others
  rw [claimRule_eq]
  simp only [apply_ite Prod.snd]
  rfl

/-- A claim that passes its checks grants every layer of the mask, and a refused one none (R80, R81). -/
theorem ownership_claimRule (r : Request) (s : State) (l : LayerId) :
    let mask : Word := BitVec.ofNat 16 (field r.payload 0 2)
    let lease := field r.payload 2 2
    (claimRule r s).1.ownership l =
      if mask ≠ 0 ∧ 1 ≤ lease ∧ lease ≤ 4095 ∧ othersPart s r.source mask = 0 ∧ namesLayer mask l = true then
        ⟨some r.source, lease, lease⟩
      else s.ownership l := by
  intro mask lease
  rw [claimRule_eq]
  by_cases hmask : mask = 0
  · rw [if_pos hmask, if_neg (fun h => h.1 hmask)]
  rw [if_neg hmask]
  by_cases hlease : lease = 0 ∨ 4095 < lease
  · rw [if_pos hlease, if_neg (fun ⟨_, h1, h2, _⟩ => by omega)]
  rw [if_neg hlease]
  by_cases hothers : othersPart s r.source mask = 0
  · rw [if_neg (not_not_intro hothers)]
    have hin : 1 ≤ lease ∧ lease ≤ 4095 := by omega
    rw [ownership_claimLayers]
    by_cases hl : namesLayer mask l = true
    · rw [if_pos hl, if_pos ⟨hmask, hin.1, hin.2, hothers, hl⟩]
    · rw [if_neg hl, if_neg (fun ⟨_, _, _, _, h⟩ => hl h)]
  · rw [if_pos hothers, if_neg (fun ⟨_, _, _, h, _⟩ => hothers h)]

/-- A claim changes nothing but ownership fields, whether it is granted or not. -/
theorem claimRule_rest (r : Request) (s : State) :
    (claimRule r s).1 = reowned (claimRule r s).1.layers.ownership s := by
  unfold claimRule
  dsimp only
  split
  · rfl
  · split
    · rfl
    · split
      · rfl
      · exact claimLayers_rest _ _ _ _

/-- Settles O27: the claim's own rule, put through the agent's steps with an addressed request. -/
theorem claimGrantsAllOrNothing : Obligations.ClaimGrantsAllOrNothing := by
  unfold Obligations.ClaimGrantsAllOrNothing
  intro s p rest htakes hlen hfresh
  obtain ⟨hanswered, hownership, honly⟩ := addressedStep_reowned htakes (by decide)
    (by rw [← lengthOk_eq_lengthAccepted]; exact decide_eq_true hlen) hfresh claimRule_rest
  exact ⟨_, rfl, claimRule_answer (requestOf p) (executing p rest s) ▸ hanswered,
    fun l => (hownership l).trans (ownership_claimRule (requestOf p) _ l), honly⟩

/-! ## RELEASE (R82) -/

/-- RELEASE's own rule, its masks said layer by layer. -/
theorem releaseRule_eq (r : Request) (s : State) :
    let mask : Word := BitVec.ofNat 16 (field r.payload 0 2)
    let mine := ownPart s r.source mask
    releaseRule r s =
      if mask = 0 then (s, ⟨.field, [1]⟩)
      else (releaseLayers mine s, ⟨.ok, maskBytes mine ++ maskBytes (mask &&& ~~~mine)⟩) := by
  intro mask mine
  unfold releaseRule
  dsimp only
  rw [mask_and_not_ownedMask, mask_and_ownedMask]
  rfl

theorem releaseRule_answer (r : Request) (s : State) :
    let mask : Word := BitVec.ofNat 16 (field r.payload 0 2)
    let mine := ownPart s r.source mask
    (releaseRule r s).2 =
      if mask = 0 then ⟨.field, [1]⟩ else ⟨.ok, maskBytes mine ++ maskBytes (mask &&& ~~~mine)⟩ := by
  intro mask mine
  rw [releaseRule_eq]
  exact apply_ite Prod.snd _ _ _

/-- The layers of the mask that the requester owns become unowned; of an empty mask there is none (R82). -/
theorem ownership_releaseRule (r : Request) (s : State) (l : LayerId) :
    let mask : Word := BitVec.ofNat 16 (field r.payload 0 2)
    (releaseRule r s).1.ownership l =
      if namesLayer mask l = true ∧ (s.ownership l).owner = some r.source then ⟨none, 0, 0⟩ else s.ownership l := by
  intro mask
  rw [releaseRule_eq]
  by_cases hmask : mask = 0
  · rw [if_pos hmask, if_neg (fun h => by simp [(mask_eq_zero_iff mask).mp hmask l] at h)]
  · rw [if_neg hmask]
    simp [ownership_releaseLayers, ownPart, mask]

/-- A release changes nothing but ownership fields. -/
theorem releaseRule_rest (r : Request) (s : State) :
    (releaseRule r s).1 = reowned (releaseRule r s).1.layers.ownership s := by
  unfold releaseRule
  dsimp only
  split
  · rfl
  · exact releaseLayers_rest _ _

/-- Settles O28: the release's own rule, put through the agent's steps with an addressed request. -/
theorem releaseFreesOwnedLayers : Obligations.ReleaseFreesOwnedLayers := by
  unfold Obligations.ReleaseFreesOwnedLayers
  intro s p rest htakes hlen hfresh
  obtain ⟨hanswered, hownership, honly⟩ := addressedStep_reowned htakes (by decide)
    (by rw [← lengthOk_eq_lengthAccepted]; exact decide_eq_true hlen) hfresh releaseRule_rest
  exact ⟨_, rfl, releaseRule_answer (requestOf p) (executing p rest s) ▸ hanswered,
    fun l => (hownership l).trans (ownership_releaseRule (requestOf p) _ l), honly⟩

end Sys2Proof.Machine.LayerOwnership
end

section
/-! SUPPORT. The expiry of a lease (R85 to R88), and that no expiry meets an owner whose context is not ACTIVE (R87, R145). -/

namespace Sys2Proof.Machine.LeaseExpiry

/-! ## What the expiry of a layer does to each part (R85, R87, R88) -/

theorem ownership_expireLayer (action : ExpiryAction) (src : SourceId) (l k : LayerId) (frame : Word) (s : State) :
    (expireLayer action src l frame s).ownership k = if k = l then ⟨none, 0, 0⟩ else s.ownership k :=
  (congrArg Prod.fst (layerView_expireLayer action src l k frame s)).trans (apply_ite Prod.fst _ _ _)

/-- Only the HIDE action touches the records, and only those of the layer (R85). -/
theorem records_expireLayer (action : ExpiryAction) (src : SourceId) (l k : LayerId) (frame : Word) (s : State) :
    let hide := decide (k = l) && decide (action = .hide)
    (expireLayer action src l frame s).pendingRecord k = hidden hide (s.pendingRecord k)
    ∧ (expireLayer action src l frame s).activeRecord k = hidden hide (s.activeRecord k) := by
  have hview := congrArg Prod.snd (layerView_expireLayer action src l k frame s)
  change ((expireLayer action src l frame s).pendingRecord k, (expireLayer action src l frame s).activeRecord k) = _ at hview
  rw [← Prod.mk.injEq, hview]
  by_cases hk : k = l
  · simp [hk]
  · simp [hk, hidden, layerView]

theorem expireLayer_commits (action : ExpiryAction) (src : SourceId) (l : LayerId) (frame : Word) (s : State) :
    (expireLayer action src l frame s).layers.commits = s.layers.commits := by
  unfold expireLayer recordFirstExpiry
  cases action <;> (dsimp only; split) <;> rfl

/-- The first-expiry record is written only where it is empty (R88). -/
theorem expireLayer_firstExpiry (action : ExpiryAction) (src : SourceId) (l : LayerId) (frame : Word) (s : State) :
    (expireLayer action src l frame s).layers.firstExpiry = some (s.layers.firstExpiry.getD ⟨src, l, frame⟩) := by
  have hrecord : ∀ t : State, (recordFirstExpiry src l frame t).layers.firstExpiry
      = some (t.layers.firstExpiry.getD ⟨src, l, frame⟩) := by
    intro t
    unfold recordFirstExpiry
    cases h : t.layers.firstExpiry with
    | none => rfl
    | some e => exact h
  unfold expireLayer
  cases action <;> exact hrecord _

/-- The mark of an expiry reaches the former owner's context alone, and only where that is ACTIVE (R87, R150). -/
theorem context_expireLayer (action : ExpiryAction) (src k : SourceId) (l : LayerId) (frame : Word) (s : State) :
    (expireLayer action src l frame s).context k
      = if k = src ∧ (s.context k).state = .active then
          { s.context k with leaseItem := some (leaseMark l frame (s.context k).leaseItem) }
        else s.context k := by
  have hmark : ∀ t : State, t.agent = s.agent → (recordFirstExpiry src l frame (markLeaseExpired src l frame t)).context k
      = (markLeaseExpired src l frame s).context k := by
    intro t ht
    rw [context_congr (congrArg Agent.contexts (recordFirstExpiry_frame src l frame _).2.2.2.2.1)]
    simp [State.context, markLeaseExpired, markContext, State.modifyContext, ht]
  have hexpire : (expireLayer action src l frame s).context k = (markLeaseExpired src l frame s).context k := by
    unfold expireLayer
    cases action <;> exact hmark _ rfl
  rw [hexpire, markLeaseExpired, markContext, context_modifyContext]
  by_cases hk : k = src
  · rw [if_pos hk]
    simp only [hk, true_and]
  · rw [if_neg hk, if_neg (fun h => hk h.1)]

/-- An expiry changes nothing outside the layer table and the contexts. -/
theorem expireLayer_rest (action : ExpiryAction) (src : SourceId) (l : LayerId) (frame : Word) (s : State) :
    let t := expireLayer action src l frame s
    { t with layers := s.layers, agent := { t.agent with contexts := s.agent.contexts } } = s := by
  unfold expireLayer recordFirstExpiry
  cases action <;> (dsimp only; split) <;> rfl

theorem leaseMark_eq (l : LayerId) (frame : Word) (item : Option LeaseItem) :
    leaseMark l frame item = ⟨(match item with | none => 0 | some i => i.mask) ||| layerBit l, frame⟩ := by
  cases item with
  | none => simp [leaseMark]
  | some i => rfl

/-! ## Owners and their contexts (R87, R150, R152) -/

/-- Every owner of a layer has an ACTIVE context, but for the source whose first reply is due, where there is one (R152). -/
def OwnersActive (due : Option SourceId) (s : State) : Prop :=
  ∀ l src, (s.ownership l).owner = some src → (s.context src).state = .active ∨ due = some src

/-- Where no reply makes a context ACTIVE, the owners that `SourcesKnown` speaks of are ACTIVE already. -/
theorem ownersActive_of_sourcesKnown {s : State} (h : SourcesKnown s)
    (hb : ∀ r a, s.agent.busy ≠ some (.acted r (.executed a))) : OwnersActive none s := by
  intro l src ho
  rcases h src (.inl ⟨l, ho⟩) with hactive | ⟨r, a, hr, -⟩
  · exact .inl hactive
  · exact absurd hr (hb r a)

theorem ownersActive_due_of_sourcesKnown {s : State} {r : Request} {a : Answer} (h : SourcesKnown s)
    (hb : s.agent.busy = some (.acted r (.executed a))) : OwnersActive (some r.source) s := by
  intro l src ho
  refine (h src (.inl ⟨l, ho⟩)).imp_right fun ⟨r', a', hr, hsrc⟩ => ?_
  rw [hb] at hr
  cases hr
  rw [hsrc]

theorem OwnersActive.weaken {s : State} (h : OwnersActive none s) (due : Option SourceId) : OwnersActive due s :=
  fun l src ho => .inl ((h l src ho).resolve_right (by simp))

/-- What changes no context and gives layers to nobody but the source whose reply is due keeps the owners' contexts. -/
theorem OwnersActive.of_owners {due : Option SourceId} {s t : State} (h : OwnersActive none s)
    (hc : t.agent.contexts = s.agent.contexts)
    (ho : ∀ l src, (t.ownership l).owner = some src → (s.ownership l).owner = some src ∨ due = some src) :
    OwnersActive due t := by
  intro l src hl
  rw [context_congr hc]
  rcases ho l src hl with hs | hdue
  · exact h.weaken due l src hs
  · exact .inr hdue

theorem OwnersActive.congr {due : Option SourceId} {s t : State} (h : OwnersActive none s)
    (hc : t.agent.contexts = s.agent.contexts) (ho : t.layers.ownership = s.layers.ownership) : OwnersActive due t :=
  h.of_owners hc fun l src hl => .inl (by rwa [ownership_congr ho] at hl)

/-- Where no layer is owned there is nothing to ask. -/
theorem ownersActive_of_unowned {due : Option SourceId} {t : State} (h : ∀ l, (t.ownership l).owner = none) :
    OwnersActive due t :=
  fun l src ho => by simp [h l] at ho

/-! ## The reply (R148, R151, R152) -/

/-- The reply of an executed request makes its source's context ACTIVE, and no other context differs. -/
theorem ownersActive_placeReply {r : Request} {s : State} (a : Answer) (h : OwnersActive (some r.source) s) :
    OwnersActive none (placeReply r a s) := by
  obtain ⟨-, -, -, -, -, -, -, -, hctx⟩ := placeReply_spec r a s
  intro l src ho
  rw [ownership_congr (by simp : (placeReply r a s).layers.ownership = s.layers.ownership)] at ho
  rw [hctx]
  by_cases hs : src = r.source
  · exact .inl (by rw [if_pos hs])
  · rw [if_neg hs]
    exact .inl ((h l src ho).resolve_right fun hd => hs (Option.some.inj hd).symm)

theorem ownersActive_placeDue (r : Request) (due : DueReply) {s : State} (h : OwnersActive none s) :
    OwnersActive none (placeDue r due s) := by
  cases due with
  | executed a => exact ownersActive_placeReply a (h.weaken _)
  | refused st =>
    obtain ⟨-, -, -, -, hctx, -⟩ := placeUncached_spec r st s
    exact h.congr hctx (by simp [placeDue])
  | copied q =>
    obtain ⟨-, -, -, -, -, -, -, -, hctx⟩ := placeCopy_spec r q s
    intro l src ho
    rw [ownership_congr (by simp : (placeDue r (.copied q) s).layers.ownership = s.layers.ownership)] at ho
    have hstate : ((placeCopy r q s).context src).state = (s.context src).state := by
      rw [hctx]
      split <;> rfl
    exact (h l src ho).imp_left hstate.trans

/-! ## A request from its own action to its reply (R145, R152) -/

/-- What the own action of the request `r` leaves: every owner's context is ACTIVE, or the reply that is due makes the one ACTIVE
that is not. -/
def Acted (r : Request) (t : State) : Prop :=
  OwnersActive none t
  ∨ ∃ a, t.agent.busy = some (.acted r (.executed a)) ∧ OwnersActive (some r.source) t

theorem ownersActive_replyRequest {serves : Request → Bool} {r : Request} {t : State} (hs : serves r = true)
    (h : Acted r t) : OwnersActive none (replyRequest serves t) := by
  rcases h with h | ⟨a, hb, h⟩
  · unfold replyRequest
    split
    · exact h
    · exact h
    · exact h
    · split
      · exact ownersActive_placeDue _ _ (h.congr rfl rfl)
      · exact h
  · unfold replyRequest
    rw [hb]
    dsimp only
    rw [if_pos hs]
    exact ownersActive_placeReply a h

/-- A row's own action keeps the owners' contexts ACTIVE as `Acted` says. -/
def ActsSoundly (execute : Packet → State → State) : Prop :=
  ∀ p s, OwnersActive none s → Acted (requestOf p) (execute p s)

theorem acted_actRequest {accepts : Packet → Bool} {execute : Packet → State → State} {p : Packet} {j : Judgement}
    {s : State} (hx : ActsSoundly execute) (hb : s.agent.busy = some (.taken p j)) (h : OwnersActive none s) :
    Acted (requestOf p) (actRequest accepts execute s) := by
  unfold actRequest
  rw [hb]
  dsimp only
  split
  · cases j with
    | execute => exact hx p s h
    | discarded => exact .inl (h.congr rfl rfl)
    | refused st => exact .inl (h.congr rfl rfl)
    | duplicate copy => cases copy <;> exact .inl (h.congr rfl rfl)
  · exact .inl h

/-- The agent's steps with a request that it has taken leave every owner's context ACTIVE, once the reply is placed. -/
def CompletesSoundly (steps : Config.Extent → State → State) : Prop :=
  ∀ s p j, s.agent.busy = some (.taken p j) → OwnersActive none s → OwnersActive none (steps .replied s)

theorem requestStep_completesSoundly (serves : Request → Bool) (castable : Bool) {execute : Packet → State → State}
    (hx : ActsSoundly execute) : CompletesSoundly (requestStep serves castable execute) := by
  intro s p j hb h
  cases hs : serves (requestOf p) with
  | false =>
    rw [requestStep_other hb (.inr hs)]
    exact h
  | true =>
    unfold requestStep
    dsimp only
    rw [takeRequest_busy _ (by simp [hb])]
    exact ownersActive_replyRequest hs (acted_actRequest hx hb h)

/-- A request's own rule gives layers to no source but the requester. -/
def GrantsToRequester (rule : Rule) : Prop :=
  ∀ r s, OwnersActive none s → OwnersActive (some r.source) (rule r s).1

theorem acted_runRule {rule : Rule} (hr : GrantsToRequester rule) (r : Request) {s : State} (h : OwnersActive none s) :
    Acted r (runRule rule r s) :=
  .inr ⟨(rule r s).2, rfl, hr r s h⟩

theorem addressedStep_completesSoundly (k : Byte) {rule : Rule} (hr : GrantsToRequester rule) :
    CompletesSoundly (addressedStep k rule) :=
  requestStep_completesSoundly _ _ fun p _ h => acted_runRule hr (requestOf p) h

theorem eitherStep_completesSoundly (serves : Request → Bool) {rule : Rule} {effect : Request → State → State}
    (hr : GrantsToRequester rule) (he : ∀ r s, OwnersActive none s → OwnersActive none (effect r s)) :
    CompletesSoundly (eitherStep serves rule effect) := by
  refine requestStep_completesSoundly _ _ fun p s h => ?_
  split
  · exact .inl ((he (requestOf p) s h).congr rfl rfl)
  · exact acted_runRule hr (requestOf p) h

/-! ## The rules of the kinds -/

/-- A rule that leaves ownership and contexts as they are gives no layer. -/
theorem grantsToRequester_of_keeps {rule : Rule}
    (hk : ∀ r s, (rule r s).1.agent.contexts = s.agent.contexts ∧ (rule r s).1.layers.ownership = s.layers.ownership) :
    GrantsToRequester rule :=
  fun r s h => h.congr (hk r s).1 (hk r s).2

theorem identifyRule_grants : GrantsToRequester identifyRule := grantsToRequester_of_keeps fun _ _ => ⟨rfl, rfl⟩

theorem glyphQueryRule_grants : GrantsToRequester glyphQueryRule := grantsToRequester_of_keeps fun _ _ => ⟨rfl, rfl⟩

theorem assignRule_grants : GrantsToRequester assignRule := grantsToRequester_of_keeps fun r s => by
  unfold assignRule
  dsimp only
  split <;> exact ⟨rfl, rfl⟩

theorem configWriteRule_grants : GrantsToRequester configWriteRule := grantsToRequester_of_keeps fun r s => by
  unfold configWriteRule
  dsimp only
  split <;> exact ⟨rfl, rfl⟩

theorem statusReadRule_grants : GrantsToRequester statusReadRule := grantsToRequester_of_keeps fun r s => by
  unfold statusReadRule statusClears
  dsimp only
  (repeat' split) <;> exact ⟨rfl, rfl⟩

theorem layerReadRule_grants : GrantsToRequester layerReadRule := grantsToRequester_of_keeps fun r s => by
  unfold layerReadRule
  dsimp only
  (repeat' split) <;> exact ⟨rfl, rfl⟩

theorem commitRule_grants : GrantsToRequester commitRule := grantsToRequester_of_keeps fun r s => by
  unfold commitRule
  dsimp only
  (repeat' split) <;> exact ⟨rfl, rfl⟩

theorem commitBroadcast_ownersActive (r : Request) (s : State) (h : OwnersActive none s) :
    OwnersActive none (commitBroadcast r s) := by
  unfold commitBroadcast
  dsimp only
  split <;> exact h.congr rfl rfl

theorem glyphDefineRule_grants : GrantsToRequester glyphDefineRule := grantsToRequester_of_keeps fun r s => by
  unfold glyphDefineRule defineGlyph
  dsimp only
  (repeat' split) <;> exact ⟨rfl, rfl⟩

theorem glyphDeleteRule_grants : GrantsToRequester glyphDeleteRule := grantsToRequester_of_keeps fun r s => by
  unfold glyphDeleteRule
  dsimp only
  (repeat' split) <;> exact ⟨rfl, rfl⟩

theorem startLoad_actsSoundly : ActsSoundly (fun p => startLoad (requestOf p)) := by
  intro p s h
  dsimp only
  unfold startLoad
  split <;> exact .inl (h.congr rfl rfl)

/-- A claim gives layers to the requester alone (R81). -/
theorem claimRule_grants : GrantsToRequester claimRule := by
  intro r s h
  refine h.of_owners (by rw [LayerOwnership.claimRule_rest]; rfl) fun l src ho => ?_
  rw [LayerOwnership.ownership_claimRule] at ho
  split at ho
  · exact .inr ho
  · exact .inl ho

/-- A release gives no layer (R82). -/
theorem releaseRule_grants : GrantsToRequester releaseRule := by
  intro r s h
  refine h.of_owners (by rw [LayerOwnership.releaseRule_rest]; rfl) fun l src ho => ?_
  rw [LayerOwnership.ownership_releaseRule] at ho
  split at ho
  · cases ho
  · exact .inl ho

theorem ownership_replacePending (l k : LayerId) (r : LayerRecord) (s : State) :
    (replacePending l r s).ownership k = s.ownership k :=
  ownership_congr (by simp [replacePending]) k

/-- A renewal changes the owner of no layer (R83). -/
theorem owner_renew (l k : LayerId) (s : State) : ((renew l s).ownership k).owner = (s.ownership k).owner := by
  rw [renew, ownership_setOwnership]
  split
  · next hk => rw [hk]
  · rfl

/-- A LAYER_WRITE renews a lease, and no owner changes (R10, R83). -/
theorem layerWriteRule_grants : GrantsToRequester layerWriteRule := by
  intro r s h
  unfold layerWriteRule
  dsimp only
  (repeat' split) <;> try exact h.weaken _
  refine h.of_owners (by simp) fun l src ho => .inl ?_
  rwa [owner_renew, ownership_replacePending] at ho

/-- A RESET that is executed leaves no layer owned (R24). -/
theorem resetTablesRule_ownersActive {due : Option SourceId} (r : Request) (s : State) (h : OwnersActive none s) :
    OwnersActive due (resetTablesRule r s).1 := by
  unfold resetTablesRule
  split
  · exact ownersActive_of_unowned fun l => by
      simp [State.ownership, resetTables, resetLayerTable, LayerTable.reset, Ownership.unowned]
  · exact h.weaken due

theorem resetNodeRule_ownersActive {due : Option SourceId} (r : Request) (s : State) (h : OwnersActive none s) :
    OwnersActive due (resetNodeRule r s).1 := by
  unfold resetNodeRule
  split
  · exact ownersActive_of_unowned fun l => by
      simp [State.ownership, resetNode, emptyFirstExpiry, resetLayerTable, LayerTable.reset, Ownership.unowned]
  · exact h.weaken due

/-! ## The completion before a FRAME_START (R145) -/

theorem kindSteps_completesSoundly {k : Byte × (Config.Extent → State → State)} (hm : k ∈ kindSteps) :
    CompletesSoundly k.2 := by
  simp only [kindSteps, List.mem_cons, List.not_mem_nil, or_false] at hm
  rcases hm with rfl | rfl | rfl | rfl | rfl | rfl | rfl | rfl | rfl | rfl | rfl | rfl | rfl
  · exact addressedStep_completesSoundly _ identifyRule_grants
  · exact addressedStep_completesSoundly _ assignRule_grants
  · exact addressedStep_completesSoundly _ configWriteRule_grants
  · exact addressedStep_completesSoundly _ statusReadRule_grants
  · exact addressedStep_completesSoundly _ claimRule_grants
  · exact addressedStep_completesSoundly _ releaseRule_grants
  · exact addressedStep_completesSoundly _ layerWriteRule_grants
  · exact addressedStep_completesSoundly _ layerReadRule_grants
  · exact eitherStep_completesSoundly (fun r => r.kind == kindCommit) commitRule_grants commitBroadcast_ownersActive
  · exact addressedStep_completesSoundly _ glyphDefineRule_grants
  · exact requestStep_completesSoundly isGlyphLoad false startLoad_actsSoundly
  · exact addressedStep_completesSoundly _ glyphDeleteRule_grants
  · exact addressedStep_completesSoundly _ glyphQueryRule_grants

theorem unknownKindSteps_completesSoundly : CompletesSoundly unknownKindSteps :=
  requestStep_completesSoundly _ false (execute := fun _ s => s) fun _ _ h => .inl h

theorem requestSteps_completesSoundly (r : Request) : CompletesSoundly (requestSteps r) := by
  unfold requestSteps
  split
  · split
    · exact eitherStep_completesSoundly _ (fun r t => resetNodeRule_ownersActive r t) resetNodeRule_ownersActive
    · exact eitherStep_completesSoundly _ (fun r t => resetTablesRule_ownersActive r t) resetTablesRule_ownersActive
  · cases hf : kindSteps.find? (fun k => k.1 == r.kind) with
    | none => exact unknownKindSteps_completesSoundly
    | some k => exact kindSteps_completesSoundly (List.mem_of_find?_eq_some hf)

/-- Once the request in execution is complete, the context of every owner is ACTIVE (R87, R145, R152). -/
theorem completeRequest_ownersActive {s : State} (h : SourcesKnown s) : OwnersActive none (completeRequest s) := by
  cases hb : s.agent.busy with
  | none =>
    rw [completeRequest_between (.inl hb)]
    exact ownersActive_of_sourcesKnown h (by simp [hb])
  | some x =>
    cases x with
    | load run =>
      rw [completeRequest_between (.inr ⟨run, hb⟩)]
      exact ownersActive_of_sourcesKnown h (by simp [hb])
    | taken p j =>
      have hc : completeRequest s = requestSteps (requestOf p) .replied s := by
        unfold completeRequest
        rw [hb]
      rw [hc]
      exact requestSteps_completesSoundly _ s p j hb (ownersActive_of_sourcesKnown h (by simp [hb]))
    | acted r due =>
      rw [completeRequest_acted hb]
      cases due with
      | executed a =>
        have hdue : OwnersActive (some r.source) s := ownersActive_due_of_sourcesKnown h hb
        exact ownersActive_placeReply (s := release s) a hdue
      | refused st => exact ownersActive_placeDue _ _ ((ownersActive_of_sourcesKnown h (by simp [hb])).congr rfl rfl)
      | copied q => exact ownersActive_placeDue _ _ ((ownersActive_of_sourcesKnown h (by simp [hb])).congr rfl rfl)

/-! ## LEASE_EXPIRY (R85) -/

/-- The command expires a layer that is owned with a remaining lease of 1 once the request in execution is complete. -/
theorem exec_leaseExpiry_due {s : State} {l : LayerId} {src : SourceId} (frame : Word)
    (ho : ((completeRequest s).ownership l).owner = some src) (hr : ((completeRequest s).ownership l).remaining = 1) :
    exec (.leaseExpiry l frame) s
      = .next (expireLayer (completeRequest s).status.settings.expiryAction src l frame (completeRequest s)) := by
  change execLeaseExpiry l frame s = _
  unfold execLeaseExpiry expireDue
  rw [ho]
  simp only [hr, if_true]

/-- For any other layer the command leaves the state as it is (log 1). -/
theorem exec_leaseExpiry_notDue {s : State} {l : LayerId} (frame : Word)
    (h : ((completeRequest s).ownership l).owner = none ∨ ((completeRequest s).ownership l).remaining ≠ 1) :
    exec (.leaseExpiry l frame) s = .next s := by
  have hdue : expireDue l frame (completeRequest s) = none := by
    unfold expireDue
    rcases h with h | h
    · rw [h]
    · split
      · rfl
      · rw [if_neg h]
  change execLeaseExpiry l frame s = _
  unfold execLeaseExpiry
  rw [hdue]

/-- Settles O14: the parts of the expiry of a layer, and the owner's context ACTIVE once the request in execution is complete. -/
theorem leaseExpiryFreesLayer : Obligations.LeaseExpiryFreesLayer := by
  unfold Obligations.LeaseExpiryFreesLayer
  intro s l f u
  refine ⟨completeRequest_completed s, fun src ho hr => ?_, exec_leaseExpiry_notDue f⟩
  have hhides : hides u l = decide (u.status.settings.expiryAction = .hide) := by simp [hides, expiring, ho, hr]
  have hrecords := fun k => records_expireLayer u.status.settings.expiryAction src l k f u
  rw [← hhides] at hrecords
  refine ⟨_, exec_leaseExpiry_due f ho hr, ?_, fun k hk => ?_, fun k => (hrecords k).1, fun k => (hrecords k).2,
    expireLayer_commits .., expireLayer_firstExpiry .., fun hactive => ?_, fun k hk => ?_, fun hknown => ?_,
    expireLayer_rest ..⟩
  · rw [ownership_expireLayer, if_pos rfl]
  · rw [ownership_expireLayer, if_neg hk]
  · rw [context_expireLayer, if_pos ⟨rfl, hactive⟩]
    exact congrArg (fun item => { u.context src with leaseItem := some item }) (leaseMark_eq l f _)
  · rw [context_expireLayer, if_neg]
    rintro ⟨rfl, hactive⟩
    rcases hk with hk | hk
    · exact hk rfl
    · exact absurd (hk.symm.trans hactive) (by decide)
  · exact (completeRequest_ownersActive hknown l src ho).resolve_right (by simp)

end Sys2Proof.Machine.LeaseExpiry
end

section
/-! SUPPORT. The items of the forward lane at the receiver (R93 to R105, R118): what each one changes, and what it leaves alone. -/

namespace Sys2Proof.Machine.StreamFraming

/-! ## Items that no frame takes (R93, R96, R104) -/

/-- Settles O8: the arms of HUNT and GAP, and of IDL. -/
theorem itemsOutsideFrameDiscarded : Obligations.ItemsOutsideFrameDiscarded := by
  unfold Obligations.ItemsOutsideFrameDiscarded
  refine ⟨fun _ => rfl, fun s kind index b hlock => ?_, fun s a b x hlock => ?_⟩
  · change execLs kind index s = _ ∧ execDataByte b s = _
    unfold execLs execDataByte
    rcases hlock with hlock | hlock <;> rw [hlock] <;> exact ⟨rfl, rfl⟩
  · change execFe a b x s = _
    unfold execFe
    rw [hlock]

/-! ## What an item leaves alone -/

/-- What an FS, an FE, and the end of an open line with them leave alone (R99, R100, R104), before any FRAME_START: all but the
receiver, the line in progress, the output sequence and state, the inbound queue and the counters. -/
def outsideItem (s : State) : State :=
  { s with
    rx := Receiver.reset
    comp := { Compositor.reset with geometry := s.comp.geometry }
    tx := { s.tx with sequence := [], state := .idle }
    sorter := { s.sorter with line := none }
    agent := { s.agent with inbound := [] }
    status := { s.status with counters := NodeStatus.reset.counters }
    freeDraws := 0 }

/-- The counters that the close of a blank line counts in (R131, R133). -/
def closeCounters : List Counter := [.pktConsumed, .pktForwarded, .pktBadCrc, .pktMalformed, .reqOverflow]

/-- In the words of the statements: what such an item leaves alone. -/
theorem of_outsideItem {s t : State} (h : outsideItem t = outsideItem s) :
    t.comp.geometry = s.comp.geometry ∧ t.agent.contexts = s.agent.contexts ∧ t.status.settings = s.status.settings
    ∧ { t.tx with sequence := s.tx.sequence, state := s.tx.state } = s.tx
    ∧ ((∀ c, c = .lockLosses ∨ c = .reqDuplicate ∨ c = .relayOverflow ∨ c = .relayBadCrc → t.counter c = s.counter c)
        → StreamFrame s t) := by
  have hview : ∀ {α : Type} (f : State → α), f (outsideItem t) = f (outsideItem s) := fun f => congrArg f h
  refine ⟨hview fun u => u.comp.geometry, hview fun u => u.agent.contexts, hview fun u => u.status.settings,
    hview fun u => { u.tx with sequence := s.tx.sequence, state := s.tx.state }, fun hc => ⟨?_, hc⟩⟩
  exact hview fun u => { u with
    rx := s.rx, comp := s.comp, tx := s.tx, sorter := { u.sorter with line := s.sorter.line }
    agent := { u.agent with inbound := s.agent.inbound, contexts := s.agent.contexts }
    status := { u.status with counters := s.status.counters }, freeDraws := s.freeDraws }

/-! ## Faults (R105) -/

theorem firstFault_rx (k : FaultKind) (s : State) :
    (firstFault k s).rx = if s.rx.faulted then s.rx else { s.rx with lastFault := some k, faulted := true } := by
  unfold firstFault
  split <;> rfl

theorem firstFault_counter (k : FaultKind) (s : State) (c : Counter) :
    (firstFault k s).counter c
      = if s.rx.faulted = false ∧ c = .framesFaulted then saturate (s.counter c) 1 else s.counter c := by
  unfold firstFault
  cases hf : s.rx.faulted
  · rw [if_neg (by simp), counter_bump]
    simp only [true_and]
    rfl
  · simp

@[simp] theorem firstFault_outsideItem (k : FaultKind) (s : State) : outsideItem (firstFault k s) = outsideItem s := by
  unfold firstFault
  split <;> rfl

@[simp] theorem faultToRaw_outsideItem (k : FaultKind) (s : State) : outsideItem (faultToRaw k s) = outsideItem s := by
  unfold faultToRaw
  split
  · exact firstFault_outsideItem k s
  · rfl
  · rfl
  · rfl

/-! ## The close of a line that proved short (R73, R131, R133) -/

theorem sendCounts_counter (n : LineCounts) (s : State) {c : Counter} (hc : c ∉ closeCounters) :
    (sendCounts n s).counter c = s.counter c := by
  simp only [closeCounters, List.mem_cons, List.not_mem_nil, or_false, not_or] at hc
  obtain ⟨h1, h2, h3, h4, -⟩ := hc
  simp only [sendCounts, counter_bump, h1, h2, h3, h4, if_false]

theorem offerRequests_outsideItem (ps : List Packet) (s : State) :
    outsideItem (ps.foldl offerRequest s) = outsideItem s :=
  foldl_keeps outsideItem offerRequest (fun t p => by unfold offerRequest; split <;> rfl) ps s

theorem offerRequests_frame (ps : List Packet) (s : State) :
    (ps.foldl offerRequest s).rx = s.rx ∧ (ps.foldl offerRequest s).tx = s.tx :=
  ⟨foldl_keeps State.rx offerRequest (fun t p => by simp) ps s,
    foldl_keeps State.tx offerRequest (fun t p => by simp) ps s⟩

theorem sendCounts_outsideItem (n : LineCounts) (s : State) : outsideItem (sendCounts n s) = outsideItem s := by
  have hbump : ∀ c k (t : State), outsideItem (bump c k t) = outsideItem t := fun _ _ _ => rfl
  simp only [sendCounts, hbump]

/-- Everything that the close of a blank line does: nothing, with no line record; else its packets are offered, its item is
completed, its counts are sent and its record is gone. -/
theorem closeBlank_spec (received : Nat) (s : State) :
    closeBlank received s = s
    ∨ ∃ (ps : List Packet) (p : Payload) (n : LineCounts), closeBlank received s
        = cutBlank (sendCounts n (completeLine p (ps.foldl offerRequest s))) := by
  unfold closeBlank
  split
  · exact .inl rfl
  · exact .inr ⟨_, _, _, rfl⟩

theorem closeBlank_outsideItem (received : Nat) (s : State) : outsideItem (closeBlank received s) = outsideItem s := by
  rcases closeBlank_spec received s with h | ⟨ps, p, n, h⟩ <;> rw [h]
  exact (sendCounts_outsideItem n _).trans (offerRequests_outsideItem ps s)

theorem closeBlank_rx (received : Nat) (s : State) : (closeBlank received s).rx = s.rx := by
  rcases closeBlank_spec received s with h | ⟨ps, p, n, h⟩ <;> rw [h]
  simp [offerRequests_frame]

theorem closeBlank_counter (received : Nat) (s : State) {c : Counter} (hc : c ∉ closeCounters) :
    (closeBlank received s).counter c = s.counter c := by
  rcases closeBlank_spec received s with h | ⟨ps, p, n, h⟩ <;> rw [h]
  exact (sendCounts_counter n _ hc).trans (offerRequests_counter ps s c fun h => hc (by simp [closeCounters, h]))

theorem placeHandedOver_outsideItem (bytes : List Byte) (s : State) :
    outsideItem (placeHandedOver bytes s) = outsideItem s := by
  unfold placeHandedOver
  split <;> rfl

theorem finishShort_outsideItem (l : OpenLine) (s : State) : outsideItem (finishShort l s) = outsideItem s := by
  unfold finishShort
  cases l.kind with
  | active => exact placeHandedOver_outsideItem _ (clearArriving s)
  | blank => exact closeBlank_outsideItem l.count s

theorem finishShort_rx (l : OpenLine) (s : State) : (finishShort l s).rx = s.rx := by
  unfold finishShort
  cases l.kind with
  | active => simp
  | blank => exact closeBlank_rx l.count s

theorem finishShort_counter (l : OpenLine) (s : State) {c : Counter} (hc : c ∉ closeCounters) :
    (finishShort l s).counter c = s.counter c := by
  unfold finishShort
  cases l.kind with
  | active => exact counter_congr (by simp) c
  | blank => exact closeBlank_counter l.count s hc

/-- The close of a line completes its item of the output sequence, and changes nothing else of the transmitter (R115). -/
theorem finishShort_tx (l : OpenLine) (s : State) :
    (finishShort l s).tx = s.tx
    ∨ ∃ p, (finishShort l s).tx = { s.tx with sequence := s.tx.sequence.map (completeItem p) } := by
  unfold finishShort
  cases l.kind with
  | active =>
    refine .inr ?_
    dsimp only
    unfold handOverShort placeHandedOver
    split <;> exact ⟨_, rfl⟩
  | blank =>
    refine (closeBlank_spec l.count s).imp (congrArg State.tx) fun ⟨ps, p, n, h⟩ => ⟨p, ?_⟩
    dsimp only
    rw [h, ← (offerRequests_frame ps s).2]
    exact (cutBlank_frame _).2.2.2.2.2.2.2.1.trans (sendCounts_frame n _).2.2.2.2.2.2.2.2.1

/-! ## The end of an open line (R102) -/

/-- No line is open at the receiver any more. -/
def withoutLine (s : State) : State := { s with rx := { s.rx with openLine := none } }

/-- A line that has reached its 3·W bytes ends with nothing to close. -/
theorem endOpenLine_full {s : State} (h : openShort s = false) : endOpenLine s = withoutLine s := by
  unfold openShort at h
  unfold endOpenLine
  cases hl : s.rx.openLine with
  | none =>
    change s = { s with rx := { s.rx with openLine := none } }
    rw [← hl]
  | some l =>
    rw [hl] at h
    dsimp only
    rw [if_neg (of_decide_eq_false h)]
    rfl

/-- A short one is a fault in FRAME, and its line is closed at the bytes received. -/
theorem endOpenLine_short {s : State} (h : openShort s = true) :
    ∃ l, endOpenLine s = withoutLine (finishShort l (faultToRaw .lineLength s)) := by
  unfold openShort at h
  unfold endOpenLine
  cases hl : s.rx.openLine with
  | none => rw [hl] at h; cases h
  | some l =>
    rw [hl] at h
    dsimp only
    rw [if_pos (of_decide_eq_true h)]
    exact ⟨l, rfl⟩

theorem endOpenLine_rx (s : State) :
    (endOpenLine s).rx = { (if openShort s then faultToRaw .lineLength s else s).rx with openLine := none } := by
  cases h : openShort s with
  | false => rw [endOpenLine_full h]; rfl
  | true =>
    obtain ⟨l, hl⟩ := endOpenLine_short h
    rw [hl, if_pos rfl]
    exact congrArg (fun r : Receiver => { r with openLine := none }) (finishShort_rx l _)

theorem endOpenLine_counter (s : State) {c : Counter} (hc : c ∉ closeCounters) :
    (endOpenLine s).counter c = (if openShort s then faultToRaw .lineLength s else s).counter c := by
  cases h : openShort s with
  | false => rw [endOpenLine_full h]; rfl
  | true =>
    obtain ⟨l, hl⟩ := endOpenLine_short h
    rw [hl, if_pos rfl]
    exact finishShort_counter l _ hc

@[simp] theorem endOpenLine_outsideItem (s : State) : outsideItem (endOpenLine s) = outsideItem s := by
  cases h : openShort s with
  | false => rw [endOpenLine_full h]; rfl
  | true =>
    obtain ⟨l, hl⟩ := endOpenLine_short h
    rw [hl]
    exact (finishShort_outsideItem l _).trans (faultToRaw_outsideItem _ s)

theorem endOpenLine_tx (s : State) :
    (endOpenLine s).tx = s.tx ∨ ∃ p, (endOpenLine s).tx = { s.tx with sequence := s.tx.sequence.map (completeItem p) } := by
  cases h : openShort s with
  | false => exact .inl (by rw [endOpenLine_full h]; rfl)
  | true =>
    obtain ⟨l, hl⟩ := endOpenLine_short h
    have htx := finishShort_tx l (faultToRaw .lineLength s)
    rw [(faultToRaw_frame .lineLength s).2.2.2.2.2.2.2.1] at htx
    rw [hl]
    exact htx

theorem isFrameEnd_completeItem (p : Payload) (it : OutItem) : isFrameEnd (completeItem p it) = isFrameEnd it := by
  cases it with
  | line l =>
    unfold completeItem
    dsimp only
    split <;> rfl
  | fs f w h => rfl
  | fe a b x => rfl
  | abortedFe => rfl

/-- The end of a line adds no item to the output sequence, and no frame end; it changes the sequence only where the line is
short (R115, R117). -/
theorem endOpenLine_sequence (s : State) :
    (endOpenLine s).tx.sequence.length = s.tx.sequence.length
    ∧ (endOpenLine s).tx.sequence.any isFrameEnd = s.tx.sequence.any isFrameEnd
    ∧ { (endOpenLine s).tx with sequence := s.tx.sequence } = s.tx
    ∧ (openShort s = false → (endOpenLine s).tx.sequence = s.tx.sequence) := by
  have hfull : openShort s = false → (endOpenLine s).tx.sequence = s.tx.sequence := fun h => by rw [endOpenLine_full h]; rfl
  rcases endOpenLine_tx s with h | ⟨p, h⟩
  · rw [h]
    exact ⟨rfl, rfl, rfl, fun _ => rfl⟩
  · refine ⟨by rw [h, List.length_map], ?_, by rw [h], hfull⟩
    rw [h, List.any_map]
    exact congrArg s.tx.sequence.any (funext (isFrameEnd_completeItem p))

/-! ## An FS (R96, R97, R99, R100) -/

theorem fsInRange_iff (w h : Word) :
    fsInRange w h = true ↔ 16 ≤ w.toNat ∧ w.toNat ≤ 2048 ∧ 16 ≤ h.toNat ∧ h.toNat ≤ 2048 := by
  simp [fsInRange, sizeInRange, and_assoc]

theorem exec_fs_inRange (f : Word) {w h : Word} (hr : fsInRange w h = true) (s : State) :
    exec (.fs f w h) s = .next (frameStart (geometryOf f w h) (fsMeets f w h s)) := by
  change execFs f w h s = _
  unfold execFs
  rw [hr]
  cases s.rx.lock <;> rfl

theorem exec_fs_outOfRange (f : Word) {w h : Word} (hr : fsInRange w h = false) (s : State) :
    exec (.fs f w h) s = .next (match s.rx.lock with
      | .hunt => s
      | .gap => openOutOfRange f w h s
      | .frame => openOutOfRange f w h (supersede s)
      | .raw => openOutOfRange f w h (supersede s)) := by
  change execFs f w h s = _
  unfold execFs
  rw [hr]
  cases s.rx.lock <;> rfl

theorem receiveFs_inFrame (f w h : Word) {s : State} (hin : InFrame s) :
    receiveFs f w h s = acceptFs f w h (supersede s) := by
  unfold receiveFs
  rcases hin with hin | hin <;> rw [hin]

theorem supersede_outsideItem (s : State) : outsideItem (supersede s) = outsideItem s :=
  (firstFault_outsideItem .nestedStart (endOpenLine s)).trans (endOpenLine_outsideItem s)

/-- Inside a frame, RAW and the frame's fault mark are one (R105). -/
theorem faulted_eq {s : State} (hs : ReceiverSound s) (hin : InFrame s) : s.rx.faulted = decide (s.rx.lock = .raw) := by
  obtain ⟨-, -, -, -, -, -, -, hframe, hraw⟩ := hs
  rcases hin with hl | hl
  · rw [(hframe hl).1, hl]
    rfl
  · rw [hraw hl, hl]
    rfl

/-- The old frame's fault is the short line's, or else the nested start's; a faulted frame records none (R99, R105). -/
theorem supersede_rx {s : State} (hs : ReceiverSound s) (hin : InFrame s) :
    (supersede s).rx.lastFault
      = (if s.rx.lock = .frame then some (if openShort s then FaultKind.lineLength else .nestedStart) else s.rx.lastFault)
    ∧ (supersede s).rx.watchdog = s.rx.watchdog := by
  change (firstFault .nestedStart (endOpenLine s)).rx.lastFault = _ ∧ (firstFault .nestedStart (endOpenLine s)).rx.watchdog = _
  rw [firstFault_rx, endOpenLine_rx, apply_ite State.rx, faultToRaw_rx]
  have hfaulted := faulted_eq hs hin
  rcases hin with hl | hl <;> cases openShort s <;> simp [hl, hfaulted]

/-- The old frame counts as faulted once: not again where it was faulted before (R99, R105). -/
theorem supersede_counter {s : State} (hs : ReceiverSound s) (hin : InFrame s) {c : Counter} (hc : c ∉ closeCounters) :
    (supersede s).counter c
      = if s.rx.lock = .frame ∧ c = .framesFaulted then saturate (s.counter c) 1 else s.counter c := by
  change (firstFault .nestedStart (endOpenLine s)).counter c = _
  rw [firstFault_counter, endOpenLine_rx, endOpenLine_counter s hc, apply_ite State.rx, apply_ite (State.counter · c),
    faultToRaw_rx, faultToRaw_counter]
  have hfaulted := faulted_eq hs hin
  rcases hin with hl | hl <;> cases openShort s <;> simp [hl, hfaulted]

/-- The aborted FE stands behind the items of the old frame, and an open output frame is being aborted (R99, R113, R120). -/
theorem supersede_tx (s : State) :
    (∃ pre, (supersede s).tx.sequence = pre ++ [.abortedFe] ∧ pre.length = s.tx.sequence.length
      ∧ (openShort s = false → pre = s.tx.sequence))
    ∧ (supersede s).tx.state
        = (if s.tx.state = .frame ∧ s.tx.sequence.any isFrameEnd = false then OutState.aborting else s.tx.state) := by
  have htx : (firstFault .nestedStart (endOpenLine s)).tx = (endOpenLine s).tx := by simp
  obtain ⟨hlength, hends, hrest, hfull⟩ := endOpenLine_sequence s
  have hstate : (endOpenLine s).tx.state = s.tx.state := by rw [← hrest]
  constructor
  · refine ⟨(endOpenLine s).tx.sequence, ?_, hlength, hfull⟩
    rw [← htx]
    rfl
  · rw [← hends, ← hstate, ← htx]
    rfl

theorem acceptFs_outsideItem (f w h : Word) (s : State) : outsideItem (acceptFs f w h s) = outsideItem s := rfl

theorem openOutOfRange_outsideItem (f w h : Word) (s : State) : outsideItem (openOutOfRange f w h s) = outsideItem s :=
  firstFault_outsideItem .geometry (openFrame f w h s)

/-- The frame of an FS out of range: faulted at once, in RAW, with the watchdog running on (R100). -/
theorem openOutOfRange_rx (f w h : Word) (s : State) :
    (openOutOfRange f w h s).rx
      = { lock := .raw, geometry := some ⟨f, w.toNat, h.toNat⟩, lastFrame := some f, openLine := none,
          expectedActive := 0, expectedBlank := 0, activeSeen := 0, blankSeen := 0, faulted := true,
          lastFault := some .geometry, watchdog := s.rx.watchdog } := rfl

theorem openOutOfRange_counter (f w h : Word) (s : State) (c : Counter) :
    (openOutOfRange f w h s).counter c = if c = .framesFaulted then saturate (s.counter c) 1 else s.counter c :=
  counter_bump c .framesFaulted 1 s

theorem openOutOfRange_tx (f w h : Word) (s : State) :
    (openOutOfRange f w h s).tx = { s.tx with sequence := s.tx.sequence ++ [.fs f w h] } := rfl

/-- The counters that no item of the frame counts in. -/
theorem notItem_notClose {c : Counter} (h : c = .lockLosses ∨ c = .reqDuplicate ∨ c = .relayOverflow ∨ c = .relayBadCrc) :
    c ∉ closeCounters ∧ c ≠ .framesFaulted ∧ c ≠ .framesGood := by
  rcases h with rfl | rfl | rfl | rfl <;> decide

/-- Settles O7: the three lock states in which such an FS opens a frame are GAP, and FRAME and RAW, where it also cuts one. -/
theorem fsOutOfRangePassesInRaw : Obligations.FsOutOfRangePassesInRaw := by
  unfold Obligations.FsOutOfRangePassesInRaw
  intro s f w h hrange hs
  have hexec := exec_fs_outOfRange f (Bool.eq_false_iff.mpr fun hr => hrange ((fsInRange_iff w h).mp hr)) s
  refine ⟨fun hl => by rw [hexec, hl], fun hl => ?_⟩
  have hcases : s.rx.lock = .gap ∨ InFrame s := by
    unfold InFrame
    revert hl
    cases s.rx.lock <;> decide
  rcases hcases with hgap | hin
  · have hnotframe : ¬ InFrame s := fun hin => by rcases hin with h | h <;> simp [hgap] at h
    obtain ⟨hgeo, hctx, -, htx, hframe⟩ := of_outsideItem (openOutOfRange_outsideItem f w h s)
    refine ⟨openOutOfRange f w h s, by rw [hexec, hgap], openOutOfRange_rx f w h s, ?_,
      fun _ => congrArg Transmitter.sequence (openOutOfRange_tx f w h s), fun hin => absurd hin hnotframe,
      htx, hgeo, hctx, hframe fun c hc => ?_⟩
    · rw [openOutOfRange_counter, if_pos rfl, saturate_eq, hgap]
      rfl
    · rw [openOutOfRange_counter, if_neg (notItem_notClose hc).2.1]
  · have hnotgap : s.rx.lock ≠ .gap := fun hgap => by rcases hin with h | h <;> simp [hgap] at h
    obtain ⟨hgeo, hctx, -, htx, hframe⟩ :=
      of_outsideItem ((openOutOfRange_outsideItem f w h (supersede s)).trans (supersede_outsideItem s))
    obtain ⟨⟨pre, hseq, hlength, hpre⟩, -⟩ := supersede_tx s
    refine ⟨openOutOfRange f w h (supersede s), ?_, ?_, ?_, fun hgap => absurd hgap hnotgap,
      fun _ => ⟨pre, ?_, hlength, hpre⟩, htx, hgeo, hctx, hframe fun c hc => ?_⟩
    · rw [hexec]
      rcases hin with hin | hin <;> rw [hin]
    · rw [openOutOfRange_rx, (supersede_rx hs hin).2]
    · rw [openOutOfRange_counter, if_pos rfl, supersede_counter hs hin (by decide), saturate_eq]
      rcases hin with hin | hin
      · simp only [hin, true_and, if_true, saturate_eq]
        omega
      · simp [hin]
    · rw [openOutOfRange_tx, hseq, List.append_assoc]
      rfl
    · obtain ⟨hclose, hfaulted, -⟩ := notItem_notClose hc
      rw [openOutOfRange_counter, if_neg hfaulted, supersede_counter hs hin hclose, if_neg (fun h => hfaulted h.2)]

/-! ## An FE (R104, R105, R118) -/

theorem exec_fe_inFrame {s : State} (hin : InFrame s) (a b : Word) (x : Bool) :
    exec (.fe a b x) s = .next (takeFe a b x s) := by
  change execFe a b x s = _
  unfold execFe
  rcases hin with hin | hin <;> rw [hin]

theorem exec_fe_gap {s : State} (hgap : s.rx.lock = .gap) (a b : Word) (x : Bool) :
    exec (.fe a b x) s = .next (strayEnd s) := by
  change execFe a b x s = _
  unfold execFe
  rw [hgap]

/-- The counts of an FE are those of the lines seen, the active ones being H (R104). -/
abbrev FeCounts (a b : Word) (s : State) : Prop :=
  a.toNat = s.rx.activeSeen ∧ b.toNat = s.rx.blankSeen ∧ some s.rx.activeSeen = s.rx.geometry.map (·.height)

theorem countsAgree_iff (a b : Word) {s : State} (hgeo : s.rx.geometry.isSome) :
    countsAgree a b s = true ↔ FeCounts a b s := by
  obtain ⟨geo, hgeo⟩ := Option.isSome_iff_exists.mp hgeo
  simp [countsAgree, FeCounts, hgeo, and_assoc]

theorem judgeFe_outsideItem (a b : Word) (x : Bool) (s : State) : outsideItem (judgeFe a b x s) = outsideItem s := by
  unfold judgeFe
  (repeat' split) <;> first | rfl | exact firstFault_outsideItem _ s

theorem judgeFe_tx (a b : Word) (x : Bool) (s : State) : (judgeFe a b x s).tx = s.tx := by
  unfold judgeFe
  (repeat' split) <;> simp

/-- The judgement records at most a fault. -/
theorem judgeFe_rx (a b : Word) (x : Bool) (s : State) :
    { (judgeFe a b x s).rx with faulted := s.rx.faulted, lastFault := s.rx.lastFault } = s.rx := by
  unfold judgeFe firstFault
  (repeat' split) <;> rfl

/-- Outside FRAME an FE is not judged (R103). -/
theorem judgeFe_raw (a b : Word) (x : Bool) {s : State} (hl : s.rx.lock = .raw) : judgeFe a b x s = s := by
  unfold judgeFe
  rw [hl]

/-- In FRAME the abort flag is judged first, then the counts; a frame that passes counts as good, any other as faulted (R104). -/
theorem judgeFe_frame (a b : Word) (x : Bool) {s : State} (hl : s.rx.lock = .frame) (hf : s.rx.faulted = false)
    (hgeo : s.rx.geometry.isSome) :
    (judgeFe a b x s).rx.lastFault
      = (if x then some .aborted else if FeCounts a b s then s.rx.lastFault else some .frameLength)
    ∧ ∀ c, (judgeFe a b x s).counter c
      = if c = (if x = false ∧ FeCounts a b s then Counter.framesGood else .framesFaulted) then saturate (s.counter c) 1
        else s.counter c := by
  unfold judgeFe
  rw [hl]
  dsimp only
  cases x with
  | true => simp [firstFault_rx, firstFault_counter, hf]
  | false =>
    by_cases hcounts : FeCounts a b s
    · rw [(countsAgree_iff a b hgeo).mpr hcounts]
      simp [if_pos hcounts, counter_bump]
    · rw [Bool.eq_false_iff.mpr fun h => hcounts ((countsAgree_iff a b hgeo).mp h)]
      simp [if_neg hcounts, firstFault_rx, firstFault_counter, hf]

theorem takeFe_outsideItem (a b : Word) (x : Bool) (s : State) : outsideItem (takeFe a b x s) = outsideItem s :=
  (judgeFe_outsideItem a b x (endOpenLine s)).trans (endOpenLine_outsideItem s)

/-- The FE closes the frame to GAP; of what it had the receiver keeps all but the fault it may record (R104). -/
theorem takeFe_rx (a b : Word) (x : Bool) (s : State) :
    { (takeFe a b x s).rx with faulted := s.rx.faulted, lastFault := s.rx.lastFault }
      = { s.rx with lock := .gap, openLine := none } := by
  have hend : { (endOpenLine s).rx with lock := .gap, faulted := s.rx.faulted, lastFault := s.rx.lastFault }
      = { s.rx with lock := .gap, openLine := none } := by
    rw [endOpenLine_rx, apply_ite State.rx, faultToRaw_rx]
    (repeat' split) <;> rfl
  rw [← hend]
  exact congrArg (fun r : Receiver => { r with lock := .gap, faulted := s.rx.faulted, lastFault := s.rx.lastFault })
    (judgeFe_rx a b x (endOpenLine s))

/-- In RAW the FE is not judged; in FRAME a short open line is the fault, and with none the FE is judged (R102, R104, R105). -/
theorem takeFe_judged (a b : Word) (x : Bool) {s : State} (hs : ReceiverSound s) (hin : InFrame s) :
    (takeFe a b x s).rx.lastFault
      = (if s.rx.lock = .raw then s.rx.lastFault
        else if openShort s then some .lineLength
        else if x then some .aborted
        else if FeCounts a b s then s.rx.lastFault else some .frameLength)
    ∧ ∀ c ∉ closeCounters, (takeFe a b x s).counter c
      = if s.rx.lock = .frame
          ∧ c = (if openShort s = false ∧ x = false ∧ FeCounts a b s then Counter.framesGood else .framesFaulted) then
          saturate (s.counter c) 1
        else s.counter c := by
  change (judgeFe a b x (endOpenLine s)).rx.lastFault = _
    ∧ ∀ c ∉ closeCounters, (judgeFe a b x (endOpenLine s)).counter c = _
  have hrx := endOpenLine_rx s
  have hcounter := fun c hc => endOpenLine_counter s (c := c) hc
  have hfaulted := faulted_eq hs hin
  rcases hin with hl | hl
  · obtain ⟨-, -, -, -, -, hlocked, -⟩ := hs
    cases hshort : openShort s with
    | true =>
      rw [hshort, if_pos rfl, faultToRaw_rx, if_pos hl] at hrx
      rw [judgeFe_raw a b x (by rw [hrx]), hrx]
      refine ⟨by simp [hl, hfaulted], fun c hc => ?_⟩
      rw [hcounter c hc, hshort, if_pos rfl, faultToRaw_counter]
      simp [hl, hfaulted]
    | false =>
      obtain ⟨hfault, hcount⟩ := judgeFe_frame a b x (s := withoutLine s) hl (hfaulted.trans (by rw [hl]; rfl))
        (hlocked (by simp [hl])).1
      rw [endOpenLine_full hshort, if_neg (by simp [hl]), if_neg Bool.false_ne_true]
      refine ⟨hfault, fun c _ => (hcount c).trans ?_⟩
      simp only [hl, true_and]
      rfl
  · rw [apply_ite State.rx, faultToRaw_rx] at hrx
    have hlast : (endOpenLine s).rx = { s.rx with openLine := none } := by rw [hrx]; simp [hl]
    rw [judgeFe_raw a b x (by rw [hlast]; exact hl), hlast]
    refine ⟨by simp [hl], fun c hc => ?_⟩
    rw [hcounter c hc, apply_ite (State.counter · c), faultToRaw_counter]
    simp [hl]

theorem takeFe_tx (a b : Word) (x : Bool) (s : State) :
    (takeFe a b x s).tx = { (endOpenLine s).tx with sequence := (endOpenLine s).tx.sequence ++ [.fe a b x] } := by
  rw [← judgeFe_tx a b x (endOpenLine s)]
  rfl

theorem countedGood_iff {p : Prop} [Decidable p] :
    (Counter.framesGood = if p then Counter.framesGood else .framesFaulted) ↔ p := by
  split <;> simp_all

theorem countedFaulted_iff {p : Prop} [Decidable p] :
    (Counter.framesFaulted = if p then Counter.framesGood else .framesFaulted) ↔ ¬p := by
  split <;> simp_all

/-- Settles O11: the FE's judgement, its place behind the items of the frame, and the stray FE. -/
theorem feJudgedByFlagAndCounts : Obligations.FeJudgedByFlagAndCounts := by
  unfold Obligations.FeJudgedByFlagAndCounts
  intro s a b x hs
  refine ⟨fun hin => ?_, fun hgap => ?_⟩
  · obtain ⟨hfault, hcount⟩ := takeFe_judged a b x hs hin
    have hrx : ∀ {α : Type} (f : Receiver → α), f _ = f _ := fun f => congrArg f (takeFe_rx a b x s)
    obtain ⟨-, hctx, -, -, hframe⟩ := of_outsideItem (takeFe_outsideItem a b x s)
    obtain ⟨hlength, -, hrest, hfull⟩ := endOpenLine_sequence s
    refine ⟨takeFe a b x s, exec_fe_inFrame hin a b x, hrx Receiver.lock, hrx Receiver.openLine, hrx Receiver.watchdog,
      hrx Receiver.geometry, hrx Receiver.lastFrame, hfault, ?_, ?_,
      ⟨(endOpenLine s).tx.sequence, ?_, hlength, hfull⟩, ?_, hctx, hframe fun c hc => ?_⟩
    · rw [hcount .framesGood (by decide), saturate_eq]
      simp only [countedGood_iff]
    · rw [hcount .framesFaulted (by decide), saturate_eq]
      simp only [countedFaulted_iff]
    · rw [takeFe_tx]
    · rw [takeFe_tx]
      exact hrest
    · obtain ⟨hclose, hfaulted, hgood⟩ := notItem_notClose hc
      rw [hcount c hclose, if_neg]
      rintro ⟨-, hcounted⟩
      split at hcounted
      · exact hgood hcounted
      · exact hfaulted hcounted
  · refine ⟨strayEnd s, exec_fe_gap hgap a b x, rfl, ?_, fun c hc => ?_, rfl⟩
    · exact (counter_bump _ _ _ _).trans (by rw [if_pos rfl, saturate_eq]; rfl)
    · exact (counter_bump _ _ _ _).trans (if_neg hc)

end Sys2Proof.Machine.StreamFraming
end

section
/-! SUPPORT. An FS in range: the frame that it opens or supersedes, and what its FRAME_START leaves alone (R96 to R99, R145). -/

namespace Sys2Proof.Machine.StreamFraming

/-! ## What a FRAME_START leaves alone (R7, R17, R19, R51, R87) -/

/-- An entry without its reference count. -/
def uncounted (g : Glyph) : Glyph := { g with refs := 0 }

/-- What the layer table's work at a FRAME_START leaves alone: all but the layer table itself, the reference counts of entries,
and the commit-applied and lease-expired items of contexts. -/
def beyondFrameStart (s : State) : State :=
  { s with
    layers := LayerTable.reset
    glyphs := { s.glyphs with entries := mapVec (Option.map uncounted) s.glyphs.entries }
    agent := { s.agent with contexts := mapVec clearSourceItems s.agent.contexts } }

theorem mapVec_modifyVec {α β : Type} {n : Nat} (f : α → β) (v : Vector α n) (i : Fin n) (g : α → α)
    (h : ∀ a, f (g a) = f a) : mapVec f (modifyVec v i g) = mapVec f v := by
  ext j hj
  rw [mapVec_get, mapVec_get, modifyVec_get v i ⟨j, hj⟩]
  split
  · exact h _
  · rfl

theorem modifyEntry_beyondFrameStart (e : GlyphId) (f : Glyph → Glyph) (s : State) (h : ∀ g, uncounted (f g) = uncounted g) :
    beyondFrameStart (s.modifyEntry e (Option.map f)) = beyondFrameStart s := by
  have hentries := mapVec_modifyVec (Option.map uncounted) s.glyphs.entries e (Option.map f) fun g => by
    cases g with
    | none => rfl
    | some g => exact congrArg some (h g)
  exact congrArg (fun entries => { beyondFrameStart s with glyphs := { s.glyphs with entries := entries } }) hentries

theorem markContext_beyondFrameStart (src : SourceId) (f : Context → Context) (s : State)
    (h : ∀ c, clearSourceItems (f c) = clearSourceItems c) :
    beyondFrameStart (markContext src f s) = beyondFrameStart s := by
  have hcontexts := mapVec_modifyVec clearSourceItems s.agent.contexts src
    (fun c => if c.state = .active then f c else c) fun c => by
      split
      · exact h c
      · rfl
  exact congrArg (fun contexts => { beyondFrameStart s with agent := { s.agent with contexts := contexts } }) hcontexts

theorem markLeaseExpired_beyondFrameStart (src : SourceId) (l : LayerId) (frame : Word) (s : State) :
    beyondFrameStart (markLeaseExpired src l frame s) = beyondFrameStart s := by
  unfold markLeaseExpired
  exact markContext_beyondFrameStart src _ s fun _ => rfl

theorem markCommitApplied_beyondFrameStart (src : SourceId) (tag frame mask : Word) (s : State) :
    beyondFrameStart (markCommitApplied src tag frame mask s) = beyondFrameStart s := by
  unfold markCommitApplied
  exact markContext_beyondFrameStart src _ s fun _ => rfl

theorem replaceActive_beyondFrameStart (l : LayerId) (r : LayerRecord) (s : State) :
    beyondFrameStart (replaceActive l r s) = beyondFrameStart s := by
  have hadd : ∀ e t, beyondFrameStart (addRef e t) = beyondFrameStart t := by
    intro e t
    cases e with
    | none => rfl
    | some e => exact modifyEntry_beyondFrameStart e _ t fun _ => rfl
  have hdrop : ∀ e t, beyondFrameStart (dropRef e t) = beyondFrameStart t := by
    intro e t
    cases e with
    | none => rfl
    | some e => exact modifyEntry_beyondFrameStart e _ t fun _ => rfl
  change beyondFrameStart (adjustRefs (s.activeRecord l) r s) = _
  unfold adjustRefs
  split
  · rfl
  · rw [hadd, hdrop]

theorem expireLayer_beyondFrameStart (action : ExpiryAction) (src : SourceId) (l : LayerId) (frame : Word) (s : State) :
    beyondFrameStart (expireLayer action src l frame s) = beyondFrameStart s := by
  have hrecord : ∀ t, beyondFrameStart (recordFirstExpiry src l frame t) = beyondFrameStart t := by
    intro t
    unfold recordFirstExpiry
    split <;> rfl
  unfold expireLayer
  rw [hrecord, markLeaseExpired_beyondFrameStart]
  cases action <;> rfl

theorem countdown_beyondFrameStart (frame : Word) (s : State) : beyondFrameStart (countdown frame s) = beyondFrameStart s := by
  refine foldl_keeps beyondFrameStart _ (fun t l => ?_) layerIds s
  unfold countdownLayer
  split
  · rfl
  · split
    · exact expireLayer_beyondFrameStart ..
    · rfl

theorem copies_beyondFrameStart (frame : Word) (s : State) : beyondFrameStart (copies frame s) = beyondFrameStart s := by
  refine foldl_keeps beyondFrameStart (copyEntry frame) (fun t c => ?_) s.layers.commits s
  refine (markCommitApplied_beyondFrameStart ..).trans ?_
  exact foldl_keeps beyondFrameStart copyLayer (fun t l => replaceActive_beyondFrameStart l _ t) _ t

theorem frameStartLayers_beyondFrameStart (frame : Word) (s : State) :
    beyondFrameStart (frameStartLayers frame s) = beyondFrameStart s := by
  have hempty : ∀ t : State, beyondFrameStart { t with layers := { t.layers with commits := [] } } = beyondFrameStart t :=
    fun _ => rfl
  unfold frameStartLayers
  dsimp only
  rw [hempty, copies_beyondFrameStart, countdown_beyondFrameStart]

/-- In the words of the statements: what the FRAME_START leaves alone. -/
theorem frameStartFrame_of_beyond (geo : Geometry) {u t : State} (h : beyondFrameStart t = beyondFrameStart u) :
    FrameStartFrame geo u (frameStartCompositor geo t) := by
  have hview : ∀ {α : Type} (f : State → α), f (beyondFrameStart t) = f (beyondFrameStart u) := fun f => congrArg f h
  refine ⟨hview fun x => { x.comp with geometry := some geo }, fun e => ?_, fun src => ?_, ?_⟩
  · have hentry : ∀ s : State, (beyondFrameStart s).entry e = (s.entry e).map uncounted :=
      fun s => mapVec_get (Option.map uncounted) s.glyphs.entries e.val e.isLt
    exact (hentry t).symm.trans ((hview fun x => x.entry e).trans (hentry u))
  · have hcontext : ∀ s : State, (beyondFrameStart s).context src = clearSourceItems (s.context src) :=
      fun s => mapVec_get clearSourceItems s.agent.contexts src.val src.isLt
    exact (hcontext t).symm.trans ((hview fun x => x.context src).trans (hcontext u))
  · exact hview fun x => { x with
      comp := u.comp, layers := u.layers
      agent := { x.agent with contexts := u.agent.contexts }
      glyphs := { x.glyphs with entries := u.glyphs.entries } }

theorem frameStart_frame (geo : Geometry) (u : State) :
    (frameStart geo u).layers.commits = [] ∧ FrameStartFrame geo u (frameStart geo u) :=
  ⟨rfl, frameStartFrame_of_beyond geo (frameStartLayers_beyondFrameStart geo.frame u)⟩

/-! ## An FS in range (R96 to R99, R145) -/

/-- The completion of a request changes nothing of the receiver but the last fault kind, and nothing of compositor and
transmitter. -/
theorem completeRequest_stream (v : State) :
    { (completeRequest v).rx with lastFault := v.rx.lastFault } = v.rx ∧ (completeRequest v).tx = v.tx
    ∧ (completeRequest v).comp = v.comp := by
  have h := completeRequest_outside v
  refine ⟨?_, congrArg (fun o => o.2.2.1.2) h, congrArg (fun o => o.2.2.1.1) h⟩
  have hrx : { (completeRequest v).rx with lastFault := none } = { v.rx with lastFault := none } :=
    congrArg (fun o => o.1.2.2.1) h
  exact congrArg (fun r : Receiver => { r with lastFault := v.rx.lastFault }) hrx

/-- The receiver after an FS in range: a fresh frame in FRAME, with the watchdog loaded (R96, R97, R106). -/
theorem acceptFs_rx (f w h : Word) (s : State) :
    (acceptFs f w h s).rx
      = { lock := .frame, geometry := some ⟨f, w.toNat, h.toNat⟩, lastFrame := some f, openLine := none,
          expectedActive := 0, expectedBlank := 0, activeSeen := 0, blankSeen := 0, faulted := false,
          lastFault := s.rx.lastFault, watchdog := some s.status.settings.frameTimeout } := rfl

theorem markListener_rest (f : Context → Context) (s : State) :
    { markListener f s with agent := { (markListener f s).agent with contexts := s.agent.contexts } } = s := by
  unfold markListener
  split <;> rfl

/-- A mark of the listener's LOCK item touches nothing else of any context. -/
theorem context_markListener_lock (mark : Option LockItem → LockItem) (s : State) (src : SourceId) :
    (markListener (fun c => { c with lockItem := some (mark c.lockItem) }) s).context src
      = if s.status.settings.listener = some src ∧ (s.context src).state = .active then
          { s.context src with lockItem := some (mark (s.context src).lockItem) }
        else s.context src := by
  unfold markListener
  cases hl : s.status.settings.listener with
  | none => rw [if_neg (by simp)]
  | some k =>
    dsimp only
    rw [markContext, context_modifyContext]
    by_cases hk : src = k
    · simp [hk]
    · rw [if_neg hk, if_neg (fun h => hk (Option.some.inj h.1).symm)]

/-- What the receiver's part of an FS in range does in HUNT and GAP: the frame opens, and in HUNT the relock is marked. -/
theorem receiveFs_outside {s : State} (f w h : Word) (hl : s.rx.lock = .hunt ∨ s.rx.lock = .gap) :
    receiveFs f w h s = acceptFs f w h s ∨ receiveFs f w h s = markRelock f (acceptFs f w h s) := by
  unfold receiveFs
  rcases hl with hl | hl <;> rw [hl]
  · exact .inr rfl
  · exact .inl rfl

/-- Settles O3: the receiver's part, the completion of the request in execution, and the FRAME_START, one after the other. -/
theorem fsInRangeOpensFrame : Obligations.FsInRangeOpensFrame := by
  unfold Obligations.FsInRangeOpensFrame
  intro s f w h hw hw' hh hh' hl u
  obtain ⟨hcommits, hstart⟩ := frameStart_frame (geometryOf f w h) u
  obtain ⟨hurx, hutx, hucomp⟩ := completeRequest_stream (receiveFs f w h s)
  have hv : { receiveFs f w h s with agent := { (receiveFs f w h s).agent with contexts := s.agent.contexts } }
        = acceptFs f w h s
      ∧ ∀ src, { (receiveFs f w h s).context src with lockItem := none } = { s.context src with lockItem := none } := by
    rcases receiveFs_outside f w h hl with hv | hv <;> rw [hv]
    · exact ⟨rfl, fun _ => rfl⟩
    · refine ⟨markListener_rest _ (acceptFs f w h s), fun src => ?_⟩
      rw [markRelock, context_markListener_lock]
      split <;> rfl
  have hcomp := congrArg State.comp hv.1
  exact ⟨receiveFs f w h s, _, exec_fs_inRange f ((fsInRange_iff w h).mpr ⟨hw, hw', hh, hh'⟩) s, hv.1, hv.2,
    completeRequest_completed _, hurx, hutx, hucomp.trans hcomp, hcommits, hstart⟩

/-- Settles O6: the old frame closed as for any nested start, then the new one opened as by any FS in range. -/
theorem nestedStartClosesOldFrame : Obligations.NestedStartClosesOldFrame := by
  unfold Obligations.NestedStartClosesOldFrame
  intro s f w h hw hw' hh hh' hin hs u
  obtain ⟨hcommits, hstart⟩ := frameStart_frame (geometryOf f w h) u
  obtain ⟨hurx, hutx, hucomp⟩ := completeRequest_stream (receiveFs f w h s)
  obtain ⟨-, hctx, -, htx, hframe⟩ :=
    of_outsideItem ((acceptFs_outsideItem f w h (supersede s)).trans (supersede_outsideItem s))
  obtain ⟨-, -, hsettings, -, -⟩ := of_outsideItem (supersede_outsideItem s)
  obtain ⟨⟨pre, hseq, hlength, hpre⟩, hstate⟩ := supersede_tx s
  have hv : receiveFs f w h s = acceptFs f w h (supersede s) := receiveFs_inFrame f w h hin
  rw [← hv] at hctx htx hframe
  have hcounter : ∀ c ∉ closeCounters, (receiveFs f w h s).counter c
      = if s.rx.lock = .frame ∧ c = .framesFaulted then saturate (s.counter c) 1 else s.counter c := fun c hc => by
    rw [hv]
    exact supersede_counter hs hin hc
  refine ⟨receiveFs f w h s, _, exec_fs_inRange f ((fsInRange_iff w h).mpr ⟨hw, hw', hh, hh'⟩) s, ?_, ?_,
    ⟨pre, ?_, hlength, hpre⟩, htx, ?_, hctx, hframe fun c hc => ?_, completeRequest_completed _, hurx, hutx, hucomp,
    hcommits, hstart⟩
  · rw [hv, acceptFs_rx, (supersede_rx hs hin).1, hsettings]
  · rw [hcounter _ (by decide), saturate_eq]
    simp only [and_true]
  · rw [hv]
    exact (congrArg (· ++ [OutItem.fs f w h]) hseq).trans (List.append_assoc ..)
  · rw [hv]
    exact hstate
  · obtain ⟨hclose, hfaulted, -⟩ := notItem_notClose hc
    rw [hcounter c hclose, if_neg fun h => hfaulted h.2]

end Sys2Proof.Machine.StreamFraming
end

section
/-! SUPPORT. The loss of the lock, and the LOCK item that tells a loss and a relock (R106 to R109, R121, R158). -/

namespace Sys2Proof.Machine.StreamFraming

/-! ## The loss of the lock (R106 to R109, R121) -/

/-- What a lock loss does before it is marked (R108). -/
def lockDropped (midFrame : Bool) (s : State) : State :=
  bump .lockLosses 1 (dropLock (cutBlank (discardCompositor (if midFrame then cutFrame s else s))))

/-- A lock loss outside HUNT, with whether it cuts a frame (R107, R108). -/
theorem loseLock_dropped (cause : LossCause) {s : State} (hl : s.rx.lock ≠ .hunt) :
    ∃ midFrame, loseLock cause s = markLoss cause (lockDropped midFrame s)
      ∧ (s.rx.lock = .gap ∧ midFrame = false ∨ InFrame s ∧ midFrame = true) := by
  unfold loseLock InFrame
  cases hlock : s.rx.lock with
  | hunt => exact absurd hlock hl
  | frame => exact ⟨true, rfl, .inr ⟨.inl rfl, rfl⟩⟩
  | raw => exact ⟨true, rfl, .inr ⟨.inr rfl, rfl⟩⟩
  | gap => exact ⟨false, rfl, .inl ⟨rfl, rfl⟩⟩

theorem exec_signalLoss (s : State) : exec .signalLoss s = .next (loseLock .signal s) := rfl

theorem exec_watchdogExpiry {s : State} (hw : s.rx.watchdog.isSome) :
    exec .watchdogExpiry s = .next (loseLock .watchdog s) := by
  change execWatchdogExpiry s = _
  unfold execWatchdogExpiry
  obtain ⟨w, hw⟩ := Option.isSome_iff_exists.mp hw
  rw [hw]

theorem loseLock_hunt (cause : LossCause) {s : State} (hl : s.rx.lock = .hunt) : loseLock cause s = s := by
  unfold loseLock
  rw [hl]

theorem lockDropped_rx (midFrame : Bool) (s : State) :
    (lockDropped midFrame s).rx
      = { lock := .hunt, geometry := none, lastFrame := s.rx.lastFrame, openLine := none, expectedActive := 0,
          expectedBlank := 0, activeSeen := 0, blankSeen := 0, faulted := false, lastFault := s.rx.lastFault,
          watchdog := none } := by
  cases midFrame <;> rfl

theorem lockDropped_comp (midFrame : Bool) (s : State) :
    (lockDropped midFrame s).comp = { geometry := none, plan := none, arriving := none, leaving := s.comp.leaving } := by
  cases midFrame <;> rfl

theorem lockDropped_sorter (midFrame : Bool) (s : State) : (lockDropped midFrame s).sorter = { s.sorter with line := none } := by
  cases midFrame <;> rfl

theorem lockDropped_counter (midFrame : Bool) (s : State) (c : Counter) :
    (lockDropped midFrame s).counter c = if c = .lockLosses then saturate (s.counter c) 1 else s.counter c := by
  cases midFrame <;> exact counter_bump c .lockLosses 1 s

/-- No frame end is a line, so the cut line's removal leaves them (R121). -/
theorem any_isFrameEnd_filter (items : List OutItem) :
    (items.filter (fun it => !isIncomplete it)).any isFrameEnd = items.any isFrameEnd := by
  rw [List.any_filter]
  refine congrArg items.any (funext fun it => ?_)
  cases it with
  | line l => exact Bool.and_false _
  | fs f w h => rfl
  | fe a b x => rfl
  | abortedFe => rfl

/-- The transmitter at a lock loss that cuts a frame (R121). -/
theorem lockDropped_tx (s : State) :
    (lockDropped true s).tx = { s.tx with
      sequence := s.tx.sequence.filter (fun it => !isIncomplete it) ++ [.abortedFe]
      state := if s.tx.state = .frame ∧ s.tx.sequence.any isFrameEnd = false then OutState.aborting else s.tx.state } := by
  rw [← any_isFrameEnd_filter s.tx.sequence]
  rfl

/-- Settles O12: the lock dropped, its effect on each block, and the mark that follows. -/
theorem lockLossDropsToHunt : Obligations.LockLossDropsToHunt := by
  unfold Obligations.LockLossDropsToHunt
  refine ⟨fun s hl => by rw [exec_signalLoss, loseLock_hunt _ hl], fun s c hc hl => ?_⟩
  have hexec : ∃ cause, exec c s = .next (loseLock cause s) := by
    rcases hc with rfl | ⟨rfl, hw⟩
    · exact ⟨.signal, rfl⟩
    · exact ⟨.watchdog, exec_watchdogExpiry hw⟩
  obtain ⟨cause, hexec⟩ := hexec
  obtain ⟨midFrame, hlose, hmid⟩ := loseLock_dropped cause hl
  have hrest := markListener_rest (fun c => { c with lockItem := some (lossMark cause c.lockItem) }) (lockDropped midFrame s)
  have hframe := markLoss_frame cause (lockDropped midFrame s)
  obtain ⟨-, -, hrx, hsorter, -, -, hcomp, htx, -, hstatus, -⟩ := hframe
  have hcount : ∀ k, (loseLock cause s).counter k = if k = .lockLosses then saturate (s.counter k) 1 else s.counter k :=
    fun k => by rw [hlose, counter_congr (congrArg NodeStatus.counters hstatus), lockDropped_counter]
  refine ⟨loseLock cause s, hexec, ?_, ?_, ?_, ?_, fun k hk => ?_, fun hgap => ?_, fun hin => ?_, ?_, fun src => ?_, ?_⟩
  · rw [hlose, hrx, lockDropped_rx]
  · rw [hlose, hcomp, lockDropped_comp]
  · rw [hlose, hsorter, lockDropped_sorter]
  · rw [hcount, if_pos rfl, saturate_eq]
  · rw [hcount, if_neg hk]
  · rcases hmid with ⟨-, rfl⟩ | ⟨hin, -⟩
    · rw [hlose, htx]
      rfl
    · rcases hin with hin | hin <;> simp [hgap] at hin
  · rcases hmid with ⟨hgap, -⟩ | ⟨-, rfl⟩
    · rcases hin with hin | hin <;> simp [hgap] at hin
    · rw [hlose, htx, lockDropped_tx]
      exact ⟨rfl, rfl⟩
  · rw [hlose, htx]
    cases midFrame <;> rfl
  · rw [hlose, markLoss, context_markListener_lock]
    have hctx : (lockDropped midFrame s).context src = s.context src := by cases midFrame <;> rfl
    rw [hctx]
    split <;> rfl
  · rw [hlose]
    refine Eq.trans (congrArg (fun u : State => { u with
      rx := s.rx, comp := s.comp, sorter := s.sorter, tx := s.tx
      status := { u.status with counters := s.status.counters }
      agent := { u.agent with contexts := s.agent.contexts } }) hrest) ?_
    cases midFrame <;> rfl

/-! ## The LOCK items through the completion of a request (R145, R158) -/

/-- The LOCK item of each source (R109). -/
def lockItems (s : State) : SourceId → Option LockItem := fun src => (s.context src).lockItem

theorem lockItems_congr {s t : State} (h : t.agent.contexts = s.agent.contexts) : lockItems t = lockItems s :=
  funext fun src => congrArg Context.lockItem (context_congr h src)

theorem lockItems_of_agent {s t : State} (h : t.agent = s.agent) : lockItems t = lockItems s :=
  lockItems_congr (by rw [h])

theorem placeDue_lockItems (r : Request) (due : DueReply) (s : State) : lockItems (placeDue r due s) = lockItems s := by
  cases due with
  | executed a =>
    obtain ⟨-, -, -, -, -, -, -, -, hctx⟩ := placeReply_spec r a s
    refine funext fun src => (congrArg Context.lockItem (hctx src)).trans ?_
    split <;> rfl
  | refused st =>
    obtain ⟨-, -, -, -, hctx, -⟩ := placeUncached_spec r st s
    exact lockItems_congr hctx
  | copied q =>
    obtain ⟨-, -, -, -, -, -, -, -, hctx⟩ := placeCopy_spec r q s
    refine funext fun src => (congrArg Context.lockItem (hctx src)).trans ?_
    split <;> rfl

theorem replyRequest_lockItems (serves : Request → Bool) (s : State) : lockItems (replyRequest serves s) = lockItems s := by
  unfold replyRequest
  (repeat' split) <;> first | rfl | exact placeDue_lockItems _ _ _

/-- The completion of a request in execution changes LOCK items through the request's own action alone. -/
theorem requestStep_lockItems {serves : Request → Bool} {castable : Bool} {execute : Packet → State → State} {s : State}
    (hb : s.agent.busy ≠ none) :
    lockItems (requestStep serves castable execute .replied s) = lockItems s
    ∨ ∃ p, s.agent.busy = some (.taken p .execute)
        ∧ lockItems (requestStep serves castable execute .replied s) = lockItems (execute p s) := by
  unfold requestStep
  dsimp only
  rw [takeRequest_busy _ hb, replyRequest_lockItems]
  unfold actRequest
  split
  · exact .inl rfl
  · exact .inl rfl
  · exact .inl rfl
  · split
    · split
      · next hbusy => exact .inr ⟨_, hbusy, rfl⟩
      · exact .inl rfl
      · exact .inl rfl
      · exact .inl rfl
      · exact .inl rfl
    · exact .inl rfl

/-- The completion of a request in execution by these steps keeps every LOCK item. -/
def KeepsLockItems (steps : Config.Extent → State → State) : Prop :=
  ∀ s, s.agent.busy ≠ none → lockItems (steps .replied s) = lockItems s

theorem requestStep_keepsLockItems (serves : Request → Bool) (castable : Bool) {execute : Packet → State → State}
    (hx : ∀ p s, lockItems (execute p s) = lockItems s) : KeepsLockItems (requestStep serves castable execute) := by
  intro s hb
  rcases requestStep_lockItems hb with h | ⟨p, -, h⟩
  · exact h
  · exact h.trans (hx p s)

theorem addressedStep_keepsLockItems (k : Byte) {rule : Rule} (h : ∀ r s, (rule r s).1.agent = s.agent) :
    KeepsLockItems (addressedStep k rule) :=
  requestStep_keepsLockItems _ _ fun p s => (lockItems_of_agent (h (requestOf p) s) :)

theorem eitherStep_keepsLockItems (serves : Request → Bool) {rule : Rule} {effect : Request → State → State}
    (h : ∀ r s, lockItems (rule r s).1 = lockItems s) (he : ∀ r s, lockItems (effect r s) = lockItems s) :
    KeepsLockItems (eitherStep serves rule effect) := by
  refine requestStep_keepsLockItems _ _ fun p s => ?_
  split
  · exact he (requestOf p) s
  · exact h (requestOf p) s

/-! ### The rules that leave the agent to its steps -/

theorem assignRule_agent (r : Request) (s : State) : (assignRule r s).1.agent = s.agent := by
  unfold assignRule
  dsimp only
  split <;> rfl

theorem configWriteRule_agent (r : Request) (s : State) : (configWriteRule r s).1.agent = s.agent := by
  unfold configWriteRule
  dsimp only
  split <;> rfl

theorem statusReadRule_agent (r : Request) (s : State) : (statusReadRule r s).1.agent = s.agent := by
  unfold statusReadRule
  dsimp only
  split
  · rfl
  · simp

theorem claimRule_agent (r : Request) (s : State) : (claimRule r s).1.agent = s.agent := by
  rw [LayerOwnership.claimRule_rest]
  rfl

theorem releaseRule_agent (r : Request) (s : State) : (releaseRule r s).1.agent = s.agent := by
  rw [LayerOwnership.releaseRule_rest]
  rfl

theorem layerWriteRule_agent (r : Request) (s : State) : (layerWriteRule r s).1.agent = s.agent := by
  unfold layerWriteRule
  dsimp only
  (repeat' split) <;> first | rfl | simp

theorem layerReadRule_agent (r : Request) (s : State) : (layerReadRule r s).1.agent = s.agent := by
  unfold layerReadRule
  dsimp only
  (repeat' split) <;> rfl

theorem commitRule_agent (r : Request) (s : State) : (commitRule r s).1.agent = s.agent := by
  unfold commitRule
  dsimp only
  (repeat' split) <;> rfl

theorem commitBroadcast_agent (r : Request) (s : State) : (commitBroadcast r s).agent = s.agent := by
  unfold commitBroadcast
  dsimp only
  split <;> rfl

theorem glyphDefineRule_agent (r : Request) (s : State) : (glyphDefineRule r s).1.agent = s.agent := by
  unfold glyphDefineRule defineGlyph
  dsimp only
  (repeat' split) <;> rfl

theorem glyphDeleteRule_agent (r : Request) (s : State) : (glyphDeleteRule r s).1.agent = s.agent := by
  unfold glyphDeleteRule
  dsimp only
  (repeat' split) <;> rfl

theorem startLoad_lockItems (r : Request) (s : State) : lockItems (startLoad r s) = lockItems s := by
  unfold startLoad
  split <;> rfl

/-- A RESET of scope TABLES clears the commit-applied and lease-expired items alone (R157). -/
theorem resetTablesRule_lockItems (r : Request) (s : State) : lockItems (resetTablesRule r s).1 = lockItems s := by
  unfold resetTablesRule
  split
  · exact funext fun src =>
      (congrArg Context.lockItem (mapVec_get clearSourceItems s.agent.contexts src.val src.isLt) :)
  · rfl

theorem kindSteps_keepsLockItems {k : Byte × (Config.Extent → State → State)} (hm : k ∈ kindSteps) :
    KeepsLockItems k.2 := by
  simp only [kindSteps, List.mem_cons, List.not_mem_nil, or_false] at hm
  rcases hm with rfl | rfl | rfl | rfl | rfl | rfl | rfl | rfl | rfl | rfl | rfl | rfl | rfl
  · exact addressedStep_keepsLockItems _ fun _ _ => rfl
  · exact addressedStep_keepsLockItems _ assignRule_agent
  · exact addressedStep_keepsLockItems _ configWriteRule_agent
  · exact addressedStep_keepsLockItems _ statusReadRule_agent
  · exact addressedStep_keepsLockItems _ claimRule_agent
  · exact addressedStep_keepsLockItems _ releaseRule_agent
  · exact addressedStep_keepsLockItems _ layerWriteRule_agent
  · exact addressedStep_keepsLockItems _ layerReadRule_agent
  · exact eitherStep_keepsLockItems (fun r => r.kind == kindCommit) (fun r s => lockItems_of_agent (commitRule_agent r s))
      fun r s => lockItems_of_agent (commitBroadcast_agent r s)
  · exact addressedStep_keepsLockItems _ glyphDefineRule_agent
  · exact requestStep_keepsLockItems isGlyphLoad false (execute := fun p => startLoad (requestOf p))
      fun p s => startLoad_lockItems (requestOf p) s
  · exact addressedStep_keepsLockItems _ glyphDeleteRule_agent
  · exact addressedStep_keepsLockItems _ fun _ _ => rfl

theorem unknownKindSteps_keepsLockItems : KeepsLockItems unknownKindSteps :=
  requestStep_keepsLockItems _ false (execute := fun _ s => s) fun _ _ => rfl

/-- A RESET of scope NODE that is executed leaves no LOCK item (R158). -/
theorem resetNodeRule_lockItems (r : Request) (s : State) (hscope : resetScope r.payload = 1) (src : SourceId) :
    lockItems (resetNodeRule r s).1 src = none := by
  unfold resetNodeRule
  rw [if_pos hscope]
  simp [lockItems, State.context, resetNode, Agent.reset, Context.empty]

/-- A RESET of scope NODE in execution: with any judgement but `execute` it is not executed. -/
theorem resetNodeSteps_lockItems {s : State} (hb : s.agent.busy ≠ none) :
    lockItems (resetNodeSteps .replied s) = lockItems s
    ∨ ∃ p, s.agent.busy = some (.taken p .execute)
        ∧ (resetScope (packetPayload p) = 1 → ∀ src, lockItems (resetNodeSteps .replied s) src = none) := by
  unfold resetNodeSteps eitherStep
  refine (requestStep_lockItems hb).imp_right fun ⟨p, hbusy, h⟩ => ⟨p, hbusy, fun hscope src => ?_⟩
  rw [h]
  split
  · exact resetNodeRule_lockItems (requestOf p) s hscope src
  · exact resetNodeRule_lockItems (requestOf p) s hscope src

/-- Of the requests only a RESET of scope NODE changes LOCK items, and it clears them all (R109, R158). -/
theorem completeRequest_lockItems (s : State) :
    lockItems (completeRequest s) = lockItems s
    ∨ ∃ p, s.agent.busy = some (.taken p .execute) ∧ packetKind p = kindReset ∧ field (packetPayload p) 0 1 = 1
        ∧ ∀ src, lockItems (completeRequest s) src = none := by
  cases hb : s.agent.busy with
  | none => exact .inl (by rw [completeRequest_between (.inl hb)])
  | some x =>
    cases x with
    | load run => exact .inl (by rw [completeRequest_between (.inr ⟨run, hb⟩)])
    | acted r due =>
      rw [completeRequest_acted hb]
      exact .inl (placeDue_lockItems r due (release s))
    | taken p j =>
      have hne : s.agent.busy ≠ none := by simp [hb]
      have hc : completeRequest s = requestSteps (requestOf p) .replied s := by
        unfold completeRequest
        rw [hb]
      rw [hc]
      unfold requestSteps
      by_cases hk : (requestOf p).kind = kindReset
      · rw [if_pos hk]
        by_cases hn : namesScope 1 (requestOf p).payload = true
        · rw [if_pos hn]
          have hscope : resetScope (packetPayload p) = 1 := by
            simp only [namesScope, Bool.and_eq_true, decide_eq_true_eq] at hn
            exact hn.2
          refine (resetNodeSteps_lockItems hne).imp_right fun ⟨q, hbusy, hnone⟩ => ?_
          rw [hb] at hbusy
          cases hbusy
          exact ⟨p, rfl, hk, hscope, hnone hscope⟩
        · rw [if_neg hn]
          exact .inl (eitherStep_keepsLockItems _ resetTablesRule_lockItems resetTablesRule_lockItems s hne)
      · rw [if_neg hk]
        refine .inl ?_
        cases hf : kindSteps.find? (fun k => k.1 == (requestOf p).kind) with
        | none => exact unknownKindSteps_keepsLockItems s hne
        | some k => exact kindSteps_keepsLockItems (List.mem_of_find?_eq_some hf) s hne

/-! ## The LOCK item of the listener (R109, R171) -/

theorem frameStartFrame_lockItems {geo : Geometry} {u t : State} (h : FrameStartFrame geo u t) :
    lockItems t = lockItems u := by
  obtain ⟨-, -, hcontext, -⟩ := h
  exact funext fun src => (congrArg Context.lockItem (hcontext src) :)

theorem markListener_busy (f : Context → Context) (s : State) : (markListener f s).agent.busy = s.agent.busy := by
  unfold markListener
  split <;> rfl

/-- A lock loss at the listener's LOCK item, and at every other source's context. -/
theorem loseLock_context (cause : LossCause) {s : State} (hl : s.rx.lock ≠ .hunt) (src : SourceId) :
    (loseLock cause s).context src
      = if s.status.settings.listener = some src ∧ (s.context src).state = .active then
          { s.context src with lockItem := some (lossMark cause (s.context src).lockItem) }
        else s.context src := by
  obtain ⟨midFrame, hlose, -⟩ := loseLock_dropped cause hl
  rw [hlose, markLoss, context_markListener_lock]
  cases midFrame <;> rfl

/-- A relock at the listener's LOCK item, and at every other source's context; the request in execution goes on. -/
theorem receiveFs_hunt (f w h : Word) {s : State} (hl : s.rx.lock = .hunt) :
    (receiveFs f w h s).agent.busy = s.agent.busy
    ∧ ∀ src, (receiveFs f w h s).context src
      = if s.status.settings.listener = some src ∧ (s.context src).state = .active then
          { s.context src with lockItem := some (relockMark f (s.context src).lockItem) }
        else s.context src := by
  unfold receiveFs
  rw [hl]
  exact ⟨markListener_busy _ (acceptFs f w h s), context_markListener_lock (relockMark f) (acceptFs f w h s)⟩

theorem lossMark_eq (cause : LossCause) (item : Option LockItem) :
    lossMark cause item
      = { locked := false, cause := some cause, frame := none
          losses := match item with
            | none => 1
            | some i => if i.losses < 255 then i.losses + 1 else 255 } := by
  cases item <;> rfl

theorem relockMark_eq (frame : Word) (item : Option LockItem) :
    relockMark frame item
      = { locked := true, frame := some frame
          losses := match item with
            | none => 0
            | some i => i.losses
          cause := match item with
            | none => none
            | some i => i.cause } := by
  cases item <;> rfl

/-- Settles O13: the marks of a loss and of a relock, and the LOCK items through the completion before the FRAME_START. -/
theorem lockItemTellsLossAndRelock : Obligations.LockItemTellsLossAndRelock := by
  unfold Obligations.LockItemTellsLossAndRelock
  intro s src kept
  have hloss : ∀ cause, s.rx.lock ≠ .hunt →
      (kept → ((loseLock cause s).context src).lockItem = some (lossMark cause (s.context src).lockItem))
      ∧ (¬kept → (loseLock cause s).context src = s.context src) := fun cause hl => by
    rw [loseLock_context cause hl]
    exact ⟨fun hk => by rw [if_pos hk], fun hk => if_neg hk⟩
  refine ⟨fun hl => ⟨_, exec_signalLoss s, fun hk => ?_, (hloss .signal hl).2⟩,
    fun hl hw => ⟨_, exec_watchdogExpiry hw, fun hk => ?_, (hloss .watchdog hl).2⟩,
    fun f w h hw hw' hh hh' hl => ?_⟩
  · exact ((hloss .signal hl).1 hk).trans (congrArg some (lossMark_eq _ _))
  · exact ((hloss .watchdog hl).1 hk).trans (congrArg some (lossMark_eq _ _))
  · obtain ⟨hbusy, hctx⟩ := receiveFs_hunt f w h hl
    specialize hctx src
    have ht : ((frameStart (geometryOf f w h) (fsMeets f w h s)).context src).lockItem = lockItems (fsMeets f w h s) src :=
      congrFun (frameStartFrame_lockItems (frameStart_frame (geometryOf f w h) (fsMeets f w h s)).2) src
    refine ⟨receiveFs f w h s, _, exec_fs_inRange f ((fsInRange_iff w h).mpr ⟨hw, hw', hh, hh'⟩) s,
      completeRequest_completed _, hbusy, fun hk => ?_, fun hk => ?_, ?_⟩
    · rw [hctx, if_pos hk]
      exact congrArg some (relockMark_eq f _)
    · rw [hctx, if_neg hk]
    · rw [ht, ← hbusy, fsMeets]
      rcases completeRequest_lockItems (receiveFs f w h s) with hkeep | ⟨p, hp, hkind, hscope, hnone⟩
      · exact .inl (congrFun hkeep src)
      · exact .inr ⟨p, hp, hkind, hscope, hnone src⟩

end Sys2Proof.Machine.StreamFraming
end

section
/-! SUPPORT. Every command keeps the receiver true to its lock state (R95, R105, R106, R108). -/

namespace Sys2Proof.Machine.StreamFraming

/-! ## What the receiver's soundness looks at -/

/-- The receiver but for the last fault kind, and the compositor's geometry. -/
def receiverView (s : State) : Receiver × Option Geometry := ({ s.rx with lastFault := none }, s.comp.geometry)

/-- A state that shows the given view. -/
def showing (v : Receiver × Option Geometry) : State :=
  { State.reset with rx := v.1, comp := { Compositor.reset with geometry := v.2 } }

theorem receiverSound_showing (s : State) : ReceiverSound (showing (receiverView s)) ↔ ReceiverSound s := Iff.rfl

theorem receiverSound_congr {s t : State} (h : receiverView t = receiverView s) (hs : ReceiverSound s) : ReceiverSound t := by
  rw [← receiverSound_showing, h]
  exact hs

theorem receiverView_eq {s t : State} (hrx : t.rx = s.rx) (hgeo : t.comp.geometry = s.comp.geometry) :
    receiverView t = receiverView s := by
  unfold receiverView
  rw [hrx, hgeo]

theorem receiverView_of_outsideRequests {s t : State} (h : outsideRequests t = outsideRequests s) :
    receiverView t = receiverView s :=
  (congrArg (fun o => (o.1.2.2.1, o.2.2.1.1.geometry)) h :)

theorem geometry_of_outsideItem {s t : State} (h : outsideItem t = outsideItem s) : t.comp.geometry = s.comp.geometry :=
  (of_outsideItem h).1

/-! ## Commands that leave the receiver as it is -/

/-- A command that changes neither the receiver, but for the last fault kind, nor the compositor's geometry. -/
def KeepsReceiver (c : Instr) : Prop := ∀ s t, exec c s = .next t → receiverView t = receiverView s

theorem commanded_receiverView {steps : Config.Extent → State → State}
    (h : ∀ upTo s, outsideRequests (steps upTo s) = outsideRequests s) (s : State) :
    receiverView (commanded steps s) = receiverView s :=
  (receiverView_of_outsideRequests (h (nextExtent s) { s with extents := s.extents.tail }) :)

theorem keepsReceiver_of_commanded {c : Instr} {steps : Config.Extent → State → State}
    (hc : ∀ s, exec c s = .next (commanded steps s)) (h : ∀ upTo s, outsideRequests (steps upTo s) = outsideRequests s) :
    KeepsReceiver c := by
  intro s t ht
  rw [hc] at ht
  cases ht
  exact commanded_receiverView h s

theorem unknownKindSteps_outside (upTo : Config.Extent) (s : State) :
    outsideRequests (unknownKindSteps upTo s) = outsideRequests s :=
  requestStep_outside (execute := fun _ t => t) (fun _ _ => rfl) upTo s

theorem requestRow_keepsReceiver {c : Instr} (hc : c ∈ requestRows) : KeepsReceiver c := by
  simp only [requestRows, List.mem_cons, List.not_mem_nil, or_false] at hc
  rcases hc with rfl | rfl | rfl | rfl | rfl | rfl | rfl | rfl | rfl | rfl | rfl | rfl | rfl | rfl | rfl | rfl
  · exact keepsReceiver_of_commanded (fun _ => rfl) (addressedStep_outside assignRule_outside)
  · exact keepsReceiver_of_commanded (steps := identifySteps) (fun _ => rfl) (addressedStep_outside fun _ _ => rfl)
  · exact keepsReceiver_of_commanded (fun _ => rfl) (addressedStep_outside configWriteRule_outside)
  · exact keepsReceiver_of_commanded (fun _ => rfl) (addressedStep_outside statusReadRule_outside)
  · exact keepsReceiver_of_commanded (fun _ => rfl) (eitherStep_outside resetTablesRule_outside resetTablesRule_outside)
  · exact keepsReceiver_of_commanded (fun _ => rfl) (eitherStep_outside resetNodeRule_outside resetNodeRule_outside)
  · exact keepsReceiver_of_commanded (fun _ => rfl) (addressedStep_outside claimRule_outside)
  · exact keepsReceiver_of_commanded (fun _ => rfl) (addressedStep_outside releaseRule_outside)
  · exact keepsReceiver_of_commanded (fun _ => rfl) (addressedStep_outside layerWriteRule_outside)
  · exact keepsReceiver_of_commanded (fun _ => rfl) (addressedStep_outside layerReadRule_outside)
  · exact keepsReceiver_of_commanded (fun _ => rfl) (eitherStep_outside commitRule_outside commitBroadcast_outside)
  · exact keepsReceiver_of_commanded (fun _ => rfl) (addressedStep_outside glyphDefineRule_outside)
  · exact keepsReceiver_of_commanded (fun _ => rfl)
      (requestStep_outside (execute := fun p => startLoad (requestOf p)) fun p => startLoad_outside (requestOf p))
  · exact keepsReceiver_of_commanded (fun _ => rfl) (addressedStep_outside glyphDeleteRule_outside)
  · exact keepsReceiver_of_commanded (steps := glyphQuerySteps) (fun _ => rfl) (addressedStep_outside fun _ _ => rfl)
  · exact keepsReceiver_of_commanded (fun _ => rfl) unknownKindSteps_outside

theorem rereadLine_geometry (f : FetchedByte → FetchedByte) (c : Compositor) : (rereadLine f c).geometry = c.geometry := by
  unfold rereadLine
  split <;> rfl

theorem writeLoadTo_receiverView (n : Nat) (run : LoadRun) (s : State) :
    receiverView (writeLoadTo n run s) = receiverView s :=
  receiverView_eq rfl (rereadLine_geometry _ s.comp)

theorem advanceLoad_receiverView (s : State) : receiverView (advanceLoad s) = receiverView s := by
  unfold advanceLoad
  split
  · rfl
  · rfl
  · rfl
  · split
    · rfl
    · exact writeLoadTo_receiverView _ _ s

theorem completeLoad_receiverView (upTo : Config.Extent) (s : State) :
    receiverView (completeLoad upTo s) = receiverView s := by
  have hreply : ∀ t, receiverView (replyRequest isGlyphLoad t) = receiverView t :=
    fun t => receiverView_of_outsideRequests (replyRequest_outside isGlyphLoad t)
  have hupdate : ∀ run, receiverView (updateLoad run s) = receiverView s := fun run => writeLoadTo_receiverView _ run s
  unfold completeLoad
  dsimp only
  split
  · rfl
  · split
    · rfl
    · rfl
    · rfl
    · exact hupdate _
  · rw [hreply]
    split
    · rfl
    · rfl
    · rfl
    · exact hupdate _

theorem glyphLoadComplete_keepsReceiver : KeepsReceiver .glyphLoadComplete := by
  intro s t h
  change execGlyphLoadComplete s = _ at h
  unfold execGlyphLoadComplete at h
  split at h
  · cases h
  · cases h
    exact completeLoad_receiverView (nextExtent s) { s with extents := s.extents.tail }

theorem leaseExpiry_keepsReceiver (l : LayerId) (frame : Word) : KeepsReceiver (.leaseExpiry l frame) := by
  intro s t h
  change execLeaseExpiry l frame s = _ at h
  unfold execLeaseExpiry expireDue at h
  have hcomplete := receiverView_of_outsideRequests (completeRequest_outside s)
  split at h
  · cases h
    rfl
  · next u hu =>
    cases h
    rw [← hcomplete]
    split at hu
    · cases hu
    · split at hu
      · cases hu
        exact receiverView_eq (by simp) (by simp)
      · cases hu

theorem noticeBuild_keepsReceiver : KeepsReceiver .noticeBuild := by
  intro s t h
  change execNoticeBuild s = _ at h
  unfold execNoticeBuild at h
  split at h
  · cases h
    rfl
  · split at h <;> cases h
    · exact receiverView_eq (by simp) (by simp)
    · rfl

theorem promote_geometry (s : State) : (promote s).comp.geometry = s.comp.geometry := by
  unfold promote
  split <;> rfl

/-- What leaves on the forward lane out changes nothing of the receiver (R112 to R119). -/
theorem sentRow_keepsReceiver {c : Instr} (hc : c ∈ [Instr.fsSent, .lineSent, .feSent, .idlSent]) : KeepsReceiver c := by
  simp only [List.mem_cons, List.not_mem_nil, or_false] at hc
  intro s t h
  rcases hc with rfl | rfl | rfl | rfl
  · change execFsSent s = _ at h
    unfold execFsSent at h
    split at h <;> cases h <;> rfl
  · change execLineSent s = _ at h
    unfold execLineSent at h
    split at h
    · split at h <;> cases h
      · rfl
      · exact receiverView_eq (by simp) (promote_geometry _)
    all_goals cases h; rfl
  · change execFeSent s = _ at h
    unfold execFeSent at h
    split at h <;> cases h <;> rfl
  · change execIdlSent s = _ at h
    unfold execIdlSent at h
    split at h <;> cases h <;> rfl

/-- The return lane has nothing to do with the receiver (R160 to R168). -/
theorem returnRow_keepsReceiver {c : Instr}
    (hc : c = .returnPacketEnd ∨ c = .returnSignalLoss ∨ c = .laneFree ∨ c = .returnPacketStart
      ∨ ∃ b, c = .returnPacketByte b) : KeepsReceiver c := by
  intro s t h
  rcases hc with rfl | rfl | rfl | rfl | ⟨b, rfl⟩
  · change execReturnPacketEnd s = _ at h
    unfold execReturnPacketEnd at h
    split at h <;> cases h
    · rfl
    · split
      · exact receiverView_eq (by simp) (by simp)
      · rfl
  · change execReturnSignalLoss s = _ at h
    unfold execReturnSignalLoss at h
    split at h <;> cases h <;> rfl
  · change execLaneFree s = _ at h
    unfold execLaneFree at h
    split at h <;> cases h
    · rfl
    · exact receiverView_eq (by simp) (by simp)
  · cases h
    rfl
  · change execReturnPacketByte b s = _ at h
    unfold execReturnPacketByte at h
    split at h <;> cases h <;> rfl

/-! ## The operations of an item on a sound receiver -/

/-- The receiver without a lock and with nothing of a frame, as pin reset and a lock loss leave it (R108, R111). -/
theorem receiverSound_of_cleared {s : State}
    (hrx : { s.rx with lastFrame := none, lastFault := none } = Receiver.reset) (hgeo : s.comp.geometry = none) :
    ReceiverSound s := by
  have hview : receiverView s = ({ Receiver.reset with lastFrame := s.rx.lastFrame }, none) := by
    unfold receiverView
    rw [hgeo]
    exact congrArg (fun r : Receiver => ({ r with lastFrame := s.rx.lastFrame }, none)) hrx
  rw [← receiverSound_showing, hview]
  simp [ReceiverSound, showing, Receiver.reset, Compositor.reset]

/-- A fault found in FRAME leaves a faulted frame in RAW (R105). -/
theorem receiverSound_faultToRaw (k : FaultKind) {s : State} (hs : ReceiverSound s) : ReceiverSound (faultToRaw k s) := by
  by_cases hl : s.rx.lock = .frame
  · obtain ⟨hactive, hblank, hactiveMax, hblankMax, -, hlocked, -⟩ := hs
    have hrx := faultToRaw_rx k s
    rw [if_pos hl] at hrx
    unfold ReceiverSound
    rw [hrx]
    exact ⟨hactive, hblank, hactiveMax, hblankMax, nofun, fun _ => hlocked (by simp [hl]), nofun,
      nofun, fun _ => rfl⟩
  · have hrx := faultToRaw_rx k s
    rw [if_neg hl] at hrx
    exact receiverSound_congr (receiverView_eq hrx (by simp)) hs

theorem inFrame_faultToRaw (k : FaultKind) {s : State} (hin : InFrame s) : InFrame (faultToRaw k s) := by
  unfold InFrame
  rw [faultToRaw_rx]
  split
  · exact .inr rfl
  · exact hin

/-- The receiver's open line replaced. -/
def setLine (l : Option OpenLine) (s : State) : State := { s with rx := { s.rx with openLine := l } }

theorem receiverSound_setLine {l : Option OpenLine} {s : State} (hl : l = none ∨ InFrame s) (hs : ReceiverSound s) :
    ReceiverSound (setLine l s) := by
  obtain ⟨hactive, hblank, hactiveMax, hblankMax, hhunt, hlocked, hgap, hframe, hraw⟩ := hs
  have hout : s.rx.lock = .hunt ∨ s.rx.lock = .gap → l = none := fun h => hl.resolve_right fun hin => by
    rcases hin with hin | hin <;> simp [hin] at h
  refine ⟨hactive, hblank, hactiveMax, hblankMax, fun h => ?_, hlocked, fun h => hout (.inr h), hframe, hraw⟩
  obtain ⟨hw, hgeo, -, hf, hcomp⟩ := hhunt h
  exact ⟨hw, hgeo, hout (.inl h), hf, hcomp⟩

theorem endOpenLine_receiverView (s : State) :
    receiverView (endOpenLine s) = receiverView (setLine none (if openShort s then faultToRaw .lineLength s else s)) := by
  refine receiverView_eq (endOpenLine_rx s) ((geometry_of_outsideItem (endOpenLine_outsideItem s)).trans ?_)
  unfold setLine
  split <;> simp

/-- The end of a line keeps the receiver sound, and in its frame (R102). -/
theorem endOpenLine_sound {s : State} (hs : ReceiverSound s) (hin : InFrame s) :
    ReceiverSound (endOpenLine s) ∧ InFrame (endOpenLine s) := by
  have hfault : ReceiverSound (if openShort s then faultToRaw .lineLength s else s)
      ∧ InFrame (if openShort s then faultToRaw .lineLength s else s) := by
    split
    · exact ⟨receiverSound_faultToRaw _ hs, inFrame_faultToRaw _ hin⟩
    · exact ⟨hs, hin⟩
  refine ⟨receiverSound_congr (endOpenLine_receiverView s) (receiverSound_setLine (.inl rfl) hfault.1), ?_⟩
  unfold InFrame
  rw [endOpenLine_rx]
  exact hfault.2

/-! ## LS (R101, R103) -/

/-- An expected LS counts within its frame's lines (R101). -/
theorem receiverSound_countLine {kind : LineKind} {index : Nat} {s : State} (hl : s.rx.lock = .frame)
    (hx : lsExpected kind index s = true) (hs : ReceiverSound s) : ReceiverSound (countLine kind s) := by
  obtain ⟨hactive, hblank, hactiveMax, hblankMax, hhunt, hlocked, hgap, hframe, hraw⟩ := hs
  obtain ⟨hf, hcomp, hrange⟩ := hframe hl
  cases kind with
  | active =>
    obtain ⟨geo, hgeo⟩ := Option.isSome_iff_exists.mp (hlocked (by simp [hl])).1
    simp only [lsExpected, hgeo, Option.map_some, Option.getD_some, Bool.and_eq_true, decide_eq_true_eq] at hx
    obtain ⟨hw, hw', hh, hh', -⟩ := hrange geo hgeo
    have hnext : s.rx.expectedActive + 1 ≤ geo.height := by omega
    refine ⟨congrArg (· + 1) hactive, hblank, Nat.le_trans hnext hh', hblankMax, hhunt, hlocked, hgap,
      fun _ => ⟨hf, hcomp, fun g hg => ?_⟩, hraw⟩
    cases hgeo.symm.trans hg
    exact ⟨hw, hw', hh, hh', hnext⟩
  | blank =>
    simp only [lsExpected, Bool.and_eq_true, decide_eq_true_eq] at hx
    have hnext : s.rx.expectedBlank + 1 ≤ 1024 := by omega
    exact ⟨hactive, congrArg (· + 1) hblank, hactiveMax, hnext, hhunt, hlocked, hgap, hframe, hraw⟩

theorem judgeLs_sound (kind : LineKind) (index : Nat) {s : State} (hs : ReceiverSound s) (hin : InFrame s) :
    ReceiverSound (judgeLs kind index s) ∧ InFrame (judgeLs kind index s) := by
  unfold judgeLs
  rcases hin with hl | hl
  · rw [hl]
    dsimp only
    split
    · next hx =>
      refine ⟨receiverSound_countLine hl hx hs, .inl ?_⟩
      cases kind <;> exact hl
    · exact ⟨receiverSound_faultToRaw _ hs, inFrame_faultToRaw _ (.inl hl)⟩
  · rw [hl]
    exact ⟨hs, .inr hl⟩

theorem placeHandedOver_receiverView (bytes : List Byte) (s : State) :
    receiverView (placeHandedOver bytes s) = receiverView s :=
  receiverView_eq (by simp) (geometry_of_outsideItem (placeHandedOver_outsideItem bytes s))

theorem handOver_receiverView (s : State) : receiverView (handOver s) = receiverView s :=
  placeHandedOver_receiverView _ (clearArriving s)

theorem closeBlank_receiverView (received : Nat) (s : State) : receiverView (closeBlank received s) = receiverView s :=
  receiverView_eq (closeBlank_rx received s) (geometry_of_outsideItem (closeBlank_outsideItem received s))

theorem finishEmpty_receiverView (kind : LineKind) (s : State) : receiverView (finishEmpty kind s) = receiverView s := by
  unfold finishEmpty
  split
  · cases kind with
    | active => exact handOver_receiverView s
    | blank => exact closeBlank_receiverView 0 s
  · rfl

theorem takePlan_receiverView (geo : Geometry) (v : Nat) (x : Snapshot) (s : State) :
    receiverView (takePlan geo v x s) = receiverView s := by
  have hskip : ∀ (ls : List LayerId) (t : State), receiverView (ls.foldl (skipLayer geo v) t) = receiverView t :=
    foldl_keeps receiverView (skipLayer geo v) fun t l => receiverView_eq (by simp) (by simp)
  exact (hskip _ _).trans (advanceLoad_receiverView s)

theorem beginActive_receiverView (index : Nat) (x : Snapshot) (s : State) :
    receiverView (beginActive index x s) = receiverView s := by
  unfold beginActive
  dsimp only
  split
  · split
    · rfl
    · exact takePlan_receiverView _ index x (occupyArriving index s)
  all_goals rfl

theorem openLine_receiverView (kind : LineKind) (index : Nat) (x : Snapshot) (s : State) :
    receiverView (openLine kind index x s) = receiverView (setLine (some ⟨kind, index, 0⟩) s) := by
  unfold openLine
  dsimp only
  rw [finishEmpty_receiverView]
  cases kind with
  | active => exact beginActive_receiverView index x _
  | blank => rfl

theorem lsFinds_receiverView (kind : LineKind) (index : Nat) (s : State) :
    receiverView (lsFinds kind index s).1 = receiverView s := by
  rcases lsFinds_cases kind index s with ⟨-, h | h⟩ | ⟨v, ⟨c, upTo, hc, hv⟩, -, h, -⟩
  · rw [h]
  · rw [h]
    rfl
  · rw [h]
    have hrow : c ∈ requestRows := by rcases hc with rfl | rfl | rfl <;> decide
    exact (requestRow_keepsReceiver hrow { s with extents := upTo :: s.extents } v hv :)

/-- An LS taken in FRAME or RAW leaves the line open in the frame (R101, R103). -/
theorem takeLs_sound (kind : LineKind) (index : Nat) {s : State} (hs : ReceiverSound s) (hin : InFrame s) :
    ReceiverSound (takeLs kind index s) := by
  have hfinds := lsFinds_receiverView kind index s
  have hin' : InFrame (lsFinds kind index s).1 := by
    have hlock : (lsFinds kind index s).1.rx.lock = s.rx.lock := (congrArg (fun v => v.1.lock) hfinds :)
    unfold InFrame
    rw [hlock]
    exact hin
  obtain ⟨hend, hendIn⟩ := endOpenLine_sound (receiverSound_congr hfinds hs) hin'
  obtain ⟨hjudge, hjudgeIn⟩ := judgeLs_sound kind index hend hendIn
  exact receiverSound_congr (openLine_receiverView kind index _ _) (receiverSound_setLine (.inr hjudgeIn) hjudge)

/-! ## DATA_BYTE (R102, R103) -/

theorem drawCompleted_receiverView (n : Nat) (s : State) : receiverView (drawCompleted n s) = receiverView s := by
  have hdraw : ∀ u t, receiverView (drawPixel u t) = receiverView t := fun u t => by
    unfold drawPixel
    split <;> rfl
  unfold drawCompleted
  split
  · rw [hdraw, advanceLoad_receiverView]
  · rfl

theorem activeByte_receiverView (b : Byte) (n full : Nat) (s : State) :
    receiverView (activeByte b n full s) = receiverView s := by
  have hdraw : receiverView (drawCompleted n (receiveByte b s)) = receiverView s := drawCompleted_receiverView n _
  unfold activeByte
  dsimp only
  split
  · split
    · exact (handOver_receiverView _).trans hdraw
    · exact hdraw
  · exact receiverView_eq (by simp) (by simp)

theorem blankByte_receiverView (b : Byte) (n full : Nat) (s : State) :
    receiverView (blankByte b n full s) = receiverView s := by
  unfold blankByte
  dsimp only
  split
  · split
    · exact closeBlank_receiverView n _
    · rfl
  · exact receiverView_eq (by simp) (by simp)

theorem lineByte_receiverView (b : Byte) (l : OpenLine) (s : State) :
    receiverView (lineByte b l s)
      = receiverView (let s1 := setLine (some { l with count := l.count + 1 }) s
          if lineBytes s < l.count + 1 then faultToRaw .lineLength s1 else s1) := by
  unfold lineByte
  dsimp only
  cases l.kind with
  | active => exact activeByte_receiverView b _ _ _
  | blank => exact blankByte_receiverView b _ _ _

theorem takeByte_sound (b : Byte) {s : State} (hs : ReceiverSound s) (hin : InFrame s) : ReceiverSound (takeByte b s) := by
  unfold takeByte
  split
  · exact receiverSound_faultToRaw _ hs
  · next l _ =>
    have hline := receiverSound_setLine (l := some { l with count := l.count + 1 }) (.inr hin) hs
    refine receiverSound_congr (lineByte_receiverView b l s) ?_
    dsimp only
    split
    · exact receiverSound_faultToRaw _ hline
    · exact hline

/-! ## FE, FS and the loss of the lock (R96 to R100, R104, R108) -/

/-- In GAP the frame's fault mark tells nothing, and the watchdog runs on (R104, R106). -/
theorem receiverSound_gap (marked : Bool) {s : State} (hl : s.rx.lock ≠ .hunt) (hs : ReceiverSound s) :
    ReceiverSound { s with rx := { s.rx with lock := .gap, openLine := none, faulted := marked } } := by
  obtain ⟨hactive, hblank, hactiveMax, hblankMax, -, hlocked, -⟩ := hs
  exact ⟨hactive, hblank, hactiveMax, hblankMax, nofun, fun _ => hlocked hl, fun _ => rfl, nofun, nofun⟩

theorem takeFe_sound (a b : Word) (x : Bool) {s : State} (hs : ReceiverSound s) (hin : InFrame s) :
    ReceiverSound (takeFe a b x s) := by
  have hl : s.rx.lock ≠ .hunt := by rcases hin with hin | hin <;> simp [hin]
  refine receiverSound_congr ?_ (receiverSound_gap (takeFe a b x s).rx.faulted hl hs)
  unfold receiverView
  rw [geometry_of_outsideItem (takeFe_outsideItem a b x s)]
  exact congrArg (fun r : Receiver => ({ r with faulted := (takeFe a b x s).rx.faulted, lastFault := none }, s.comp.geometry))
    (takeFe_rx a b x s)

/-- An FS out of range leaves a faulted frame in RAW, whatever its size (R100). -/
theorem openOutOfRange_sound (f w h : Word) {s : State} (hw : ∃ n, s.rx.watchdog = some n ∧ 1 ≤ n ∧ n ≤ 255) :
    ReceiverSound (openOutOfRange f w h s) := by
  unfold ReceiverSound
  rw [openOutOfRange_rx]
  simpa using hw

theorem supersede_watchdog {s : State} (hs : ReceiverSound s) (hin : InFrame s) :
    ∃ n, (supersede s).rx.watchdog = some n ∧ 1 ≤ n ∧ n ≤ 255 := by
  rw [(supersede_rx hs hin).2]
  obtain ⟨-, -, -, -, -, hlocked, -⟩ := hs
  exact (hlocked (by rcases hin with hin | hin <;> simp [hin])).2

/-- The receiver after an FS in range, in every lock state: a fresh frame in FRAME, the watchdog loaded (R96, R97, R99). -/
theorem receiveFs_receiverView (f w h : Word) (s : State) :
    (receiverView (receiveFs f w h s)).1 = { (acceptFs f w h s).rx with lastFault := none } := by
  have hsettings : (supersede s).status.settings = s.status.settings :=
    (of_outsideItem (supersede_outsideItem s)).2.2.1
  unfold receiveFs receiverView
  cases s.rx.lock with
  | hunt => simp only [markRelock_frame]
  | gap => rfl
  | frame => simp only [acceptFs_rx, hsettings]
  | raw => simp only [acceptFs_rx, hsettings]

/-- The FRAME_START gives the compositor the new frame's geometry (R51, R98). -/
theorem frameStartFrame_receiverView {geo : Geometry} {u t : State} (h : FrameStartFrame geo u t) :
    receiverView t = ((receiverView u).1, some geo) := by
  obtain ⟨hcomp, -, -, hrest⟩ := h
  have hrx : t.rx = u.rx := (congrArg State.rx hrest :)
  unfold receiverView
  rw [hrx, hcomp]

theorem fsInRange_receiverView (f w h : Word) (s : State) :
    receiverView (frameStart (geometryOf f w h) (fsMeets f w h s))
      = ({ (acceptFs f w h s).rx with lastFault := none }, some (geometryOf f w h)) := by
  have hmeets : receiverView (fsMeets f w h s) = receiverView (receiveFs f w h s) :=
    receiverView_of_outsideRequests (completeRequest_outside (receiveFs f w h s))
  rw [frameStartFrame_receiverView (frameStart_frame (geometryOf f w h) (fsMeets f w h s)).2, hmeets,
    receiveFs_receiverView]

theorem fsInRange_sound {f w h : Word} (hr : fsInRange w h = true) {s : State} (hs : StatusInRange s) :
    ReceiverSound (frameStart (geometryOf f w h) (fsMeets f w h s)) := by
  obtain ⟨hw, hw', hh, hh'⟩ := (fsInRange_iff w h).mp hr
  obtain ⟨-, -, -, htimeout, htimeout', -⟩ := hs
  rw [← receiverSound_showing, fsInRange_receiverView, acceptFs_rx]
  simp [ReceiverSound, showing, geometryOf, hw, hw', hh, hh', htimeout, htimeout']

theorem loseLock_sound (cause : LossCause) {s : State} (hs : ReceiverSound s) : ReceiverSound (loseLock cause s) := by
  by_cases hl : s.rx.lock = .hunt
  · rw [loseLock_hunt cause hl]
    exact hs
  · obtain ⟨midFrame, hlose, -⟩ := loseLock_dropped cause hl
    obtain ⟨-, -, hrx, -, -, -, hcomp, -⟩ := markLoss_frame cause (lockDropped midFrame s)
    rw [hlose]
    refine receiverSound_of_cleared ?_ ?_
    · rw [hrx, lockDropped_rx]
      rfl
    · rw [hcomp, lockDropped_comp]

/-! ## Every step (R95, R105, R106, R108) -/

theorem execFs_sound {f w h : Word} {s t : State} (hs : ReceiverSound s) (hstatus : StatusInRange s)
    (ht : exec (.fs f w h) s = .next t) : ReceiverSound t := by
  cases hr : fsInRange w h with
  | true =>
    rw [exec_fs_inRange f hr] at ht
    rw [← Host.Outcome.next.inj ht]
    exact fsInRange_sound hr hstatus
  | false =>
    rw [exec_fs_outOfRange f hr] at ht
    rw [← Host.Outcome.next.inj ht]
    split
    · exact hs
    · next hl =>
      obtain ⟨-, -, -, -, -, hlocked, -⟩ := hs
      exact openOutOfRange_sound f w h (hlocked (by simp [hl])).2
    · next hl => exact openOutOfRange_sound f w h (supersede_watchdog hs (.inl hl))
    · next hl => exact openOutOfRange_sound f w h (supersede_watchdog hs (.inr hl))

theorem execLs_sound {kind : LineKind} {index : Nat} {s t : State} (hs : ReceiverSound s)
    (ht : exec (.ls kind index) s = .next t) : ReceiverSound t := by
  change execLs kind index s = _ at ht
  unfold execLs at ht
  split at ht
  · cases ht
    exact hs
  · cases ht
    exact hs
  · next hl =>
    split at ht <;> cases ht
    exact takeLs_sound kind index hs (.inl hl)
  · next hl =>
    cases ht
    exact takeLs_sound kind index hs (.inr hl)

theorem execDataByte_sound {b : Byte} {s t : State} (hs : ReceiverSound s) (ht : exec (.dataByte b) s = .next t) :
    ReceiverSound t := by
  change execDataByte b s = _ at ht
  unfold execDataByte at ht
  split at ht <;> cases ht
  · exact hs
  · exact hs
  · next hl => exact takeByte_sound b hs (.inl hl)
  · next hl => exact takeByte_sound b hs (.inr hl)

theorem execFe_sound {a b : Word} {x : Bool} {s t : State} (hs : ReceiverSound s)
    (ht : exec (.fe a b x) s = .next t) : ReceiverSound t := by
  change execFe a b x s = _ at ht
  unfold execFe at ht
  split at ht <;> cases ht
  · exact hs
  · exact receiverSound_congr (t := strayEnd s) rfl hs
  · next hl => exact takeFe_sound a b x hs (.inl hl)
  · next hl => exact takeFe_sound a b x hs (.inr hl)

theorem execWatchdogExpiry_sound {s t : State} (hs : ReceiverSound s) (ht : exec .watchdogExpiry s = .next t) :
    ReceiverSound t := by
  change execWatchdogExpiry s = _ at ht
  unfold execWatchdogExpiry at ht
  split at ht <;> cases ht
  · exact hs
  · exact loseLock_sound .watchdog hs

/-- Every command keeps the receiver sound: the items and the lock events by what they do, all others by leaving it alone. -/
theorem exec_receiverSound (c : Instr) {s t : State} (hs : ReceiverSound s) (hstatus : StatusInRange s)
    (ht : exec c s = .next t) : ReceiverSound t := by
  have hkeeps : KeepsReceiver c → ReceiverSound t := fun h => receiverSound_congr (h s t ht) hs
  cases c
  case pinReset =>
    cases ht
    exact receiverSound_of_cleared rfl rfl
  case fs f w h => exact execFs_sound hs hstatus ht
  case ls kind index => exact execLs_sound hs ht
  case dataByte b => exact execDataByte_sound hs ht
  case fe a b x => exact execFe_sound hs ht
  case idl =>
    cases ht
    exact hs
  case signalLoss =>
    cases ht
    exact loseLock_sound .signal hs
  case watchdogExpiry => exact execWatchdogExpiry_sound hs ht
  case leaseExpiry l f => exact hkeeps (leaseExpiry_keepsReceiver l f)
  case glyphLoadComplete => exact hkeeps glyphLoadComplete_keepsReceiver
  case noticeBuild => exact hkeeps noticeBuild_keepsReceiver
  case fsSent | lineSent | feSent | idlSent => exact hkeeps (sentRow_keepsReceiver (by decide))
  case returnPacketEnd | returnSignalLoss | laneFree | returnPacketStart | returnPacketByte =>
    exact hkeeps (returnRow_keepsReceiver (by simp))
  case assign | identify | configWrite | statusRead | resetTables | resetNode | claim | release | layerWrite | layerRead
      | commit | glyphDefine | glyphLoad | glyphDelete | glyphQuery | unknownKind =>
    exact hkeeps (requestRow_keepsReceiver (by decide))

/-- Settles O59: a step is the front command on the rest of the queue, which the receiver does not show. -/
theorem receiverStaysSound : Obligations.ReceiverStaysSound := by
  unfold Obligations.ReceiverStaysSound
  intro s t hs hstatus hstep
  unfold step at hstep
  split at hstep
  · cases hstep
    exact hs
  · next c rest _ => exact exec_receiverSound c (s := { s with pending := rest }) hs hstatus hstep

end Sys2Proof.Machine.StreamFraming
end

section
/-! SUPPORT. The stream transmitter: the frame markers and IDLs that leave on the forward lane out (R113, R114, R118 to R120). -/

namespace Sys2Proof.Machine.StreamTransmitter

section Marker

variable {s : State} {rest : List OutItem}

/-- The output frame opens by the first FE behind the FS (R113, R114). -/
theorem fsSent_of_fs {f w h : Word} (hseq : s.tx.sequence = .fs f w h :: rest) :
    exec .fsSent s = .next { s with tx := {
      state := if s.tx.state = .idle then
          (if rest.find? isFrameEnd = some .abortedFe then .aborting else .frame) else s.tx.state
      sequence := rest, activeSent := 0, blankSent := 0, lane := some (.fs f w h) } } := by
  change execFsSent s = _
  simp only [execFsSent, hseq, firstEndAborted_eq, decide_eq_true_eq]

/-- A received FE leaves as received (R118). -/
theorem feSent_of_fe {a b : Word} {x : Bool} (hseq : s.tx.sequence = .fe a b x :: rest) :
    exec .feSent s = .next (sendEnd (.fe a b x) rest s) := by
  change execFeSent s = _
  simp only [execFeSent, hseq]

/-- An aborted FE leaves with the counts of lines sent (R120). -/
theorem feSent_of_abortedFe (hseq : s.tx.sequence = .abortedFe :: rest) :
    exec .feSent s
      = .next (sendEnd (.fe (BitVec.ofNat 16 s.tx.activeSent) (BitVec.ofNat 16 s.tx.blankSent) true) rest s) := by
  change execFeSent s = _
  simp only [execFeSent, hseq]

/-- In IDLE an IDL leaves until an FS is at the head (R119). -/
theorem idlSent_of_idle (hidle : s.tx.state = .idle) (hhead : ∀ f w h, s.tx.sequence.head? ≠ some (.fs f w h)) :
    exec .idlSent s = .next { s with tx := { s.tx with lane := some .idl } } := by
  change execIdlSent s = _
  unfold execIdlSent
  split
  · next f w h _ _ hseq => exact absurd (congrArg List.head? hseq) (hhead f w h)
  · rfl
  · next hframe => cases hidle.symm.trans hframe
  · next haborting => cases hidle.symm.trans haborting

end Marker

/-- Settles O47: one rule per marker at the head; both kinds of FE leave by `sendEnd`. -/
theorem transmitterSendsMarkers : Obligations.TransmitterSendsMarkers :=
  ⟨fun _ _ _ _ _ => fsSent_of_fs, fun _ _ _ _ _ => feSent_of_fe, fun _ _ => feSent_of_abortedFe,
    fun _ => idlSent_of_idle⟩

end Sys2Proof.Machine.StreamTransmitter
end

section
/-! SUPPORT. Control packets: the packets that the part builds, the scan of a blank line's data area, and the close of the line
(R126 to R131, R133, R134, R138). -/

namespace Sys2Proof.Machine.ControlPackets

/-! ## Packets that the part builds (R128, R138, R161) -/

theorem beBytes_length (k n : Nat) : (beBytes k n).length = k := by
  induction k with
  | zero => rfl
  | succ k ih => exact congrArg (· + 1) ih

/-- Two bytes hold a word, most significant first. -/
theorem beNat_beBytes_word (w : Word) : beNat (beBytes 2 w.toNat) = w.toNat := by
  have hw := w.isLt
  simp only [beBytes, beNat, List.foldl_cons, List.foldl_nil, BitVec.toNat_ofNat]
  omega

section Sealed

variable (origin : Byte) (dest : SourceId) (seq kind : Byte) (payload : List Byte)

/-- What the CRC of a packet for the return lane covers: bytes 2 through the last payload byte (R128). -/
def sealedBody : List Byte :=
  [origin, BitVec.ofNat 8 (128 + dest.val), seq, kind, BitVec.ofNat 8 payload.length] ++ payload

/-- The bytes ahead of the CRC, and the CRC (R138). -/
theorem sealPacket_eq :
    sealPacket origin dest seq kind payload
      = ([0xC3, 0x5A] ++ sealedBody origin dest seq kind payload)
        ++ beBytes 2 (crc16 (sealedBody origin dest seq kind payload)).toNat := rfl

theorem sealPacket_length : (sealPacket origin dest seq kind payload).length = payload.length + 9 := by
  rw [sealPacket_eq, List.length_append, beBytes_length]
  simp [sealedBody]

theorem packetLength_sealPacket (h : payload.length ≤ 240) :
    packetLength (sealPacket origin dest seq kind payload) = payload.length :=
  Nat.mod_eq_of_lt (by omega)

/-- The two bytes that close the packet hold the CRC of those that it covers (R128). -/
theorem packetCrcGood_sealPacket : packetCrcGood (sealPacket origin dest seq kind payload) = true := by
  have hsplit : (sealPacket origin dest seq kind payload).length - 2
      = ([0xC3, 0x5A] ++ sealedBody origin dest seq kind payload).length := by
    rw [sealPacket_length]
    simp [sealedBody]
  have hcovered : ((sealPacket origin dest seq kind payload).take
      ((sealPacket origin dest seq kind payload).length - 2)).drop 2 = sealedBody origin dest seq kind payload := by
    rw [hsplit, sealPacket_eq, List.take_left]
    rfl
  have hcrc : packetCrc (sealPacket origin dest seq kind payload)
      = (crc16 (sealedBody origin dest seq kind payload)).toNat := by
    unfold packetCrc
    rw [hsplit, sealPacket_eq, List.drop_left, beNat_beBytes_word]
  unfold packetCrcGood
  rw [hcovered, hcrc, beq_self_eq_true]

theorem packetSource_sealPacket : packetSource (sealPacket origin dest seq kind payload) = dest := by
  have hbyte : (packetByte (sealPacket origin dest seq kind payload) 3).toNat = 128 + dest.val :=
    Nat.mod_eq_of_lt (by omega)
  refine Fin.ext ?_
  change (packetByte (sealPacket origin dest seq kind payload) 3).toNat % 8 = dest.val
  omega

theorem packetPayload_sealPacket (h : payload.length ≤ 240) :
    packetPayload (sealPacket origin dest seq kind payload) = payload := by
  unfold packetPayload
  rw [packetLength_sealPacket _ _ _ _ _ h]
  exact List.take_left

/-- The three checks of a node upstream (R161). -/
theorem returnPacketGood_sealPacket (h : payload.length ≤ 240) :
    returnPacketGood (sealPacket origin dest seq kind payload) = true := by
  have hfirst : packetByte (sealPacket origin dest seq kind payload) 0 = 0xC3 := rfl
  have hsecond : packetByte (sealPacket origin dest seq kind payload) 1 = 0x5A := rfl
  unfold returnPacketGood
  rw [hfirst, hsecond, packetLength_sealPacket _ _ _ _ _ h, sealPacket_length, packetCrcGood_sealPacket]
  simp [h]

end Sealed

/-- Settles O26: the bytes of the packet read back, its CRC among them. -/
theorem sealedPacketsPassRelayCheck : Obligations.SealedPacketsPassRelayCheck := by
  unfold Obligations.SealedPacketsPassRelayCheck
  intro origin dest seq kind payload h
  exact ⟨returnPacketGood_sealPacket _ _ _ _ _ h, sealPacket_length _ _ _ _ _, packetSource_sealPacket _ _ _ _ _,
    packetPayload_sealPacket _ _ _ _ _ h⟩

/-! ## A byte of a blank line (R102, R125) -/

/-- The state after the byte `b` of the open blank line `l`, whose record was `r`, before the line is closed: the receiver has
counted the byte and the sorter has scanned it. -/
def scanned (b : Byte) (l : OpenLine) (r : LineRecord) (s : State) : State :=
  { s with
    rx := { s.rx with openLine := some { l with count := l.count + 1 } }
    sorter := ⟨s.sorter.address, some (scanByte s.sorter.address b r)⟩ }

section BlankByte

variable {s : State} {l : OpenLine} {r : LineRecord}

theorem exec_dataByte_blank (b : Byte) (hin : InFrame s) (hopen : s.rx.openLine = some l) (hkind : l.kind = .blank)
    (hline : s.sorter.line = some r) (hcount : l.count + 1 ≤ lineBytes s) :
    exec (.dataByte b) s
      = .next (if l.count + 1 = lineBytes s then closeBlank (l.count + 1) (scanned b l r s) else scanned b l r s) := by
  have htake : exec (.dataByte b) s = .next (takeByte b s) := by
    change execDataByte b s = _
    unfold execDataByte
    rcases hin with hl | hl <;> rw [hl]
  obtain ⟨kind, index, count⟩ := l
  cases hkind
  rw [htake]
  unfold takeByte
  rw [hopen]
  dsimp only
  unfold lineByte
  dsimp only
  rw [if_neg (Nat.not_lt.mpr hcount)]
  unfold blankByte
  rw [if_pos hcount]
  dsimp only
  rw [hline]
  rfl

/-- Before the last byte of the line only the receiver's count and the record change. -/
theorem exec_dataByte_within (b : Byte) (hin : InFrame s) (hopen : s.rx.openLine = some l) (hkind : l.kind = .blank)
    (hcount : l.count + 1 < lineBytes s) (hline : s.sorter.line = some r) :
    exec (.dataByte b) s = .next (scanned b l r s) := by
  rw [exec_dataByte_blank b hin hopen hkind hline (Nat.le_of_lt hcount), if_neg (Nat.ne_of_lt hcount)]

/-- The last byte of the line closes it (R131). -/
theorem exec_dataByte_last (b : Byte) (hin : InFrame s) (hopen : s.rx.openLine = some l) (hkind : l.kind = .blank)
    (hcount : l.count + 1 = lineBytes s) (hline : s.sorter.line = some r) :
    exec (.dataByte b) s = .next (closeBlank (l.count + 1) (scanned b l r s)) := by
  rw [exec_dataByte_blank b hin hopen hkind hline (Nat.le_of_eq hcount), if_pos hcount]

end BlankByte

/-! ## What a scanned byte makes of the record (R126 to R130) -/

section Record

variable {r : LineRecord}

theorem scanByte_start (address b : Byte) (hscan : r.scan = .seeking) (hpacket : r.packet = []) :
    scanByte address b r = scanStart b r := by
  unfold scanByte
  rw [hscan, hpacket]
  rfl

theorem scanByte_second (address b : Byte) (hscan : r.scan = .seeking) (hpacket : r.packet = [0xC3]) :
    scanByte address b r = scanSecond b r := by
  unfold scanByte
  rw [hscan, hpacket]
  rfl

theorem scanByte_inPacket (address b : Byte) (hscan : r.scan = .inPacket) :
    scanByte address b r = scanPacket address b r := by
  unfold scanByte
  rw [hscan]

/-- Once the area has ended or the line is abandoned, bytes are ignored. -/
theorem scanByte_ignored (address b : Byte) (hscan : r.scan = .ended ∨ r.scan = .abandoned) : scanByte address b r = r := by
  unfold scanByte
  rcases hscan with hscan | hscan <;> rw [hscan]

theorem scanStart_zero (r : LineRecord) : scanStart 0 r = { r with scan := .ended } := rfl

theorem scanStart_sync (hmore : r.scanPos + 1 ≠ r.bound) : scanStart 0xC3 r = { r with packet := [0xC3] } := by
  unfold scanStart
  rw [if_neg (by decide), if_pos ⟨rfl, hmore⟩]

theorem scanStart_other {b : Byte} (hzero : b ≠ 0) (hsync : b ≠ 0xC3) : scanStart b r = malformedStart r := by
  unfold scanStart
  rw [if_neg hzero, if_neg fun h => hsync h.1]

/-- A first sync byte that is the last byte of the data area begins no packet. -/
theorem scanStart_atEnd {b : Byte} (hzero : b ≠ 0) (hend : r.scanPos + 1 = r.bound) : scanStart b r = malformedStart r := by
  unfold scanStart
  rw [if_neg hzero, if_neg fun h => h.2 hend]

/-- Byte 6 tells whether the packet fits (R127). -/
theorem scanPacket_lengthByte (address b : Byte) (hlength : (r.packet ++ [b]).length = 7) :
    scanPacket address b r
      = if 240 < b.toNat ∨ r.bound < r.scanPos + (b.toNat + 9) then malformedStart r
        else { r with packet := r.packet ++ [b] } := by
  unfold scanPacket
  dsimp only
  rw [if_pos hlength]

theorem scanPacket_complete (address b : Byte) (hlong : 7 < (r.packet ++ [b]).length)
    (hlength : (r.packet ++ [b]).length = packetLength (r.packet ++ [b]) + 9) :
    scanPacket address b r
      = judgePacket address (r.packet ++ [b]) (nextPosition (r.packet ++ [b]).length r) := by
  unfold scanPacket
  dsimp only
  rw [if_neg (by omega), if_pos ⟨hlong, hlength⟩]

theorem scanPacket_within (address b : Byte)
    (hlength : (r.packet ++ [b]).length < 7
      ∨ 7 < (r.packet ++ [b]).length ∧ (r.packet ++ [b]).length ≠ packetLength (r.packet ++ [b]) + 9) :
    scanPacket address b r = { r with packet := r.packet ++ [b] } := by
  unfold scanPacket
  dsimp only
  rw [if_neg (by omega), if_neg (by omega)]

end Record

/-! ## A complete packet (R128 to R130) -/

/-- The decision of a good packet; a broadcast that no node may execute counts as malformed with it (R130). -/
theorem decided_eq (address : Byte) (p : Packet) :
    decided address p
      = (sortDecision address p, decide (packetBroadcast p = true ∧ sortDecision address p = .forward)) := by
  have hcast : packetBroadcast p = decide (packetDest p = 63) := rfl
  have hkinds : packetKind p = kindCommit ∨ packetKind p = kindReset ↔ packetKind p = 0x22 ∨ packetKind p = 0x0F := Iff.rfl
  unfold decided sortDecision
  simp only [hcast, hkinds, decide_eq_true_eq]
  by_cases hdest : packetDest p = 63
  · rw [if_pos hdest, if_pos hdest]
    split <;> simp [hdest]
  · rw [if_neg hdest, if_neg hdest, decide_eq_false fun h => hdest h.1]
    split <;> rfl

theorem judgePacket_badCrc (address : Byte) {p : Packet} (r : LineRecord) (hcrc : packetCrcGood p = false) :
    judgePacket address p r = { r with counts := { r.counts with badCrc := r.counts.badCrc + 1 } } := by
  unfold judgePacket
  rw [if_pos hcrc]

theorem judgePacket_badHeader (address : Byte) {p : Packet} (r : LineRecord) (hcrc : packetCrcGood p = true)
    (hheader : packetHeaderValid p = false) : judgePacket address p r = countMalformed r := by
  unfold judgePacket
  rw [if_neg (by simp [hcrc]), if_pos hheader]

theorem consumes_eq (d : Decision) : (if d.consumes then 1 else 0) = if d = .forward then 0 else 1 := by
  cases d <;> rfl

theorem forwards_eq (d : Decision) : (if d.forwards then 1 else 0) = if d = .consume then 0 else 1 := by
  cases d <;> rfl

/-- The counts of a line with one more packet sorted (R130). -/
def sortedCounts (d : Decision × Bool) (n : LineCounts) : LineCounts :=
  { consumed := n.consumed + (if d.1 = .forward then 0 else 1)
    forwarded := n.forwarded + (if d.1 = .consume then 0 else 1)
    badCrc := n.badCrc
    malformed := n.malformed + (if d.2 then 1 else 0) }

/-- A packet that passes both checks joins the decision list (R130). -/
theorem judgePacket_sorted (address : Byte) {p : Packet} (r : LineRecord) (hcrc : packetCrcGood p = true)
    (hheader : packetHeaderValid p = true) :
    judgePacket address p r
      = { r with
          decisions := r.decisions ++ [(p, (decided address p).1)]
          counts := sortedCounts (decided address p) r.counts } := by
  unfold judgePacket
  rw [if_neg (by simp [hcrc]), if_neg (by simp [hheader]), decided_eq]
  unfold addDecision sortedCounts
  simp only [consumes_eq, forwards_eq, decide_eq_true_eq]
  split <;> rfl

/-- Whatever becomes of a complete packet, the scan goes on behind it (R126, R127). -/
theorem judgePacket_scan (address : Byte) (p : Packet) (r : LineRecord) :
    (judgePacket address p r).bound = r.bound ∧ (judgePacket address p r).scanPos = r.scanPos
    ∧ (judgePacket address p r).packet = r.packet ∧ (judgePacket address p r).scan = r.scan := by
  unfold judgePacket
  dsimp only
  (repeat' split) <;> exact ⟨rfl, rfl, rfl, rfl⟩

/-! ## The close of a blank line (R131, R133, R134) -/

/-- A blank line closed with the record `r` of its whole input: the packets to consume are offered, the line of the output
sequence is completed, the counts are sent, and the record ends. -/
def closeRecord (r : LineRecord) (s : State) : State :=
  cutBlank (sendCounts r.counts (completeLine (.blank (forwardedPackets r) r.bound) ((consumedPackets r).foldl offerRequest s)))

theorem closeBlank_eq {s : State} {r : LineRecord} (received : Nat) (hline : s.sorter.line = some r) :
    closeBlank received s = closeRecord (endRecord received r) s := by
  unfold closeBlank
  rw [hline]
  rfl

section Close

variable (r : LineRecord) (s : State)

/-- The close in the order of its parts. -/
theorem closeRecord_rest :
    (closeRecord r s).agent = ((consumedPackets r).foldl offerRequest s).agent
    ∧ (closeRecord r s).tx
        = { s.tx with sequence := s.tx.sequence.map (completeItem (.blank (forwardedPackets r) r.bound)) }
    ∧ (closeRecord r s).comp = s.comp ∧ (closeRecord r s).rx = s.rx := by
  obtain ⟨hrx, htx⟩ := StreamFraming.offerRequests_frame (consumedPackets r) s
  have hcomp : ((consumedPackets r).foldl offerRequest s).comp = s.comp :=
    foldl_keeps State.comp offerRequest (fun t p => by simp) (consumedPackets r) s
  exact ⟨by simp [closeRecord], by simp [closeRecord, completeLine, htx], by simp [closeRecord, hcomp],
    by simp [closeRecord, hrx]⟩

theorem closeRecord_outsideItem : StreamFraming.outsideItem (closeRecord r s) = StreamFraming.outsideItem s :=
  (StreamFraming.sendCounts_outsideItem r.counts _).trans (StreamFraming.offerRequests_outsideItem (consumedPackets r) s)

/-- The record ends, and the node address stays. -/
theorem closeRecord_sorter : (closeRecord r s).sorter = ⟨s.sorter.address, none⟩ :=
  congrArg State.sorter (closeRecord_outsideItem r s)

/-- The line's counts, and the packets that found no place, in Node Status. -/
structure CountsSent (r : LineRecord) (s t : State) : Prop where
  consumed : t.counter .pktConsumed = min (s.counter .pktConsumed + r.counts.consumed) 4294967295
  forwarded : t.counter .pktForwarded = min (s.counter .pktForwarded + r.counts.forwarded) 4294967295
  badCrc : t.counter .pktBadCrc = min (s.counter .pktBadCrc + r.counts.badCrc) 4294967295
  malformed : t.counter .pktMalformed = min (s.counter .pktMalformed + r.counts.malformed) 4294967295
  overflow : s.agent.inbound.length ≤ 4 → s.counter .reqOverflow ≤ 4294967295 → t.counter .reqOverflow
    = min (s.counter .reqOverflow + (s.agent.inbound.length + (consumedPackets r).length - 4)) 4294967295

theorem CountsSent.congr {r : LineRecord} {s s' t t' : State} (h : CountsSent r s t)
    (hs : ∀ c ∈ StreamFraming.closeCounters, s'.counter c = s.counter c) (hin : s'.agent.inbound = s.agent.inbound)
    (ht : ∀ c ∈ StreamFraming.closeCounters, t'.counter c = t.counter c) : CountsSent r s' t' := by
  obtain ⟨hconsumed, hforwarded, hbadCrc, hmalformed, hoverflow⟩ := h
  constructor <;> rw [hs _ (by decide), ht _ (by decide)]
  · exact hconsumed
  · exact hforwarded
  · exact hbadCrc
  · exact hmalformed
  · rw [hin]
    exact hoverflow

theorem closeRecord_counts : CountsSent r s (closeRecord r s) := by
  let offered := (consumedPackets r).foldl offerRequest s
  have hcount : ∀ c, (closeRecord r s).counter c = (sendCounts r.counts offered).counter c := fun _ => rfl
  have hoffered : ∀ c, c ≠ .reqOverflow → offered.counter c = s.counter c :=
    fun c hc => offerRequests_counter (consumedPackets r) s c hc
  have hbumped : ∀ c k, c ≠ .reqOverflow → (sendCounts r.counts offered).counter c = saturate (offered.counter c) k →
      (closeRecord r s).counter c = min (s.counter c + k) 4294967295 := fun c k hc h => by
    rw [hcount, h, hoffered c hc, saturate_eq]
  refine ⟨hbumped _ _ (by decide) ?_, hbumped _ _ (by decide) ?_, hbumped _ _ (by decide) ?_, hbumped _ _ (by decide) ?_,
    fun hplaces htop => ?_⟩
  case refine_5 =>
    have h := offerRequests_overflow (consumedPackets r) s htop
    rw [Nat.max_eq_left hplaces] at h
    rw [hcount, ← h]
    simp [sendCounts, counter_bump, offered]
  all_goals simp [sendCounts, counter_bump]

end Close

/-! ## The end of a line's input (R126, R127, R131) -/

/-- A record whose packet area has ended, or whose line is abandoned, or that stands at a start position. -/
theorem endRecord_settled (received : Nat) {r : LineRecord}
    (h : r.scan = .ended ∨ r.scan = .abandoned ∨ r.scan = .seeking ∧ r.packet = []) :
    endRecord received r = { r with bound := min r.bound received } := by
  unfold endRecord
  rcases h with h | h | ⟨h, hpacket⟩ <;> rw [h]
  rw [hpacket]
  rfl

/-- A packet not ended is a malformed start. -/
theorem endRecord_cut (received : Nat) {r : LineRecord} (h : r.scan = .inPacket ∨ r.scan = .seeking ∧ r.packet ≠ []) :
    endRecord received r = malformedStart { r with bound := min r.bound received } := by
  unfold endRecord
  rcases h with h | ⟨h, hpacket⟩ <;> rw [h]
  dsimp only
  rw [if_neg (by simpa using hpacket)]

theorem endRecord_keeps (received : Nat) (r : LineRecord) :
    (endRecord received r).bound = min r.bound received ∧ (endRecord received r).scanPos = r.scanPos
    ∧ (endRecord received r).decisions = r.decisions := by
  unfold endRecord
  dsimp only
  (repeat' split) <;> exact ⟨rfl, rfl, rfl⟩

/-- The last byte of the data area at a start position: only 0x00 is no malformed start (R126). -/
theorem endRecord_scanStart_malformed (received : Nat) {r : LineRecord} (b : Byte)
    (hend : r.scanPos + 1 = r.bound) :
    (endRecord received (scanStart b r)).counts.malformed = r.counts.malformed + (if b = 0x00 then 0 else 1) := by
  by_cases hzero : b = 0
  · rw [hzero, scanStart_zero, endRecord_settled received (.inl rfl), if_pos rfl]
    rfl
  · rw [scanStart_atEnd hzero hend, endRecord_settled received (.inr (.inl rfl)), if_neg hzero]
    rfl

/-! ## The bytes of a blank line -/

/-- The last byte of a packet. -/
theorem dataByte_endsPacket {s : State} {l : OpenLine} {r : LineRecord} {b : Byte} (hin : InFrame s)
    (hopen : s.rx.openLine = some l) (hkind : l.kind = .blank) (hcount : l.count + 1 < lineBytes s)
    (hline : s.sorter.line = some r) (hscan : r.scan = .inPacket) (hlong : 8 ≤ r.packet.length)
    (hlength : (r.packet ++ [b]).length = packetLength (r.packet ++ [b]) + 9) :
    exec (.dataByte b) s = .next (scanned b l r s)
    ∧ (scanned b l r s).sorter = ⟨s.sorter.address,
        some (judgePacket s.sorter.address (r.packet ++ [b]) (nextPosition (r.packet ++ [b]).length r))⟩ := by
  have hlong' : 7 < (r.packet ++ [b]).length := by
    rw [List.length_append, List.length_singleton]
    omega
  refine ⟨exec_dataByte_within b hin hopen hkind hcount hline, ?_⟩
  rw [← scanPacket_complete s.sorter.address b hlong' hlength, ← scanByte_inPacket s.sorter.address b hscan]
  rfl

/-- Settles O24: each byte's own scan, put through DATA_BYTE; the last byte of the line also closes it. -/
theorem blankLineBytesScanned : Obligations.BlankLineBytesScanned := by
  unfold Obligations.BlankLineBytesScanned
  refine ⟨?_, ?_, ?_, ?_⟩
  · intro s l r b hin hopen hkind hcount hline hscan hlong hlength p d
    obtain ⟨hexec, hsorter⟩ := dataByte_endsPacket hin hopen hkind hcount hline hscan hlong hlength
    obtain ⟨hbound, hpos, hpacket, hnext⟩ := judgePacket_scan s.sorter.address p (nextPosition p.length r)
    refine ⟨_, _, hexec, hsorter, hbound, hpos, hpacket, hnext, fun hcrc => ?_, fun hcrc hheader => ?_,
      fun hcrc hheader => ?_, rfl, rfl, rfl⟩
    · rw [judgePacket_badCrc s.sorter.address _ hcrc]
      exact ⟨rfl, rfl⟩
    · rw [judgePacket_badHeader s.sorter.address _ hcrc hheader]
      exact ⟨rfl, rfl⟩
    · rw [judgePacket_sorted s.sorter.address _ hcrc hheader]
      exact ⟨rfl, rfl⟩
  · intro s l r b hin hopen hkind hcount hline hscan hpacket hmore
    have hstart := scanByte_start s.sorter.address b hscan hpacket
    refine ⟨scanned b l r s, scanStart b r, exec_dataByte_within b hin hopen hkind hcount hline,
      congrArg (fun q => (⟨s.sorter.address, some q⟩ : Sorter)) hstart, ?_⟩
    by_cases hzero : b = 0
    · subst hzero
      exact ⟨rfl, rfl, rfl, fun _ => ⟨rfl, rfl⟩, fun h => absurd h (by decide), fun h => absurd rfl h, rfl, rfl, rfl⟩
    by_cases hsync : b = 0xC3
    · subst hsync
      rw [scanStart_sync (Nat.ne_of_lt hmore)]
      exact ⟨rfl, rfl, rfl, fun h => absurd h (by decide), fun _ => ⟨hscan, rfl, rfl⟩, fun _ h => absurd rfl h,
        rfl, rfl, rfl⟩
    · rw [scanStart_other hzero hsync]
      exact ⟨rfl, rfl, rfl, fun h => absurd h hzero, fun h => absurd h hsync, fun _ _ => ⟨rfl, rfl⟩, rfl, rfl, rfl⟩
  · intro s l r b hin hopen hkind hcount hline hscan hpacket hend
    have hexec := exec_dataByte_last b hin hopen hkind hcount hline
    rw [closeBlank_eq _ rfl, scanByte_start s.sorter.address b hscan hpacket] at hexec
    refine ⟨_, hexec, closeRecord_sorter _ _, ?_⟩
    rw [(closeRecord_counts _ _).malformed, endRecord_scanStart_malformed _ b hend]
    rfl
  · intro s l r b hin hopen hkind hcount hline p malformed
    refine ⟨scanned b l r s, _, exec_dataByte_within b hin hopen hkind hcount hline, rfl, fun hscan hpacket hb => ?_,
      fun hscan hpacket hb => ?_, fun hscan hseven hbad => ?_, fun hscan hseven hshort hfits => ?_,
      fun hscan hwithin => ?_, fun hscan => scanByte_ignored s.sorter.address b hscan, rfl, rfl, rfl⟩
    · rw [scanByte_second s.sorter.address b hscan hpacket]
      exact if_pos hb
    · rw [scanByte_second s.sorter.address b hscan hpacket]
      exact if_neg hb
    · rw [scanByte_inPacket s.sorter.address b hscan, scanPacket_lengthByte s.sorter.address b hseven, if_pos hbad]
      rfl
    · rw [scanByte_inPacket s.sorter.address b hscan, scanPacket_lengthByte s.sorter.address b hseven,
        if_neg (by omega)]
    · rw [scanByte_inPacket s.sorter.address b hscan, scanPacket_within s.sorter.address b hwithin]

end Sys2Proof.Machine.ControlPackets
end

section
/-! SUPPORT. Control packets: the items that find a blank line short, and what its close hands off (R99 to R104, R131, R145). -/

namespace Sys2Proof.Machine.ControlPackets

/-! ## An item that finds the open line short (R99, R102, R131) -/

/-- The line is closed at the bytes received, after the fault that it is (R102, R131). -/
theorem endOpenLine_shortBlank {s : State} {l : OpenLine} {r : LineRecord} (hopen : s.rx.openLine = some l)
    (hkind : l.kind = .blank) (hcount : l.count < lineBytes s) (hline : s.sorter.line = some r) :
    endOpenLine s = StreamFraming.withoutLine (closeRecord (endRecord l.count r) (faultToRaw .lineLength s)) := by
  have hfault : (faultToRaw .lineLength s).sorter.line = some r := by simpa using hline
  unfold endOpenLine
  rw [hopen]
  dsimp only
  rw [if_pos hcount]
  unfold finishShort
  rw [hkind]
  dsimp only
  rw [closeBlank_eq _ hfault]
  rfl

theorem faultToRaw_counter_of_close (k : FaultKind) (s : State) {c : Counter} (hc : c ∈ StreamFraming.closeCounters) :
    (faultToRaw k s).counter c = s.counter c := by
  rw [faultToRaw_counter, if_neg]
  rintro ⟨-, -, rfl⟩
  exact absurd hc (by decide)

/-- What the end of the short line hands off. -/
theorem endOpenLine_handsOff {s : State} {l : OpenLine} {r0 : LineRecord} (hopen : s.rx.openLine = some l)
    (hkind : l.kind = .blank) (hcount : l.count < lineBytes s) (hline : s.sorter.line = some r0)
    (hplaces : s.agent.inbound.length ≤ 4) :
    let r := endRecord l.count r0
    (endOpenLine s).sorter = ⟨s.sorter.address, none⟩
    ∧ (endOpenLine s).agent = { s.agent with inbound := (s.agent.inbound ++ consumedPackets r).take 4 }
    ∧ (endOpenLine s).tx.sequence = s.tx.sequence.map (completeItem (.blank (forwardedPackets r) r.bound))
    ∧ CountsSent r s (endOpenLine s) := by
  intro r
  obtain ⟨hagent, htx, -, -⟩ := closeRecord_rest r (faultToRaw .lineLength s)
  rw [offerRequests_inbound _ _ (by simpa using hplaces)] at hagent
  rw [endOpenLine_shortBlank hopen hkind hcount hline]
  refine ⟨?_, ?_, ?_, ?_⟩
  · refine (closeRecord_sorter r (faultToRaw .lineLength s)).trans ?_
    simp
  · refine hagent.trans ?_
    simp
  · refine (congrArg Transmitter.sequence htx).trans ?_
    simp
  · exact (closeRecord_counts r (faultToRaw .lineLength s)).congr
      (fun c hc => (faultToRaw_counter_of_close .lineLength s hc).symm) (by simp) fun _ _ => rfl

/-- A short line leaves the receiver in RAW, in the frame's geometry (R102, R105). -/
theorem endOpenLine_raw {s : State} (hin : InFrame s) (hshort : openShort s = true) :
    (endOpenLine s).rx.lock = .raw ∧ lineBytes (endOpenLine s) = lineBytes s := by
  have hrx := StreamFraming.endOpenLine_rx s
  rw [if_pos hshort, faultToRaw_rx] at hrx
  unfold lineBytes
  rw [hrx]
  rcases hin with hl | hl <;> simp [hl]

/-- What the command `c` makes of a state whose open line ends short with it, adding `items` to the output sequence: `v` is the
state before any FRAME_START, and before the completion of a request that it waits for (R99, R100, R101, R104, R145). -/
structure EndsShort (c : Instr) (items : List OutItem) (s v t : State) : Prop where
  exec : exec c s = .next t
  address : v.sorter.address = (endOpenLine s).sorter.address
  agent : v.agent = (endOpenLine s).agent
  counters : ∀ k ∈ StreamFraming.closeCounters, v.counter k = (endOpenLine s).counter k
  inbound : t.agent.inbound = v.agent.inbound
  sequence : t.tx.sequence = (endOpenLine s).tx.sequence ++ items
  begun : ∀ index, c = .ls .blank index → t.sorter.line = some (newLineRecord (lineBytes s))
  ended : (∀ index, c ≠ .ls .blank index) → t.sorter.line = (endOpenLine s).sorter.line
  completed : ∀ f w h, c = .fs f w h → fsInRange w h = true → RequestCompleted v (fsMeets f w h s)
    ∧ t.status = (fsMeets f w h s).status ∧ t.sorter = (fsMeets f w h s).sorter
  direct : (∀ f w h, c = .fs f w h → fsInRange w h = false) → v = t

section Short

variable {s : State}

/-! ### FE -/

theorem endsShort_fe (a b : Word) (x : Bool) (hin : InFrame s) (hshort : openShort s = true) :
    EndsShort (.fe a b x) [.fe a b x] s (takeFe a b x s) (takeFe a b x s) := by
  have hjudge : judgeFe a b x (endOpenLine s) = endOpenLine s :=
    StreamFraming.judgeFe_raw a b x (endOpenLine_raw hin hshort).1
  have htake : takeFe a b x s = appendItem (.fe a b x) (setLock .gap (endOpenLine s)) := by
    rw [takeFe, hjudge]
  refine ⟨StreamFraming.exec_fe_inFrame hin a b x, ?_, ?_, fun k _ => ?_, rfl, ?_, nofun, fun _ => ?_, nofun, fun _ => rfl⟩
  all_goals rw [htake]; rfl

/-! ### LS -/

/-- An LS that finds the open line short takes no plan (R52, R101), so its reads meet no request. -/
theorem lsFinds_short (kind : LineKind) (index : Nat) (hshort : openShort s = true) :
    lsFinds kind index s = (s, standingReads s) := by
  have hplan : lsPlannable kind index s = false := by
    unfold openShort at hshort
    unfold lsPlannable
    cases hopen : s.rx.openLine with
    | none => rw [hopen] at hshort; cases hshort
    | some l =>
      rw [hopen] at hshort
      have hopenAll : (some l).all (fun l => decide (lineBytes s ≤ l.count)) = false :=
        decide_eq_false (Nat.not_le.mpr (of_decide_eq_true hshort))
      rw [hopenAll, Bool.and_false, Bool.false_and]
  unfold lsFinds
  rw [hplan]
  rfl

/-- A line that opens in RAW: it takes its place in the output sequence, and in the arriving slot or the sorter. -/
def openedInRaw (kind : LineKind) (index : Nat) (s : State) : State :=
  let s1 := appendLine kind index { s with rx := { s.rx with openLine := some ⟨kind, index, 0⟩ } }
  match kind with
  | .active => occupyArriving index s1
  | .blank => beginBlank (lineBytes s) s1

theorem beginActive_raw (index : Nat) (x : Snapshot) {u : State} (hraw : u.rx.lock = .raw) :
    beginActive index x u = occupyArriving index u := by
  unfold beginActive
  rw [hraw]

theorem openLine_raw (kind : LineKind) (index : Nat) (x : Snapshot) {u : State} (hraw : u.rx.lock = .raw)
    (hbytes : lineBytes u ≠ 0) : openLine kind index x u = openedInRaw kind index u := by
  cases kind with
  | active =>
    unfold openLine
    dsimp only
    rw [beginActive_raw index x (by simpa using hraw)]
    exact if_neg hbytes
  | blank => exact if_neg hbytes

theorem takeLs_short (kind : LineKind) (index : Nat) (hin : InFrame s) (hshort : openShort s = true) :
    takeLs kind index s = openedInRaw kind index (endOpenLine s) := by
  obtain ⟨hraw, hbytes⟩ := endOpenLine_raw hin hshort
  have hsome : lineBytes s ≠ 0 := by
    unfold openShort at hshort
    split at hshort
    · cases hshort
    · have := of_decide_eq_true hshort
      omega
  have hjudge : judgeLs kind index (endOpenLine s) = endOpenLine s := by
    unfold judgeLs
    rw [hraw]
  unfold takeLs
  rw [lsFinds_short kind index hshort]
  dsimp only
  rw [hjudge, openLine_raw kind index _ hraw (by rw [hbytes]; exact hsome)]

theorem exec_ls_short (kind : LineKind) (index : Nat) (hin : InFrame s) (hshort : openShort s = true) :
    exec (.ls kind index) s = .next (openedInRaw kind index (endOpenLine s)) := by
  have hfault : lsFault kind (openedInRaw kind index (endOpenLine s)) = none := by cases kind <;> rfl
  change execLs kind index s = _
  unfold execLs
  rw [takeLs_short kind index hin hshort, hfault]
  rcases hin with hl | hl <;> rw [hl]

theorem endsShort_ls (kind : LineKind) (index : Nat) (hin : InFrame s) (hshort : openShort s = true) :
    EndsShort (.ls kind index) [.line ⟨kind, index, .incomplete, []⟩] s
      (openedInRaw kind index (endOpenLine s)) (openedInRaw kind index (endOpenLine s)) := by
  have hexec := exec_ls_short kind index hin hshort
  cases kind with
  | active => exact ⟨hexec, rfl, rfl, fun _ _ => rfl, rfl, rfl, nofun, fun _ => rfl, nofun, fun _ => rfl⟩
  | blank =>
    refine ⟨hexec, rfl, rfl, fun _ _ => rfl, rfl, rfl, fun _ _ => ?_, fun h => absurd rfl (h index), nofun, fun _ => rfl⟩
    rw [← (endOpenLine_raw hin hshort).2]
    rfl

/-! ### FS -/

/-- The end of the old frame adds its aborted FE to what the end of the line leaves (R99). -/
theorem supersede_afterLine (s : State) :
    (supersede s).sorter = (endOpenLine s).sorter ∧ (supersede s).agent = (endOpenLine s).agent
    ∧ (supersede s).tx.sequence = (endOpenLine s).tx.sequence ++ [.abortedFe]
    ∧ ∀ c ∈ StreamFraming.closeCounters, (supersede s).counter c = (endOpenLine s).counter c := by
  have htx : (firstFault .nestedStart (endOpenLine s)).tx = (endOpenLine s).tx := by simp
  refine ⟨by simp [supersede], by simp [supersede], ?_, fun c hc => ?_⟩
  · rw [← htx]
    rfl
  · change (firstFault .nestedStart (endOpenLine s)).counter c = _
    rw [StreamFraming.firstFault_counter, if_neg]
    rintro ⟨-, rfl⟩
    exact absurd hc (by decide)

theorem endsShort_fs_outOfRange (f : Word) {w h : Word} (hrange : fsInRange w h = false) (hin : InFrame s) :
    EndsShort (.fs f w h) [.abortedFe, .fs f w h] s
      (openOutOfRange f w h (supersede s)) (openOutOfRange f w h (supersede s)) := by
  obtain ⟨hsorter, hagent, hseq, hcount⟩ := supersede_afterLine s
  have hexec := StreamFraming.exec_fs_outOfRange f hrange s
  refine ⟨?_, congrArg Sorter.address hsorter, hagent, fun k hk => ?_, rfl, ?_, nofun,
    fun _ => congrArg Sorter.line hsorter, fun f' w' h' hc hrange' => ?_, fun _ => rfl⟩
  · rw [hexec]
    rcases hin with hl | hl <;> rw [hl]
  · rw [StreamFraming.openOutOfRange_counter, if_neg, hcount k hk]
    rintro rfl
    exact absurd hk (by decide)
  · rw [StreamFraming.openOutOfRange_tx, hseq, List.append_assoc]
    rfl
  · cases hc
    rw [hrange] at hrange'
    cases hrange'

end Short

/-! ### FS in range: the completion of the request in execution (R145) -/

/-- The completion of a request in execution by these steps takes no request from the inbound queue. -/
def KeepsInbound (steps : Config.Extent → State → State) : Prop :=
  ∀ s, s.agent.busy ≠ none → (steps .replied s).agent.inbound = s.agent.inbound

theorem placeDue_inbound (r : Request) (due : DueReply) (s : State) :
    (placeDue r due s).agent.inbound = s.agent.inbound := by
  cases due with
  | executed a => exact (placeReply_spec r a s).1
  | refused st => exact (placeUncached_spec r st s).1
  | copied q => exact (placeCopy_spec r q s).1

theorem requestStep_keepsInbound (serves : Request → Bool) (castable : Bool) {execute : Packet → State → State}
    (hx : ∀ p s, (execute p s).agent.inbound = s.agent.inbound) : KeepsInbound (requestStep serves castable execute) := by
  intro s hb
  have hact : ∀ accepts, (actRequest accepts execute s).agent.inbound = s.agent.inbound := by
    intro accepts
    unfold actRequest
    (repeat' split) <;> first | rfl | exact hx _ _
  have hreply : ∀ t : State, (replyRequest serves t).agent.inbound = t.agent.inbound := by
    intro t
    unfold replyRequest
    (repeat' split) <;> first | rfl | exact placeDue_inbound _ _ _
  unfold requestStep
  dsimp only
  rw [takeRequest_busy _ hb, hreply, hact]

theorem addressedStep_keepsInbound (k : Byte) {rule : Rule} (h : ∀ r s, (rule r s).1.agent = s.agent) :
    KeepsInbound (addressedStep k rule) :=
  requestStep_keepsInbound _ _ fun p s => (congrArg Agent.inbound (h (requestOf p) s) :)

theorem eitherStep_keepsInbound (serves : Request → Bool) {rule : Rule} {effect : Request → State → State}
    (h : ∀ r s, (rule r s).1.agent.inbound = s.agent.inbound)
    (he : ∀ r s, (effect r s).agent.inbound = s.agent.inbound) : KeepsInbound (eitherStep serves rule effect) := by
  refine requestStep_keepsInbound _ _ fun p s => ?_
  split
  · exact he (requestOf p) s
  · exact h (requestOf p) s

theorem resetTablesRule_inbound (r : Request) (s : State) : (resetTablesRule r s).1.agent.inbound = s.agent.inbound := by
  unfold resetTablesRule
  split <;> rfl

theorem resetNodeRule_inbound (r : Request) (s : State) : (resetNodeRule r s).1.agent.inbound = s.agent.inbound := by
  unfold resetNodeRule
  split <;> rfl

theorem startLoad_inbound (r : Request) (s : State) : (startLoad r s).agent.inbound = s.agent.inbound := by
  unfold startLoad
  split <;> rfl

theorem kindSteps_keepsInbound {k : Byte × (Config.Extent → State → State)} (hm : k ∈ kindSteps) : KeepsInbound k.2 := by
  simp only [kindSteps, List.mem_cons, List.not_mem_nil, or_false] at hm
  rcases hm with rfl | rfl | rfl | rfl | rfl | rfl | rfl | rfl | rfl | rfl | rfl | rfl | rfl
  · exact addressedStep_keepsInbound _ fun _ _ => rfl
  · exact addressedStep_keepsInbound _ StreamFraming.assignRule_agent
  · exact addressedStep_keepsInbound _ StreamFraming.configWriteRule_agent
  · exact addressedStep_keepsInbound _ StreamFraming.statusReadRule_agent
  · exact addressedStep_keepsInbound _ StreamFraming.claimRule_agent
  · exact addressedStep_keepsInbound _ StreamFraming.releaseRule_agent
  · exact addressedStep_keepsInbound _ StreamFraming.layerWriteRule_agent
  · exact addressedStep_keepsInbound _ StreamFraming.layerReadRule_agent
  · exact eitherStep_keepsInbound (fun r => r.kind == kindCommit)
      (fun r s => congrArg Agent.inbound (StreamFraming.commitRule_agent r s))
      fun r s => congrArg Agent.inbound (StreamFraming.commitBroadcast_agent r s)
  · exact addressedStep_keepsInbound _ StreamFraming.glyphDefineRule_agent
  · exact requestStep_keepsInbound isGlyphLoad false (execute := fun p => startLoad (requestOf p))
      fun p s => startLoad_inbound (requestOf p) s
  · exact addressedStep_keepsInbound _ StreamFraming.glyphDeleteRule_agent
  · exact addressedStep_keepsInbound _ fun _ _ => rfl

theorem unknownKindSteps_keepsInbound : KeepsInbound unknownKindSteps :=
  requestStep_keepsInbound _ false (execute := fun _ s => s) fun _ _ => rfl

theorem requestSteps_keepsInbound (r : Request) : KeepsInbound (requestSteps r) := by
  unfold requestSteps
  split
  · split
    · exact eitherStep_keepsInbound _ resetNodeRule_inbound resetNodeRule_inbound
    · exact eitherStep_keepsInbound _ resetTablesRule_inbound resetTablesRule_inbound
  · cases hf : kindSteps.find? (fun k => k.1 == r.kind) with
    | none => exact unknownKindSteps_keepsInbound
    | some k => exact kindSteps_keepsInbound (List.mem_of_find?_eq_some hf)

/-- The completion before a FRAME_START takes no further request (R144, R145). -/
theorem completeRequest_inbound (s : State) : (completeRequest s).agent.inbound = s.agent.inbound := by
  unfold completeRequest
  split
  · rfl
  · rfl
  · next hb => exact requestSteps_keepsInbound _ s (by simp [hb])
  · next hb => exact requestSteps_keepsInbound _ s (by simp [hb])

theorem completeRequest_line (s : State) : (completeRequest s).sorter.line = s.sorter.line :=
  congrArg (fun o => o.1.2.2.2) (completeRequest_outside s)

theorem frameStartFrame_keeps {geo : Geometry} {u t : State} (h : FrameStartFrame geo u t) :
    t.agent.inbound = u.agent.inbound ∧ t.tx = u.tx ∧ t.sorter = u.sorter ∧ t.status = u.status := by
  obtain ⟨-, -, -, h⟩ := h
  exact ⟨congrArg (fun x => x.agent.inbound) h,
    (congrArg State.tx h :), (congrArg State.sorter h :), (congrArg State.status h :)⟩

theorem endsShort_fs_inRange (f : Word) {w h : Word} (hrange : fsInRange w h = true) {s : State} (hin : InFrame s) :
    EndsShort (.fs f w h) [.abortedFe, .fs f w h] s
      (receiveFs f w h s) (frameStart (geometryOf f w h) (fsMeets f w h s)) := by
  obtain ⟨hsorter, hagent, hseq, hcount⟩ := supersede_afterLine s
  have hv : receiveFs f w h s = acceptFs f w h (supersede s) := StreamFraming.receiveFs_inFrame f w h hin
  have hframe := (StreamFraming.frameStart_frame (geometryOf f w h) (fsMeets f w h s)).2
  obtain ⟨htin, httx, htsorter, htstatus⟩ := frameStartFrame_keeps hframe
  have hin' : (fsMeets f w h s).agent.inbound = (receiveFs f w h s).agent.inbound := completeRequest_inbound _
  have hline : (fsMeets f w h s).sorter.line = (receiveFs f w h s).sorter.line := completeRequest_line _
  have htx : (fsMeets f w h s).tx = (receiveFs f w h s).tx := (StreamFraming.completeRequest_stream _).2.1
  refine ⟨StreamFraming.exec_fs_inRange f hrange s, ?_, ?_, fun k hk => ?_,
    htin.trans hin', ?_, nofun, fun _ => ?_,
    fun f' w' h' hc _ => ?_, fun hout => ?_⟩
  · rw [hv]
    exact congrArg Sorter.address hsorter
  · rw [hv]
    exact hagent
  · rw [hv]
    exact hcount k hk
  · rw [httx, htx, hv]
    exact (congrArg (· ++ [OutItem.fs f w h]) hseq).trans (List.append_assoc ..)
  · rw [htsorter, hline, hv]
    exact congrArg Sorter.line hsorter
  · cases hc
    exact ⟨completeRequest_completed _, htstatus, htsorter⟩
  · rw [hout f w h rfl] at hrange
    cases hrange

/-- Each of the items that end an open line, where the line is short. -/
theorem endsShort_of_endsLine {s : State} {c : Instr} {items : List OutItem} (hc : EndsLine c items) (hin : InFrame s)
    (hshort : openShort s = true) : ∃ v t, EndsShort c items s v t := by
  rcases hc with ⟨kind, index, rfl, rfl⟩ | ⟨a, b, x, rfl, rfl⟩ | ⟨f, w, h, rfl, rfl⟩
  · exact ⟨_, _, endsShort_ls kind index hin hshort⟩
  · exact ⟨_, _, endsShort_fe a b x hin hshort⟩
  · cases hrange : fsInRange w h with
    | false => exact ⟨_, _, endsShort_fs_outOfRange f hrange hin⟩
    | true => exact ⟨_, _, endsShort_fs_inRange f hrange hin⟩

/-- Settles O25: the close with the whole record, at the line's last byte and at an item that finds the line short. -/
theorem blankLineCloseHandsOff : Obligations.BlankLineCloseHandsOff := by
  unfold Obligations.BlankLineCloseHandsOff
  refine ⟨?_, ?_, ?_⟩
  · intro s l r0 b hin hopen hkind hcount hline hplaces r
    have hexec := exec_dataByte_last b hin hopen hkind hcount hline
    rw [closeBlank_eq _ rfl] at hexec
    let u := scanned b l r0 s
    obtain ⟨hagent, htx, hcomp, -⟩ := closeRecord_rest r u
    obtain ⟨hconsumed, hforwarded, hbadCrc, hmalformed, hoverflow⟩ := closeRecord_counts r u
    have hview : ∀ {α : Type} (f : State → α), f _ = f _ := fun f => congrArg f (closeRecord_outsideItem r u)
    exact ⟨_, hexec, closeRecord_sorter r u, hagent.trans (offerRequests_inbound _ u hplaces), htx, hconsumed, hforwarded,
      hbadCrc, hmalformed, hoverflow hplaces, hview State.layers, hview State.glyphs, hcomp, hview State.relay,
      hview fun x => x.status.settings⟩
  · intro s l r0 c items hin hopen hkind hcount hline hplaces hc r
    have hshort : openShort s = true := by
      unfold openShort
      rw [hopen]
      exact decide_eq_true hcount
    obtain ⟨v, t, h⟩ := endsShort_of_endsLine hc hin hshort
    obtain ⟨hsorter, hagent, hseq, hcounts⟩ := endOpenLine_handsOff hopen hkind hcount hline hplaces
    obtain ⟨hconsumed, hforwarded, hbadCrc, hmalformed, hoverflow⟩ :=
      hcounts.congr (fun _ _ => rfl) rfl h.counters
    refine ⟨v, t, h.exec, ?_, h.begun, fun hls => ?_, ?_, ?_, hconsumed, hforwarded, hbadCrc, hmalformed,
      hoverflow hplaces, ?_, h.completed, h.direct⟩
    · rw [h.address, hsorter]
    · rw [h.ended hls, hsorter]
    · rw [h.inbound, h.agent, hagent]
    · rw [h.sequence, hseq]
    · rw [h.agent, hagent]
  · intro received r0 r
    obtain ⟨hbound, hpos, hdecisions⟩ := endRecord_keeps received r0
    refine ⟨hbound, hpos, hdecisions, fun hcut => ?_, fun hsettled => ?_⟩
    · have h := endRecord_cut received hcut
      exact ⟨(congrArg LineRecord.scan h :), (congrArg LineRecord.counts h :)⟩
    · have h := endRecord_settled received hsettled
      exact ⟨(congrArg LineRecord.scan h :), (congrArg LineRecord.counts h :)⟩

end Sys2Proof.Machine.ControlPackets
end

section
/-! SUPPORT. Node addressing: what ASSIGN and IDENTIFY change and answer (R136, R172). -/

namespace Sys2Proof.Machine.ControlPackets

/-! ## A request whose own action leaves the agent and the relay alone -/

/-- A rule whose action changes nothing of the agent, the relay and the extents of the sender. -/
def LeavesAgentAndRelay (rule : Rule) : Prop :=
  ∀ r v, (rule r v).1.agent = v.agent ∧ (rule r v).1.relay = v.relay ∧ (rule r v).1.extents = v.extents

/-- The state `u`, but with the agent, the relay and the extents of `s`. -/
def elsewhereAs (u s : State) : State := { u with agent := s.agent, relay := s.relay, extents := s.extents }

/-- Such an action on a request in execution, and the end of the execution. -/
theorem release_executed {u s : State} {p : Packet} {rest : List Packet}
    (hagent : u.agent = (LayerOwnership.executing p rest s).agent)
    (hrelay : u.relay = (LayerOwnership.executing p rest s).relay)
    (hextents : u.extents = (LayerOwnership.executing p rest s).extents) :
    release u = finished rest (elsewhereAs u s) := by
  have hu : u = { u with
      agent := (LayerOwnership.executing p rest s).agent
      relay := (LayerOwnership.executing p rest s).relay
      extents := (LayerOwnership.executing p rest s).extents } := by
    rw [← hagent, ← hrelay, ← hextents]
  exact congrArg release hu

/-- A command that carries through a request of such a kind: it is answered as its rule says, from the node address that the
rule leaves, and outside the agent and the relay only the rule's own action changes anything (R144, R152, R153). -/
theorem addressedStep_answered {k : Byte} {p : Packet} {rest : List Packet} {s : State} {rule : Rule}
    (h : Takes k p rest s) (hk : k ∈ requestKinds) (hl : lengthAccepted k (packetPayload p) = true)
    (hf : Fresh (requestOf p) s) (hr : LeavesAgentAndRelay rule) :
    let u := rule (requestOf p) (LayerOwnership.executing p rest s)
    let t := commanded (addressedStep k rule) s
    Answered s (requestOf p) rest u.2 t ∧ OnlyAgentAndRelay (elsewhereAs u.1 s) t := by
  intro u t
  obtain ⟨hagent, hrelay, hextents⟩ := hr (requestOf p) (LayerOwnership.executing p rest s)
  let done := finished rest (elsewhereAs u.1 s)
  have ht : t = placeReply (requestOf p) u.2 done :=
    (addressedStep_takes h rule hk hl hf).trans
      (congrArg (placeReply (requestOf p) u.2) (release_executed hagent hrelay hextents))
  obtain ⟨hin, hbusy, hlast, hgrant, hown, hrel, hrec, hlane, hctx⟩ := placeReply_spec (requestOf p) u.2 done
  have helse := placeReply_elsewhere (requestOf p) u.2 done
  obtain ⟨-, hext, -, hsorter, -⟩ := placeReply_frame (requestOf p) u.2 done
  rw [← ht] at hin hbusy hlast hgrant hown hrel hrec hlane hctx helse hext hsorter
  rw [← hsorter] at hown hctx
  refine ⟨⟨hin, hbusy, hlast, hgrant, hext, hown, hrel, hrec, hlane, ?_, fun src hs => ?_⟩, ?_⟩
  · rw [hctx, if_pos rfl]
    rfl
  · rw [hctx, if_neg hs]
    rfl
  · exact (congrArg (fun x => elsewhereAs x s) helse :)

/-! ## ASSIGN (R136) -/

theorem assignRule_refused {r : Request} (s : State) (h : field r.payload 0 1 = 0 ∨ 63 ≤ field r.payload 0 1) :
    assignRule r s = (s, ⟨.field, [1]⟩) := if_pos h

theorem assignRule_accepted {r : Request} (s : State) (hlow : 1 ≤ field r.payload 0 1) (hhigh : field r.payload 0 1 ≤ 62) :
    assignRule r s
      = ({ s with sorter := { s.sorter with address := BitVec.ofNat 8 (field r.payload 0 1) } },
          ⟨.ok, [s.sorter.address, BitVec.ofNat 8 (field r.payload 0 1)]⟩) := by
  unfold assignRule
  dsimp only
  rw [if_neg (by omega)]
  simp [beBytes]

theorem assignRule_leaves : LeavesAgentAndRelay assignRule := by
  intro r v
  unfold assignRule
  dsimp only
  split <;> exact ⟨rfl, rfl, rfl⟩

/-! ## IDENTIFY (R172) -/

theorem identityBytes_eq : identityBytes = [0x5A, 0x04, 0x12, 3, 16, 1, 0, 2, 0, 1, 0, 8, 4, 8, 4] := by decide

/-- Settles O37: the two rules, put through the agent's steps with an addressed request. -/
theorem assignSetsAddressIdentifyReportsIdentity : Obligations.AssignSetsAddressIdentifyReportsIdentity := by
  unfold Obligations.AssignSetsAddressIdentifyReportsIdentity
  refine ⟨fun s p rest htakes hlen hfresh => ?_, fun s p rest htakes hnone hfresh => ?_⟩
  · have hlength : lengthAccepted kindAssign (packetPayload p) = true := by
      rw [← lengthOk_eq_lengthAccepted]
      exact decide_eq_true hlen
    have h := addressedStep_answered htakes (by decide) hlength hfresh assignRule_leaves
    refine ⟨fun hbad => ?_, fun hlow hhigh => ?_⟩
    · rw [assignRule_refused _ hbad] at h
      exact ⟨_, rfl, h⟩
    · rw [assignRule_accepted _ hlow hhigh] at h
      exact ⟨_, rfl, h⟩
  · have hlength : lengthAccepted kindIdentify (packetPayload p) = true := by rw [hnone]; rfl
    obtain ⟨hanswered, honly⟩ := addressedStep_answered htakes (by decide) hlength hfresh
      (rule := identifyRule) fun _ _ => ⟨rfl, rfl, rfl⟩
    refine ⟨_, rfl, honly, ?_⟩
    rw [← identityBytes_eq]
    exact hanswered

end Sys2Proof.Machine.ControlPackets
end

section
/-! SUPPORT. The return lane: reception from downstream, the arbiter's selection, and the end of a send (R161 to R165). -/

namespace Sys2Proof.Machine.ReturnLane

/-! ## The arbiter (R164) -/

section Arbiter

variable {s : State}

theorem arbitrate_eq_sendRelayed (hfree : s.relay.sending = none)
    (hnext : selectNext s.relay.fifo s.agent.replies s.relay.lastServed = some .relay) : arbitrate s = sendRelayed s := by
  simp only [arbitrate, hfree, hnext]

theorem arbitrate_eq_sendReply (hfree : s.relay.sending = none)
    (hnext : selectNext s.relay.fifo s.agent.replies s.relay.lastServed = some .reply) : arbitrate s = sendReply s := by
  simp only [arbitrate, hfree, hnext]

theorem selectNext_relay (q : Packet) (fifo : List Packet) {replies : List Queued} {last : Served}
    (hturn : replies = [] ∨ last = .reply) : selectNext (q :: fifo) replies last = some .relay := by
  rcases hturn with rfl | rfl
  · rfl
  · cases replies <;> rfl

theorem selectNext_reply (q : Queued) (replies : List Queued) {fifo : List Packet} {last : Served}
    (hturn : fifo = [] ∨ last = .relay) : selectNext fifo (q :: replies) last = some .reply := by
  rcases hturn with rfl | rfl
  · rfl
  · cases fifo <;> rfl

/-- The first relayed packet goes into sending where no reply waits, or where a reply was served last. -/
theorem arbitrate_relayed {q : Packet} {fifo : List Packet} (hfree : s.relay.sending = none)
    (hfifo : s.relay.fifo = q :: fifo) (hturn : s.agent.replies = [] ∨ s.relay.lastServed = .reply) :
    arbitrate s
      = { s with relay := { s.relay with fifo := fifo, sending := some (.relayed q), lastServed := .relay } } := by
  rw [arbitrate_eq_sendRelayed hfree (hfifo ▸ selectNext_relay q fifo hturn)]
  simp only [sendRelayed, hfifo]

/-- The first of the node's own packets goes into sending where no relayed packet waits, or where one was served last. -/
theorem arbitrate_reply {q : Queued} {replies : List Queued} (hfree : s.relay.sending = none)
    (hreplies : s.agent.replies = q :: replies) (hturn : s.relay.fifo = [] ∨ s.relay.lastServed = .relay) :
    arbitrate s
      = { s with
          agent := { s.agent with replies := replies }
          relay := { s.relay with sending := some (.own q), lastServed := .reply } } := by
  rw [arbitrate_eq_sendReply hfree (hreplies ▸ selectNext_reply q replies hturn)]
  simp only [sendReply, hreplies]

theorem arbitrate_empty (hfree : s.relay.sending = none) (hfifo : s.relay.fifo = []) (hreplies : s.agent.replies = []) :
    arbitrate s = s := by
  simp only [arbitrate, hfree, hfifo, hreplies, selectNext]

/-- A selection reaches nothing but the relay and the reply queue. -/
theorem arbitrate_elsewhere (s : State) :
    { arbitrate s with relay := s.relay, agent := { (arbitrate s).agent with replies := s.agent.replies } } = s := by
  unfold arbitrate
  split
  · rfl
  · split
    · rfl
    · unfold sendRelayed
      split <;> rfl
    · unfold sendReply
      split <;> rfl

end Arbiter

/-! ## Reception (R161, R162) -/

/-- The packet in reception is no longer one: dropped, or offered to the relay FIFO. -/
def receptionEnded (s : State) : State := { s with relay := { s.relay with receiving := none } }

/-- A received packet at the end of the relay FIFO. -/
def relayJoined (p : Packet) (s : State) : State :=
  { receptionEnded s with relay := { (receptionEnded s).relay with fifo := s.relay.fifo ++ [p] } }

theorem relayJoined_relayTraffic (p : Packet) (s : State) :
    relayTraffic (relayJoined p s) = relayTraffic s ++ [p] := (List.append_assoc ..).symm

theorem relayJoined_ownTraffic (p : Packet) (s : State) : ownTraffic (relayJoined p s) = ownTraffic s := rfl

/-- One event counted: the counter saturates (R177), and nothing else differs. -/
theorem bump_one (c : Counter) (s : State) :
    (bump c 1 s).counter c = min (s.counter c + 1) 4294967295
    ∧ (∀ k, k ≠ c → (bump c 1 s).counter k = s.counter k)
    ∧ { bump c 1 s with status := { (bump c 1 s).status with counters := s.status.counters } } = s := by
  refine ⟨?_, fun k hk => ?_, rfl⟩
  · rw [counter_bump, if_pos rfl, saturate_eq]
  · rw [counter_bump, if_neg hk]

section Reception

variable {s : State} {p : Packet}

theorem exec_returnPacketByte {bytes : List Byte} (b : Byte) (hrec : s.relay.receiving = some bytes) :
    exec (.returnPacketByte b) s = .next { s with relay := { s.relay with receiving := some (bytes ++ [b]) } } := by
  change execReturnPacketByte b s = _
  simp only [execReturnPacketByte, hrec]

theorem exec_returnSignalLoss_none (hrec : s.relay.receiving = none) : exec .returnSignalLoss s = .next s := by
  change execReturnSignalLoss s = _
  simp only [execReturnSignalLoss, hrec]

theorem exec_returnSignalLoss_some (hrec : s.relay.receiving = some p) :
    exec .returnSignalLoss s = .next (bump .relayBadCrc 1 (receptionEnded s)) := by
  change execReturnSignalLoss s = _
  simp only [execReturnSignalLoss, hrec]
  rfl

theorem exec_returnPacketEnd (hrec : s.relay.receiving = some p) :
    exec .returnPacketEnd s
      = .next (if returnPacketGood p then offerToFifo p (receptionEnded s)
          else bump .relayBadCrc 1 (receptionEnded s)) := by
  change execReturnPacketEnd s = _
  simp only [execReturnPacketEnd, hrec]
  rfl

theorem exec_returnPacketEnd_bad (hrec : s.relay.receiving = some p) (hbad : returnPacketGood p = false) :
    exec .returnPacketEnd s = .next (bump .relayBadCrc 1 (receptionEnded s)) := by
  rw [exec_returnPacketEnd hrec, hbad, if_neg Bool.false_ne_true]

theorem exec_returnPacketEnd_room (hrec : s.relay.receiving = some p) (hgood : returnPacketGood p = true)
    (hroom : s.relay.fifo.length < 4) : exec .returnPacketEnd s = .next (arbitrate (relayJoined p s)) := by
  rw [exec_returnPacketEnd hrec, if_pos hgood]
  exact congrArg Host.Outcome.next (if_pos hroom)

theorem exec_returnPacketEnd_full (hrec : s.relay.receiving = some p) (hgood : returnPacketGood p = true)
    (hfull : 4 ≤ s.relay.fifo.length) :
    exec .returnPacketEnd s = .next (bump .relayOverflow 1 (receptionEnded s)) := by
  rw [exec_returnPacketEnd hrec, if_pos hgood]
  exact congrArg Host.Outcome.next (if_neg (Nat.not_lt.mpr hfull))

end Reception

/-- Settles O49: each event of a reception by its own rule; a packet that joins goes by the arbiter, which loses none. -/
theorem returnLaneReception : Obligations.ReturnLaneReception := by
  unfold Obligations.ReturnLaneReception
  refine ⟨fun _ => rfl, fun _ b _ => exec_returnPacketByte b, fun _ => exec_returnSignalLoss_none,
    fun s p hrec => ⟨fun c hc => ?_, fun hgood hroom => ?_, fun hgood hfull => ?_⟩⟩
  · have hexec : exec c s = .next (bump .relayBadCrc 1 (receptionEnded s)) := by
      rcases hc with rfl | ⟨rfl, hbad⟩
      · exact exec_returnSignalLoss_some hrec
      · exact exec_returnPacketEnd_bad hrec hbad
    exact ⟨_, hexec, bump_one .relayBadCrc (receptionEnded s)⟩
  · obtain ⟨-, -, -, -, -, hreceiving, hlane⟩ := arbitrate_rest (relayJoined p s)
    refine ⟨_, exec_returnPacketEnd_room hrec hgood hroom, ?_, ?_, hreceiving, hlane, fun hsending => ?_, ?_⟩
    · rw [arbitrate_relayTraffic, relayJoined_relayTraffic]
    · rw [arbitrate_ownTraffic, relayJoined_ownTraffic]
    · rw [arbitrate_busy (relayJoined p s) hsending]
      exact ⟨rfl, rfl⟩
    · exact (congrArg (fun t : State => { t with relay := s.relay }) (arbitrate_elsewhere (relayJoined p s)) :)
  · exact ⟨_, exec_returnPacketEnd_full hrec hgood hfull, bump_one .relayOverflow (receptionEnded s)⟩

/-! ## The end of a send (R163, R165) -/

/-- A context with the mark clear that tells of its cached reply, or of its notice, on the way (R152, R156, R165). -/
def unmarked : ReplyClass → Context → Context
  | .reply, c => { c with cachedQueued := false }
  | .notice, c => { c with noticeOutstanding := false }

theorem completeSend_own (q : Queued) (s : State) :
    completeSend (.own q) s
      = if q.note = true then s.modifyContext (packetSource q.packet) (unmarked q.cls) else s := by
  obtain ⟨packet, cls, note⟩ := q
  cases cls <;> rfl

theorem completeSend_own_context (q : Queued) (s : State) (src : SourceId) :
    (completeSend (.own q) s).context src
      = if q.note = true ∧ packetSource q.packet = src then unmarked q.cls (s.context src) else s.context src := by
  rw [completeSend_own]
  by_cases hnote : q.note = true
  · simp only [hnote, if_true, true_and, context_modifyContext, eq_comm]
  · rw [if_neg hnote, if_neg fun h => hnote h.1]

/-- The completion of a send reaches nothing but contexts. -/
theorem completeSend_eq (x : Sending) (s : State) :
    completeSend x s = { s with agent := { s.agent with contexts := (completeSend x s).agent.contexts } } := by
  cases x with
  | relayed p => rfl
  | own q =>
    rw [completeSend_own]
    split <;> rfl

/-- The lane FREE again after the send of `x`, before the arbiter selects. -/
def laneFreed (x : Sending) (s : State) : State :=
  { s with
    agent := { s.agent with contexts := (completeSend x s).agent.contexts }
    relay := { s.relay with sending := none, lane := some (sentPacket x) } }

theorem exec_laneFree {x : Sending} {s : State} (hsending : s.relay.sending = some x) :
    exec .laneFree s = .next (arbitrate (laneFreed x s)) := by
  change execLaneFree s = _
  simp only [execLaneFree, hsending]
  rw [completeSend_eq]
  rfl

theorem laneFreed_context (x : Sending) (s : State) (src : SourceId) :
    (laneFreed x s).context src = (completeSend x s).context src := rfl

/-- Settles O50: the completion of the send, then the arbiter's selection from the queues as they were. -/
theorem laneFreeSelectsNext : Obligations.LaneFreeSelectsNext := by
  unfold Obligations.LaneFreeSelectsNext
  intro s x hsending
  obtain ⟨-, -, -, -, -, hreceiving, hlane⟩ := arbitrate_rest (laneFreed x s)
  refine ⟨_, exec_laneFree hsending, hlane, hreceiving, fun src => ?_, fun q fifo hfifo hturn => ?_,
    fun q replies hreplies hturn => ?_, fun hfifo hreplies => ?_, ?_⟩
  · rw [arbitrate_context, laneFreed_context]
    cases x with
    | relayed p => rfl
    | own q =>
      rw [completeSend_own_context]
      obtain ⟨packet, cls, note⟩ := q
      cases cls <;> rfl
  · rw [arbitrate_relayed (s := laneFreed x s) rfl hfifo hturn]
    exact ⟨rfl, rfl, rfl, rfl⟩
  · rw [arbitrate_reply (s := laneFreed x s) rfl hreplies hturn]
    exact ⟨rfl, rfl, rfl, rfl⟩
  · rw [arbitrate_empty (s := laneFreed x s) rfl hfifo hreplies]
    exact ⟨rfl, hfifo, hreplies, rfl⟩
  · exact (congrArg (fun t : State => { t with
      relay := s.relay, agent := { t.agent with contexts := s.agent.contexts } })
      (arbitrate_elsewhere (laneFreed x s)) :)

end Sys2Proof.Machine.ReturnLane
end

section
/-! SUPPORT. The settings of the node: the checks of a CONFIG_WRITE, and what it changes before and with its reply (R170,
R171). -/

namespace Sys2Proof.Machine.NodeSettings

open ControlPackets

/-! ## A command that comes as far as the action of a taken request (R144, R145) -/

/-- The request's own rule is run, and the reply is still to be placed. -/
theorem addressedStep_acted {k : Byte} {p : Packet} {s : State} {rule : Rule} (hextent : nextExtent s = .acted)
    (hbusy : s.agent.busy = some (.taken p .execute)) (hkind : packetKind p = k) (hcast : packetBroadcast p = false) :
    commanded (addressedStep k rule) s = runRule rule (requestOf p) { s with extents := s.extents.tail } := by
  have hserves : ((requestOf p).kind == k) = true := beq_iff_eq.mpr hkind
  unfold commanded addressedStep requestStep
  rw [hextent]
  dsimp only
  rw [takeRequest_busy _ (by simp [hbusy])]
  simp [actRequest, hbusy, hserves, hcast]

/-- Where the rule's action leaves the agent and the relay alone, no context differs yet (R152), and outside the agent only that
action changes anything. -/
theorem runRule_keeps {rule : Rule} (hrule : LeavesAgentAndRelay rule) (r : Request) (s : State) :
    (runRule rule r s).agent.contexts = s.agent.contexts
    ∧ OnlyAgentAndRelay (elsewhereAs (rule r s).1 s) (runRule rule r s) := by
  obtain ⟨hagent, -, -⟩ := hrule r s
  exact ⟨(congrArg Agent.contexts hagent :), rfl⟩

/-! ## The checks of a CONFIG_WRITE (R170) -/

theorem fieldAnswer_eq (id : Nat) : fieldAnswer id = ⟨.field, [BitVec.ofNat 8 id]⟩ := by
  simp [fieldAnswer, beBytes]

/-- A named setting fails its check exactly where its value is one that the check turns away; one not named fails none. -/
theorem not_getD_map_eq_any {good bad : Nat → Bool} (h : ∀ n, good n = !bad n) (value : Option Nat) :
    (!(value.map good).getD true) = value.any bad := by
  cases value with
  | none => rfl
  | some n => simp [h]

theorem decide_le_eq_not_lt (m n : Nat) : decide (m ≤ n) = !decide (n < m) := by
  rw [← decide_not, decide_eq_decide, Nat.not_lt]

/-- The first bad field, as the byte that the reply names it by, with each check said by the values that it turns away. -/
theorem configBadField_byte (payload : List Byte) :
    let v := configField payload
    (configBadField payload).map (BitVec.ofNat 8) =
      if 32 ≤ (packetByte payload 0).toNat then some 1
      else if (v 0).any (fun n => decide (n < 256) || decide (4096 < n)) then some 2
      else if (v 1).any (fun n => decide (n = 0)) then some 3
      else if (v 2).any (fun n => decide (1 < n)) then some 4
      else if (v 3).any (fun n => decide (7 < n) && !decide (n = 255)) then some 5
      else if (v 4).any (fun n => decide (1 < n)) then some 6
      else none := by
  intro v
  unfold configBadField
  rw [not_getD_map_eq_any (bad := fun n => decide (n < 256) || decide (4096 < n)) (fun n => by simp [decide_le_eq_not_lt]),
    not_getD_map_eq_any (bad := fun n => decide (n = 0)) (fun n => by simp),
    not_getD_map_eq_any (decide_le_eq_not_lt · 1),
    not_getD_map_eq_any (bad := fun n => decide (7 < n) && !decide (n = 255)) (fun n => by simp [decide_le_eq_not_lt]),
    not_getD_map_eq_any (decide_le_eq_not_lt · 1)]
  simp only [apply_ite (Option.map (BitVec.ofNat 8))]
  rfl

/-! ## The settings after a CONFIG_WRITE (R169, R170) -/

theorem configured_expiryAction (payload : List Byte) (st : Settings) :
    (configField payload 2 = none → (configured payload st).expiryAction = st.expiryAction)
    ∧ (configField payload 2 = some 0 → (configured payload st).expiryAction = .hide)
    ∧ (configField payload 2 = some 1 → (configured payload st).expiryAction = .keep) := by
  refine ⟨fun h => ?_, fun h => ?_, fun h => ?_⟩ <;> simp [configured, h]

theorem listenerOf_val (k : SourceId) : listenerOf k.val = some k := dif_pos k.isLt

theorem configured_listener (payload : List Byte) (st : Settings) :
    (configField payload 3 = none → (configured payload st).listener = st.listener)
    ∧ (configField payload 3 = some 255 → (configured payload st).listener = none)
    ∧ ∀ k : SourceId, configField payload 3 = some k.val → (configured payload st).listener = some k := by
  refine ⟨fun h => ?_, fun h => ?_, fun k h => ?_⟩
  · simp [configured, h]
  · simp [configured, h, listenerOf]
  · simp [configured, h, listenerOf_val]

theorem configured_forcePass (payload : List Byte) (st : Settings) :
    (configField payload 4 = none → (configured payload st).forcePass = st.forcePass)
    ∧ (configField payload 4 = some 0 → (configured payload st).forcePass = false)
    ∧ (configField payload 4 = some 1 → (configured payload st).forcePass = true) := by
  refine ⟨fun h => ?_, fun h => ?_, fun h => ?_⟩ <;> simp [configured, h]

/-! ## CONFIG_WRITE's own rule (R170) -/

theorem configWriteRule_refused {r : Request} {f : Nat} (s : State) (h : configBadField r.payload = some f) :
    configWriteRule r s = (s, ⟨.field, [BitVec.ofNat 8 f]⟩) := by
  unfold configWriteRule
  rw [h, ← fieldAnswer_eq]

theorem configWriteRule_accepted {r : Request} (s : State) (h : configBadField r.payload = none) :
    let st := configured r.payload s.status.settings
    configWriteRule r s = ({ s with status := { s.status with settings := st } }, ⟨.ok, settingsBytes st⟩) := by
  unfold configWriteRule
  rw [h]

/-- Accepted or not, a CONFIG_WRITE's action changes nothing but Node Status. -/
theorem configWriteRule_rest (r : Request) (s : State) :
    (configWriteRule r s).1 = { s with status := (configWriteRule r s).1.status } := by
  cases h : configBadField r.payload with
  | some f => rw [configWriteRule_refused s h]
  | none => rw [configWriteRule_accepted s h]

theorem configWriteRule_leaves : LeavesAgentAndRelay configWriteRule := by
  intro r v
  rw [configWriteRule_rest]
  exact ⟨rfl, rfl, rfl⟩

/-- Settles O38: the checks and the settings of the rule, put through the agent's steps with an addressed request as far as its
reply, and as far as its action. -/
theorem configWriteReplacesNamedSettings : Obligations.ConfigWriteReplacesNamedSettings := by
  unfold Obligations.ConfigWriteReplacesNamedSettings
  refine ⟨fun s p rest htakes hlen hfresh => ?_, fun s u p hextent hbusy hkind hcast hexec => ?_⟩
  · intro v old bad
    have hlength : lengthAccepted kindConfigWrite (packetPayload p) = true := by
      rw [← lengthOk_eq_lengthAccepted]
      exact hlen
    have hbad : (configBadField (packetPayload p)).map (BitVec.ofNat 8) = bad := configBadField_byte (packetPayload p)
    have h := addressedStep_answered htakes (by decide) hlength hfresh configWriteRule_leaves
    refine ⟨fun f hf => ?_, fun hnone => ?_⟩
    · obtain ⟨n, hn, rfl⟩ := Option.map_eq_some_iff.mp (hbad.trans hf)
      rw [configWriteRule_refused (r := requestOf p) _ hn] at h
      exact ⟨_, rfl, h⟩
    · have haccepted := Option.map_eq_none_iff.mp (hbad.trans hnone)
      rw [configWriteRule_accepted (r := requestOf p) _ haccepted] at h
      obtain ⟨hanswered, honly⟩ := h
      obtain ⟨haction, hhide, hkeep⟩ := configured_expiryAction (packetPayload p) old
      obtain ⟨hlistener, hnobody, hsource⟩ := configured_listener (packetPayload p) old
      exact ⟨_, configured (packetPayload p) old, rfl, hanswered, honly, rfl, rfl, haction, hhide, hkeep,
        hlistener, hnobody, hsource, configured_forcePass (packetPayload p) old⟩
  · obtain rfl : runRule configWriteRule (requestOf p) { s with extents := s.extents.tail } = u :=
      (addressedStep_acted hextent hbusy hkind hcast).symm.trans (Host.Outcome.next.inj hexec)
    obtain ⟨hcontexts, honly⟩ := runRule_keeps configWriteRule_leaves (requestOf p) { s with extents := s.extents.tail }
    refine ⟨hcontexts, ?_, fun haccepted => ?_⟩
    · rw [configWriteRule_rest] at honly
      exact (congrArg (fun x : State => { x with extents := s.extents }) honly :)
    · unfold runRule
      rw [configWriteRule_accepted (r := requestOf p) _ haccepted]
      rfl

end Sys2Proof.Machine.NodeSettings
end

section
/-! SUPPORT. The status of the node: the snapshot of a STATUS_READ, its length, and the clears that follow it (R173 to R175). -/

namespace Sys2Proof.Machine.NodeStatusRead

open ControlPackets

/-! ## The length of the snapshot (R140, R174) -/

/-- An optional part takes a presence byte and its value bytes, whether its value is present or not (R140). -/
theorem optionalPart_map_length {α : Type} {n : Nat} {bytes : α → List Byte} (h : ∀ a, (bytes a).length = n)
    (value : Option α) : (optionalPart n (value.map bytes)).length = n + 1 := by
  cases value with
  | none => simp [optionalPart]
  | some a => simp [optionalPart, h]

theorem flatMap_length_of_forall {α : Type} {n : Nat} {bytes : α → List Byte} (h : ∀ a, (bytes a).length = n)
    (items : List α) : (items.flatMap bytes).length = n * items.length := by
  induction items with
  | nil => rfl
  | cons a items ih => rw [List.flatMap_cons, List.length_append, h, ih, List.length_cons, Nat.mul_succ, Nat.add_comm]

theorem maskBytes_length (m : Word) : (maskBytes m).length = 2 := beBytes_length 2 m.toNat

/-- The snapshot takes 64 bytes, and 3 for each armed commit (R174). -/
theorem statusBytes_length (s : State) : (statusBytes s).length = 64 + 3 * s.layers.commits.length := by
  have hcommits := flatMap_length_of_forall (n := 3) (bytes := fun c : CommitEntry => beBytes 1 c.source.val ++ maskBytes c.mask)
    (fun c => by simp [beBytes_length, maskBytes_length]) s.layers.commits
  have hfirst := optionalPart_map_length (n := 4)
    (bytes := fun f : FirstExpiry => beBytes 1 f.source.val ++ beBytes 1 f.layer.val ++ maskBytes f.frame)
    (fun f => by simp [beBytes_length, maskBytes_length]) s.layers.firstExpiry
  have hframe := optionalPart_map_length maskBytes_length s.rx.lastFrame
  have hcounters := flatMap_length_of_forall (beBytes_length 4) s.status.counters.toList
  rw [Vector.length_toList] at hcounters
  unfold statusBytes
  simp only [List.length_append, beBytes_length, hcommits, hfirst, hframe, hcounters, List.length_singleton]
  omega

/-! ## The clears (R89, R175) -/

theorem counter_statusClears (options : Byte) (s : State) (c : Counter) :
    (statusClears options s).counter c = if options.getLsbD 0 then 0 else s.counter c := by
  have hcounters : (statusClears options s).counter c
      = (if options.getLsbD 0 then clearCounters s else s).counter c := by
    unfold statusClears
    cases options.getLsbD 1 <;> rfl
  rw [hcounters]
  split
  · exact Vector.getElem_replicate _
  · rfl

theorem firstExpiry_statusClears (options : Byte) (s : State) :
    (statusClears options s).layers.firstExpiry = if options.getLsbD 1 then none else s.layers.firstExpiry := by
  unfold statusClears
  cases options.getLsbD 0 <;> cases options.getLsbD 1 <;> rfl

/-- The clears reach the counters and the first-expiry record, and nothing else. -/
theorem statusClears_rest (options : Byte) (s : State) :
    statusClears options s = { s with
      status := { s.status with counters := (statusClears options s).status.counters }
      layers := { s.layers with firstExpiry := (statusClears options s).layers.firstExpiry } } := by
  unfold statusClears
  cases options.getLsbD 0 <;> cases options.getLsbD 1 <;> rfl

/-! ## STATUS_READ's own rule (R173) -/

theorem statusReadRule_refused {r : Request} (s : State) (h : 4 ≤ (packetByte r.payload 0).toNat) :
    statusReadRule r s = (s, ⟨.field, [1]⟩) := if_pos h

theorem statusReadRule_accepted {r : Request} (s : State) (h : (packetByte r.payload 0).toNat < 4) :
    statusReadRule r s = (statusClears (packetByte r.payload 0) s, ⟨.ok, statusBytes s⟩) := if_neg (Nat.not_le.mpr h)

theorem statusReadRule_leaves : LeavesAgentAndRelay statusReadRule := by
  intro r v
  rcases Nat.lt_or_ge (packetByte r.payload 0).toNat 4 with hknown | hunknown
  · rw [statusReadRule_accepted v hknown]
    obtain ⟨-, hextents, -, -, hagent, -, -, -, hrelay, -⟩ := statusClears_frame (packetByte r.payload 0) v
    exact ⟨hagent, hrelay, hextents⟩
  · rw [statusReadRule_refused v hunknown]
    exact ⟨rfl, rfl, rfl⟩

/-- Settles O39: the snapshot and then the clears of the rule, put through the agent's steps with an addressed request. -/
theorem statusReadSnapshotsThenClears : Obligations.StatusReadSnapshotsThenClears := by
  unfold Obligations.StatusReadSnapshotsThenClears
  intro s p rest htakes hlen hfresh options snapshot
  have hlength : lengthAccepted kindStatusRead (packetPayload p) = true := by
    rw [← lengthOk_eq_lengthAccepted]
    exact decide_eq_true hlen
  have h := addressedStep_answered htakes (by decide) hlength hfresh statusReadRule_leaves
  refine ⟨fun hunknown => ?_, fun hknown => ?_⟩
  · rw [statusReadRule_refused (r := requestOf p) _ hunknown] at h
    exact ⟨_, rfl, h⟩
  · rw [statusReadRule_accepted (r := requestOf p) _ hknown] at h
    obtain ⟨hanswered, honly⟩ := h
    generalize ht : commanded (addressedStep kindStatusRead statusReadRule) s = t at hanswered honly
    let v := LayerOwnership.executing p rest s
    have hstatus : t.status = (statusClears options v).status := (congrArg State.status honly :)
    have hlayers : t.layers = (statusClears options v).layers := (congrArg State.layers honly :)
    refine ⟨t, congrArg _ ht, hanswered, statusBytes_length s, fun c => ?_, ?_, ?_⟩
    · exact (counter_congr (congrArg NodeStatus.counters hstatus) c).trans (counter_statusClears options v c)
    · rw [hlayers]
      exact firstExpiry_statusClears options v
    · rw [statusClears_rest] at honly
      rw [hstatus, hlayers]
      exact honly

end Sys2Proof.Machine.NodeStatusRead
end

section
/-! SUPPORT. One step of the part: the front command taken from the queue, and the idle step of an empty queue (log 2). -/

namespace Sys2Proof.Machine.CommandQueue

/-- The command that a step executes is gone from the queue already while it is executed. -/
theorem step_of_pending_cons {s : State} {c : Instr} {rest : List Instr} (h : s.pending = c :: rest) :
    step s = exec c { s with pending := rest } := by
  unfold step
  rw [h]

/-- The block idles where it has no command (log 2). -/
theorem step_of_pending_nil {s : State} (h : s.pending = []) : step s = .next s := by
  unfold step
  rw [h]

/-- Settles O1: the two forms that the queue can have. -/
theorem stepRunsFrontCommand : Obligations.StepRunsFrontCommand := by
  unfold Obligations.StepRunsFrontCommand
  exact ⟨fun _ _ _ => step_of_pending_cons, fun _ => step_of_pending_nil⟩

end Sys2Proof.Machine.CommandQueue
end
